-- ==== Sys2Proof/Word.lean ====
section
/-!
DEFINITION. The word and byte types of the RLC PDU codec block.

Registers and the command word are 32 bits (10_state.md R21, R22, R23), a byte is 8 bits (00_scope.md R12). Every
value is unsigned (00_scope.md R11). Lengths, offsets, indices and counts are natural numbers.
-/

namespace Sys2Proof

/-- A 32-bit register or command word (10_state.md R21 to R23). -/
abbrev Word := BitVec 32

/-- A byte of a buffer; bit 7 is the most significant (00_scope.md R12). -/
abbrev Byte := BitVec 8

end Sys2Proof
end

