-- ==== Sys2Proof/Config.lean ====
section
/-!
DEFINITION. What an implementation fixes (00_scope.md R7, R8, R10) and the free values: what the spec leaves
unspecified (10_state.md R41, 20_memory.md R60, 93_implementation_defined.md U2, U9).
-/

namespace Sys2Proof

/-- The five construction-time parameters (00_scope.md R8). The spec leaves their values open (92 D11), so they are
data that every statement ranges over; `Params.ok` is R8's constraint (70_reset_and_hazards.md R232). -/
structure Params where
  nCtx      : Nat
  maxGaps   : Nat
  nNack     : Nat
  ibufBytes : Nat
  obufBytes : Nat
deriving DecidableEq, Repr

/-- The constraints of 00_scope.md R8; parameters outside them are not a block (70_reset_and_hazards.md R232). -/
def Params.ok (p : Params) : Bool :=
  decide (1 ≤ p.nCtx) && decide (p.nCtx ≤ 255) &&
  decide (1 ≤ p.maxGaps) && decide (p.maxGaps ≤ 255) &&
  decide (1 ≤ p.nNack) && decide (p.nNack ≤ 255) &&
  decide (9005 ≤ p.ibufBytes) &&
  decide (9000 ≤ p.obufBytes) && decide (3 + 8 * p.nNack ≤ p.obufBytes)

/-- DESIGN CHOICE (log 1). The parameters of `State.reset`: those 95_test_vectors.md assumes unless a vector says
otherwise. The spec gives none. -/
def Params.vectors : Params :=
  { nCtx := 2, maxGaps := 4, nNack := 4, ibufBytes := 9005, obufBytes := 9000 }

/-- `MAX_SDU`: the largest SDU in bytes (00_scope.md R7). -/
def Config.maxSdu : Nat := 9000

/-- `END_UNKNOWN = 0xFFFF`: the end of the open gap (10_state.md R33). -/
def Config.endUnknown : Nat := 65535

/-- Free value (log 3): the byte of `IBUF` at an index nothing has written, in the contents numbered by the first
argument. -/
opaque Config.freeIbuf : Nat → Nat → Byte

/-- Free value (log 3): the byte of `OBUF` at an index nothing has written. -/
opaque Config.freeObuf : Nat → Nat → Byte

/-- Free value (log 3): the two-word image (10_state.md R30) of an entry of `NTAB` nothing has written. -/
opaque Config.freeNtab : Nat → Nat → BitVec 64

/-- Free value (log 3): the word image (10_state.md R31) of an entry of `GOUT` nothing has written. -/
opaque Config.freeGout : Nat → Nat → Word

/-- Free value (log 4): byte `p` of `data[c]` where no accepted segment has written it; arguments contents, `c`, `p`. -/
opaque Config.freeData : Nat → Nat → Nat → Byte

end Sys2Proof
end

