-- ==== Sys2Proof/Syntax.lean ====
section
/-!
DEFINITION. The thirteen commands of 30_encoding.md R72 (spec/opcode_table.json) with the fields each uses.

A field a command does not use is no argument of its constructor (R73). `MODE` of the status commands is fixed by
their rows, so it is no argument either.
-/

namespace Sys2Proof

/-- `KSEL`, the SN width selector (30_encoding.md R74). `reserved` is `0b11`: it decodes, and the command then raises
`E_BAD_SNBITS`. -/
inductive KSel where
  | k6 | k12 | k18 | reserved
deriving DecidableEq, Repr

/-- `MODE` (30_encoding.md R75). -/
inductive Mode where
  | um | am
deriving DecidableEq, Repr

/-- `SI`, the segmentation state (00_scope.md R17, 30_encoding.md R76). -/
inductive SegInfo where
  | whole | first | last | middle
deriving DecidableEq, Repr

/-- The commands, one constructor per row of spec/opcode_table.json. `ctx` is the context index of the `CTX` field. -/
inductive Instr where
  /-- `SN_ADD` (40_sn_space.md R93) -/
  | snAdd (ksel : KSel)
  /-- `SN_DIST` (40_sn_space.md R94) -/
  | snDist (ksel : KSel)
  /-- `SN_CMP` (40_sn_space.md R95) -/
  | snCmp (ksel : KSel)
  /-- `SN_INWIN` (40_sn_space.md R96) -/
  | snInwin (ksel : KSel)
  /-- `RT_SEG` (41_reassembly_tracker.md R114) -/
  | rtSeg (ctx : Nat) (last : Bool)
  /-- `RT_GET` (41_reassembly_tracker.md R118) -/
  | rtGet (ctx : Nat)
  /-- `RT_DROP` (41_reassembly_tracker.md R120) -/
  | rtDrop (ctx : Nat)
  /-- `RT_MISS` (41_reassembly_tracker.md R122) -/
  | rtMiss (ctx : Nat)
  /-- `RT_LIST` (41_reassembly_tracker.md R124) -/
  | rtList (ctx : Nat)
  /-- `ENC_DATA` (42_data_pdu_codec.md R148) -/
  | encData (poll : Bool) (si : SegInfo) (mode : Mode) (ksel : KSel)
  /-- `DEC_DATA` (42_data_pdu_codec.md R152) -/
  | decData (mode : Mode) (ksel : KSel)
  /-- `ENC_STATUS` (43_status_pdu_codec.md R178) -/
  | encStatus (ksel : KSel)
  /-- `DEC_STATUS` (43_status_pdu_codec.md R184) -/
  | decStatus (ksel : KSel)
deriving DecidableEq, Repr

end Sys2Proof
end

