-- ==== Sys2Proof/WellFormed.lean ====
section
/-!
DEFINITION. Which commands have a command word: the `CTX` field is 8 bits (30_encoding.md R71), so a context index is
below 256. Every other field of a command is a finite type whose values all fit their bits.
-/

namespace Sys2Proof

/-- The `CTX` field holds the index (30_encoding.md R71). -/
def ctxFits (c : Nat) : Bool := decide (c < 256)

/-- The command can be written as a command word (30_encoding.md R71, R73). -/
def WellFormed : Instr → Bool
  | .snAdd _ => true
  | .snDist _ => true
  | .snCmp _ => true
  | .snInwin _ => true
  | .rtSeg c _ => ctxFits c
  | .rtGet c => ctxFits c
  | .rtDrop c => ctxFits c
  | .rtMiss c => ctxFits c
  | .rtList c => ctxFits c
  | .encData _ _ _ _ => true
  | .decData _ _ => true
  | .encStatus _ => true
  | .decStatus _ => true

end Sys2Proof
end

