-- ==== Sys2Proof/Decode.lean ====
section
/-!
DEFINITION. Decoding and encoding of the 32-bit command word, format `C` (30_encoding.md R70 to R80).

The decoder looks the word up by `w & mask = match` in the thirteen rows of R72 and then extracts the fields the row
uses (R79); a word that matches no row is rejected by name (R78, 60_exceptions.md R202). The encoder writes the fields
of R71 side by side.
-/

namespace Sys2Proof

/-! ### The fields of format `C` (30_encoding.md R71) -/

/-- `OP`, bits 31:24. -/
def opField (w : Word) : BitVec 8 := w.extractLsb 31 24

/-- `CTX`, bits 23:16. -/
def ctxField (w : Word) : Nat := (w.extractLsb 23 16).toNat

/-- `LAST`, bit 6. -/
def lastField (w : Word) : Bool := w.getLsbD 6

/-- `POLL`, bit 5. -/
def pollField (w : Word) : Bool := w.getLsbD 5

/-- The 2-bit code of `SI`, the same in the command word and on the wire (00_scope.md R17, 30_encoding.md R76). -/
def SegInfo.code : SegInfo → BitVec 2
  | .whole => 0b00#2
  | .first => 0b01#2
  | .last => 0b10#2
  | .middle => 0b11#2

/-- The segmentation state a 2-bit code stands for (00_scope.md R17). -/
def SegInfo.ofCode (c : BitVec 2) : SegInfo :=
  if c = 0b00#2 then .whole
  else if c = 0b01#2 then .first
  else if c = 0b10#2 then .last
  else .middle

/-- `SI`, bits 4:3. -/
def siField (w : Word) : SegInfo := SegInfo.ofCode (w.extractLsb 4 3)

/-- The bit of `MODE` (30_encoding.md R75). -/
def Mode.code : Mode → BitVec 1
  | .um => 0b0#1
  | .am => 0b1#1

/-- `MODE`, bit 2. -/
def modeField (w : Word) : Mode := if w.getLsbD 2 then .am else .um

/-- The 2-bit code of `KSEL` (30_encoding.md R74). -/
def KSel.code : KSel → BitVec 2
  | .k6 => 0b00#2
  | .k12 => 0b01#2
  | .k18 => 0b10#2
  | .reserved => 0b11#2

/-- The selector a 2-bit code stands for (30_encoding.md R74). -/
def KSel.ofCode (c : BitVec 2) : KSel :=
  if c = 0b00#2 then .k6
  else if c = 0b01#2 then .k12
  else if c = 0b10#2 then .k18
  else .reserved

/-- `KSEL`, bits 1:0. -/
def kselField (w : Word) : KSel := KSel.ofCode (w.extractLsb 1 0)

/-! ### The rows of 30_encoding.md R72 -/

/-- The thirteen rows, by mnemonic. -/
inductive Opcode where
  | snAdd | snDist | snCmp | snInwin
  | rtSeg | rtGet | rtDrop | rtMiss | rtList
  | encData | decData | encStatus | decStatus
deriving DecidableEq, Repr

/-- All rows, in the order of R72. -/
def opcodes : List Opcode :=
  [.snAdd, .snDist, .snCmp, .snInwin, .rtSeg, .rtGet, .rtDrop, .rtMiss, .rtList, .encData, .decData, .encStatus,
   .decStatus]

/-- The `OP` value of a row (R72). -/
def Opcode.op : Opcode → BitVec 8
  | .snAdd => 0x10#8
  | .snDist => 0x11#8
  | .snCmp => 0x12#8
  | .snInwin => 0x13#8
  | .rtSeg => 0x20#8
  | .rtGet => 0x21#8
  | .rtDrop => 0x22#8
  | .rtMiss => 0x23#8
  | .rtList => 0x24#8
  | .encData => 0x30#8
  | .decData => 0x31#8
  | .encStatus => 0x40#8
  | .decStatus => 0x41#8

/-- The mask column of R72. -/
def Opcode.mask : Opcode → Word
  | .snAdd => 0xFFFFFFFC#32
  | .snDist => 0xFFFFFFFC#32
  | .snCmp => 0xFFFFFFFC#32
  | .snInwin => 0xFFFFFFFC#32
  | .rtSeg => 0xFF00FFBF#32
  | .rtGet => 0xFF00FFFF#32
  | .rtDrop => 0xFF00FFFF#32
  | .rtMiss => 0xFF00FFFF#32
  | .rtList => 0xFF00FFFF#32
  | .encData => 0xFFFFFFC0#32
  | .decData => 0xFFFFFFF8#32
  | .encStatus => 0xFFFFFFFC#32
  | .decStatus => 0xFFFFFFFC#32

/-- The match column of R72. -/
def Opcode.pattern : Opcode → Word
  | .snAdd => 0x10000000#32
  | .snDist => 0x11000000#32
  | .snCmp => 0x12000000#32
  | .snInwin => 0x13000000#32
  | .rtSeg => 0x20000000#32
  | .rtGet => 0x21000000#32
  | .rtDrop => 0x22000000#32
  | .rtMiss => 0x23000000#32
  | .rtList => 0x24000000#32
  | .encData => 0x30000000#32
  | .decData => 0x31000000#32
  | .encStatus => 0x40000004#32
  | .decStatus => 0x41000004#32

/-- The word is the command of the row: `w & mask = match` (R72). -/
def Opcode.matchesWord (r : Opcode) (w : Word) : Bool := w &&& r.mask == r.pattern

/-- The command a word of the row stands for: the fields the row uses (R72, R79). -/
def Opcode.command (r : Opcode) (w : Word) : Instr :=
  match r with
  | .snAdd => .snAdd (kselField w)
  | .snDist => .snDist (kselField w)
  | .snCmp => .snCmp (kselField w)
  | .snInwin => .snInwin (kselField w)
  | .rtSeg => .rtSeg (ctxField w) (lastField w)
  | .rtGet => .rtGet (ctxField w)
  | .rtDrop => .rtDrop (ctxField w)
  | .rtMiss => .rtMiss (ctxField w)
  | .rtList => .rtList (ctxField w)
  | .encData => .encData (pollField w) (siField w) (modeField w) (kselField w)
  | .decData => .decData (modeField w) (kselField w)
  | .encStatus => .encStatus (kselField w)
  | .decStatus => .decStatus (kselField w)

/-! ### Decoding -/

/-- Why a word is illegal (60_exceptions.md R202). All three raise `E_ILLEGAL`. -/
inductive IllegalWord where
  /-- The `OP` value is not one of the thirteen (30_encoding.md R78). -/
  | unassignedOp
  /-- A status command with `MODE = 0` (30_encoding.md R73, R77). -/
  | statusModeZero
  /-- A field the command does not use, or `RSV`, is not zero (30_encoding.md R73). -/
  | unusedFieldSet
deriving DecidableEq, Repr

/-- The name under which a word that matches no row is rejected. -/
def illegalReason (w : Word) : IllegalWord :=
  if opcodes.all (fun r => r.op != opField w) then .unassignedOp
  else if (opField w == 0x40#8 || opField w == 0x41#8) && !w.getLsbD 2 then .statusModeZero
  else .unusedFieldSet

/-- Decoding is total: the row the word matches, or the name of what is illegal (30_encoding.md R78, R79). -/
def decode (w : Word) : Except IllegalWord Instr :=
  match opcodes.find? (fun r => r.matchesWord w) with
  | some r => .ok (r.command w)
  | none => .error (illegalReason w)

/-! ### Encoding -/

/-- The row of a command. -/
def Instr.opcode : Instr → Opcode
  | .snAdd _ => .snAdd
  | .snDist _ => .snDist
  | .snCmp _ => .snCmp
  | .snInwin _ => .snInwin
  | .rtSeg _ _ => .rtSeg
  | .rtGet _ => .rtGet
  | .rtDrop _ => .rtDrop
  | .rtMiss _ => .rtMiss
  | .rtList _ => .rtList
  | .encData _ _ _ _ => .encData
  | .decData _ _ => .decData
  | .encStatus _ => .encStatus
  | .decStatus _ => .decStatus

/-- Format `C` (30_encoding.md R71): `OP`, `CTX`, `RSV`, `LAST`, `POLL`, `SI`, `MODE`, `KSEL`, bit 31 first. -/
def assemble (op ctx : BitVec 8) (last poll : Bool) (si : BitVec 2) (mode : BitVec 1) (ksel : BitVec 2) : Word :=
  op ++ ctx ++ 0#9 ++ BitVec.ofBool last ++ BitVec.ofBool poll ++ si ++ mode ++ ksel

/-- The command word of a command: its fields in place, every field it does not use zero (30_encoding.md R71 to R73). -/
def encode : Instr → Word
  | .snAdd k => assemble 0x10#8 0 false false 0 0 k.code
  | .snDist k => assemble 0x11#8 0 false false 0 0 k.code
  | .snCmp k => assemble 0x12#8 0 false false 0 0 k.code
  | .snInwin k => assemble 0x13#8 0 false false 0 0 k.code
  | .rtSeg c l => assemble 0x20#8 (BitVec.ofNat 8 c) l false 0 0 0
  | .rtGet c => assemble 0x21#8 (BitVec.ofNat 8 c) false false 0 0 0
  | .rtDrop c => assemble 0x22#8 (BitVec.ofNat 8 c) false false 0 0 0
  | .rtMiss c => assemble 0x23#8 (BitVec.ofNat 8 c) false false 0 0 0
  | .rtList c => assemble 0x24#8 (BitVec.ofNat 8 c) false false 0 0 0
  | .encData p si m k => assemble 0x30#8 0 false p si.code m.code k.code
  | .decData m k => assemble 0x31#8 0 false false 0 m.code k.code
  | .encStatus k => assemble 0x40#8 0 false false 0 1 k.code
  | .decStatus k => assemble 0x41#8 0 false false 0 1 k.code

/-! ### Words as the opcode table numbers their bits -/

/-- The command word whose low `nbits` bits are those of `w` and whose other bits are zero. A command word is written to
`CMD` whole, so it has no byte order (20_memory.md R54; log 13). -/
def tableWord (nbits w : Nat) : Word := BitVec.ofNat 32 (w % 2 ^ nbits)

/-- The command the decoder reads from a word numbered as spec/opcode_table.json numbers it. -/
def decodeTableWord (nbits w : Nat) : Option Instr :=
  match decode (tableWord nbits w) with
  | .ok i => some i
  | .error _ => none

end Sys2Proof
end

