-- ==== Sys2Proof/Machine/State.lean ====
section
/-!
DEFINITION. The state of the block (10_state.md R20 to R36), the status codes (60_exceptions.md R201), the host's moves
(30_encoding.md R82, 10_state.md R40), the reasons a step can stop, and the state after reset (10_state.md R41).
-/

namespace Sys2Proof.Machine

/-- A data space of the block as a sparse list of (index, value) pairs, indices strictly rising. An index that is not
listed is one nothing has written (10_state.md R41). With bytes as values this is a list of `Host.Cell`. -/
abbrev Memory (α : Type) := List (Nat × α)

/-- The spaces the host can name an index of (20_memory.md R50). -/
inductive Space where
  | ibuf | obuf | ntab | gout
deriving DecidableEq, Repr

/-- The values of `STATUS` (60_exceptions.md R201); 93_implementation_defined.md U18 allows this enumeration (log 11). -/
inductive Status where
  | ok | eIllegal | eBadSnbits | eBadCtx | eBadArg | eBufRange | eShortPdu | eNotData | eNotStatus | eBadCpt
  | eNackOvf | eBudget | eSegRange | eSegInconsistent | eGapFull | eNotComplete
deriving DecidableEq, Repr

/-- An entry of `NTAB` (10_state.md R30). -/
structure NackEntry where
  nackSn  : BitVec 18
  e2      : Bool
  e3      : Bool
  soStart : BitVec 16
  soEnd   : BitVec 16
  range   : BitVec 8
deriving DecidableEq, Repr

/-- An entry of `GOUT`: a pair of 16-bit values (10_state.md R31). -/
structure GapPair where
  start : BitVec 16
  stop  : BitVec 16
deriving DecidableEq, Repr

/-- A missing byte range `[start, stop)` of a context (10_state.md R32). `stop` is `END_UNKNOWN` for the open gap (R33). -/
structure Gap where
  start : Nat
  stop  : Nat
deriving DecidableEq, Repr

/-- A reassembly context (10_state.md R32). -/
structure Ctx where
  gaps     : List Gap
  lastSeen : Bool
  totLen   : Nat
  segCnt   : Nat
  byteCnt  : Nat
  data     : Memory Byte
deriving DecidableEq, Repr

/-- The fresh context (10_state.md R35); its bytes are unspecified, so none is listed. -/
def Ctx.fresh : Ctx :=
  { gaps := [⟨0, Config.endUnknown⟩], lastSeen := false, totLen := 0, segCnt := 0, byteCnt := 0, data := [] }

/-- The argument registers (10_state.md R22). -/
inductive ArgReg where
  | a0 | a1 | a2 | a3
deriving DecidableEq, Repr

/-- The result registers (10_state.md R23). -/
inductive ResReg where
  | r0 | r1 | r2 | r3 | r4 | r5
deriving DecidableEq, Repr

/-- What the host may try to read (10_state.md R40). -/
inductive Loc where
  | arg (i : ArgReg)
  | res (i : ResReg)
  | status
  | cap
  | ibuf (a : Nat)
  | obuf (a : Nat)
  | ntab (i : Nat)
  | gout (i : Nat)
  | cmd
deriving DecidableEq, Repr

/-- An item of an `RD` line (30_encoding.md R82): one place, or the entries `first` to `last` of a space, both included, as
in `OBUF[0..9]`. A list of registers such as `R0, R1` or `A0..A3` is one item per register. -/
inductive ReadItem where
  | place (l : Loc)
  | range (sp : Space) (first last : Nat)
deriving DecidableEq, Repr

/-- Where a host write is ignored (10_state.md R40, 93_implementation_defined.md U11). -/
inductive ReadOnlyLoc where
  | res (i : ResReg)
  | status
  | cap
  | obuf (a : Nat)
  | gout (i : Nat)
deriving DecidableEq, Repr

/-- What a host read gives for one place: a register, a byte, or a whole table entry (20_memory.md R54). -/
inductive HostValue where
  | word (w : Word)
  | byte (b : Byte)
  | nack (e : NackEntry)
  | pair (g : GapPair)
deriving DecidableEq, Repr

/-- A move of the host between commands (30_encoding.md R82, 10_state.md R40), or a reset (70_reset_and_hazards.md
R230). -/
inductive HostMove where
  /-- `WR`: write an argument register. -/
  | wr (i : ArgReg) (v : Word)
  /-- `WRB`: write bytes to `IBUF` from an address. -/
  | wrb (a : Nat) (bs : List Byte)
  /-- `WRN`: write an entry of `NTAB`. -/
  | wrn (i : Nat) (e : NackEntry)
  /-- A write to a place the host may only read: ignored. -/
  | writeIgnored (l : ReadOnlyLoc) (v : Word)
  /-- `CMD`: write a command word to the command port (10_state.md R21). -/
  | cmd (w : Word)
  /-- `RD`: read registers and space ranges. -/
  | rd (items : List ReadItem)
  /-- Reset, from outside the block. -/
  | reset
deriving DecidableEq, Repr

/-- Why the machine stops. -/
inductive Fault where
  /-- An index outside a space. Raised by a host move that names such an index (the spec gives the index ranges,
  20_memory.md R50, and no behaviour outside them) and by the guards of `ENC_DATA`, `ENC_STATUS`, `RT_GET` and `RT_LIST`,
  which no state that meets the invariant reaches (20_memory.md R59). Safe: the machine stops (log 6). -/
  | outsideSpace (sp : Space)
  /-- A host read of `CMD`, which cannot be read (10_state.md R21, R40). Raised by `RD CMD`. Safe: the machine stops
  (log 7). -/
  | cmdNotReadable
deriving DecidableEq, Repr

/-- Why an instruction is refused. -/
inductive Refusal where
  /-- The instruction has no meaning yet. Raised by no arm of `exec`: every command is modelled. Safe. -/
  | notModelled (mnemonic : String)
deriving DecidableEq, Repr

/-- The state of the block (10_state.md R20), its parameters (log 1), and the model's own fields `fill` (log 3),
`moves` (log 2) and `reply` (log 5). -/
structure State where
  params : Params
  a0     : Word
  a1     : Word
  a2     : Word
  a3     : Word
  r0     : Word
  r1     : Word
  r2     : Word
  r3     : Word
  r4     : Word
  r5     : Word
  status : Status
  ibuf   : Memory Byte
  obuf   : Memory Byte
  ntab   : Memory NackEntry
  gout   : Memory GapPair
  ctxs   : List Ctx
  fill   : Nat
  moves  : List HostMove
  reply  : Option (List HostValue)
deriving DecidableEq, Repr

/-- What one step answers. -/
abbrev Out := Host.Outcome State Fault Refusal

/-- The state after reset of a block built with the parameters `p` (10_state.md R41). The model's own fields `fill`,
`moves` and `reply` start at 0, empty and none: DESIGN CHOICE (log 2, log 3, log 5). -/
def State.resetWith (p : Params) : State :=
  { params := p
    a0 := 0, a1 := 0, a2 := 0, a3 := 0
    r0 := 0, r1 := 0, r2 := 0, r3 := 0, r4 := 0, r5 := 0
    status := .ok
    ibuf := [], obuf := [], ntab := [], gout := []
    ctxs := List.replicate p.nCtx Ctx.fresh
    fill := 0
    moves := []
    reply := none }

/-- The machine right after reset (10_state.md R41), built with the parameters of the test vectors: DESIGN CHOICE
(log 1). -/
def State.reset : State := State.resetWith Params.vectors

end Sys2Proof.Machine
end

