-- ==== Sys2Proof/Machine/Ops.lean ====
section
/-!
DEFINITION. The named operations over memory and registers, and the one way a command fails.

Reading and writing the sparse spaces (20_memory.md R50, R58, R60), the accessors of the block's buffers, tables and
contexts, and the error entry `raise` with its counterpart `finish` (00_scope.md R15, 60_exceptions.md R200, R218).
-/

namespace Sys2Proof.Machine

/-! ### Spaces -/

/-- The value written last at index `a`, if one has been. -/
def Memory.find? {α : Type} : Memory α → Nat → Option α
  | [], _ => none
  | (b, v) :: m, a => if a = b then some v else Memory.find? m a

/-- Write `v` at index `a`, keeping the indices strictly rising. -/
def Memory.set {α : Type} : Memory α → Nat → α → Memory α
  | [], a, v => [(a, v)]
  | (b, w) :: m, a, v =>
    if a < b then (a, v) :: (b, w) :: m
    else if a = b then (a, v) :: m
    else (b, w) :: Memory.set m a v

/-- `MemWrite(S, a, n, vs)`: the values of a list at the indices from `a` upward, lowest first (00_scope.md R14). -/
def Memory.setList {α : Type} (m : Memory α) (a : Nat) : List α → Memory α
  | [] => m
  | v :: vs => Memory.setList (Memory.set m a v) (a + 1) vs

/-- Every listed index is above `lo`, below `size`, and the indices rise strictly. -/
def Memory.risingFrom {α : Type} (size : Nat) : Nat → Memory α → Bool
  | _, [] => true
  | lo, (a, _) :: m => decide (lo ≤ a) && decide (a < size) && Memory.risingFrom size (a + 1) m

/-- The canonical form of a space of `size` places: indices strictly rising, all inside the space. No entry can equal
what an unlisted index reads as, since an unlisted index has no specified value (log 3). -/
def Memory.wf {α : Type} (size : Nat) (m : Memory α) : Bool := Memory.risingFrom size 0 m

/-! ### Buffers and tables -/

/-- The entry whose two-word register image is `i`, word 0 first (10_state.md R30). -/
def NackEntry.ofImage (i : BitVec 64) : NackEntry :=
  { nackSn := i.extractLsb 49 32
    e2 := i.getLsbD 50
    e3 := i.getLsbD 51
    range := i.extractLsb 59 52
    soStart := i.extractLsb 31 16
    soEnd := i.extractLsb 15 0 }

/-- The pair whose register image is `w` (10_state.md R31). -/
def GapPair.ofImage (w : Word) : GapPair := { start := w.extractLsb 31 16, stop := w.extractLsb 15 0 }

/-- `IBUF[a]`; any value where nothing has been written since reset (20_memory.md R60, log 3). -/
def State.ibufByte (s : State) (a : Nat) : Byte := (s.ibuf.find? a).getD (Config.freeIbuf s.fill a)

/-- `OBUF[a]`; any value where nothing has been written since reset (20_memory.md R60, log 3). -/
def State.obufByte (s : State) (a : Nat) : Byte := (s.obuf.find? a).getD (Config.freeObuf s.fill a)

/-- `NTAB[i]`; any value where nothing has been written since reset (20_memory.md R60, log 3). -/
def State.ntabEntry (s : State) (i : Nat) : NackEntry :=
  (s.ntab.find? i).getD (NackEntry.ofImage (Config.freeNtab s.fill i))

/-- `GOUT[i]`; any value where nothing has been written since reset (20_memory.md R60, log 3). -/
def State.goutPair (s : State) (i : Nat) : GapPair :=
  (s.gout.find? i).getD (GapPair.ofImage (Config.freeGout s.fill i))

/-- The entries `NTAB[i], …` , `n` of them from index `i`. -/
def State.ntabFrom (s : State) : Nat → Nat → List NackEntry
  | _, 0 => []
  | i, n + 1 => s.ntabEntry i :: s.ntabFrom (i + 1) n

/-- `MemWrite(OBUF, 0, …)`: every command that writes `OBUF` writes it from address 0 (10_state.md R29). -/
def State.writeObuf (s : State) (bs : List Byte) : State := { s with obuf := s.obuf.setList 0 bs }

/-- `NTAB[0 .. n-1] <- ts` (43_status_pdu_codec.md R184). -/
def State.writeNtab (s : State) (ts : List NackEntry) : State := { s with ntab := s.ntab.setList 0 ts }

/-- `GOUT[0 .. n-1] <- gs` (41_reassembly_tracker.md R124). -/
def State.writeGout (s : State) (gs : List GapPair) : State := { s with gout := s.gout.setList 0 gs }

/-! ### Contexts -/

/-- Context `c` (10_state.md R32). Past the end of the list, which no state that meets the invariant has below `N_CTX`,
it reads as fresh (log 9). -/
def State.ctx (s : State) (c : Nat) : Ctx := s.ctxs.getD c Ctx.fresh

/-- Context `c` replaced. -/
def State.setCtx (s : State) (c : Nat) (x : Ctx) : State := { s with ctxs := s.ctxs.set c x }

/-- Context `c` returned to its initial value (10_state.md R35). -/
def State.freshen (s : State) (c : Nat) : State := s.setCtx c Ctx.fresh

/-- `data[c][p]`; any value where no accepted segment has written it (10_state.md R36, 93 U10, log 4). -/
def State.dataByte (s : State) (c p : Nat) : Byte := ((s.ctx c).data.find? p).getD (Config.freeData s.fill c p)

/-- `data[c][p .. p+n-1]`. -/
def State.dataFrom (s : State) (c : Nat) : Nat → Nat → List Byte
  | _, 0 => []
  | p, n + 1 => s.dataByte c p :: s.dataFrom c (p + 1) n

/-! ### How a command ends -/

/-- `raise E_X`: the command ends with an error; nothing changes but `STATUS` (00_scope.md R15, 60_exceptions.md R218). -/
def raise (e : Status) (s : State) : Out := .next { s with status := e }

/-- A command that ends without an error: `STATUS <- OK` (00_scope.md R15). After either ending the block takes the next
command (60_exceptions.md R219): there is nothing to return from. -/
def finish (s : State) : Out := .next { s with status := .ok }

/-- `R[i] <- n`: results fit 32 bits and are zero-extended (10_state.md R23). -/
def result (n : Nat) : Word := BitVec.ofNat 32 n

/-- A yes or no answer as a number: 1 or 0. -/
def yesNo (b : Bool) : Nat := if b then 1 else 0

end Sys2Proof.Machine
end

