-- ==== Sys2Proof/Machine/Operands.lean ====
section
/-!
DEFINITION. The operand forms: the SN width a command selects (30_encoding.md R74, R77), the four data-header families
and the two status-PDU widths, and the fields of PDU bytes (00_scope.md R12, 20_memory.md R52).
-/

namespace Sys2Proof.Machine

/-! ### SN widths -/

/-- The SN width `k` that `KSEL` selects, none for the reserved value (30_encoding.md R74). -/
def snBits : KSel → Option Nat
  | .k6 => some 6
  | .k12 => some 12
  | .k18 => some 18
  | .reserved => none

/-- The four families of data-PDU headers (42_data_pdu_codec.md R140). -/
inductive DataFormat where
  | um6 | um12 | am12 | am18
deriving DecidableEq, Repr

/-- The legal pairs of `MODE` and `k` for the data commands (30_encoding.md R77). -/
def dataFormat : Mode → KSel → Option DataFormat
  | .um, .k6 => some .um6
  | .um, .k12 => some .um12
  | .am, .k12 => some .am12
  | .am, .k18 => some .am18
  | .um, .k18 => none
  | .am, .k6 => none
  | .um, .reserved => none
  | .am, .reserved => none

/-- The SN width of a header family. -/
def DataFormat.snBits : DataFormat → Nat
  | .um6 => 6
  | .um12 => 12
  | .am12 => 12
  | .am18 => 18

/-- The family is an AM one. -/
def DataFormat.isAm : DataFormat → Bool
  | .um6 => false
  | .um12 => false
  | .am12 => true
  | .am18 => true

/-- The two widths of status PDUs (43_status_pdu_codec.md R170). -/
inductive StatusFormat where
  | sn12 | sn18
deriving DecidableEq, Repr

/-- The legal `k` of the status commands (30_encoding.md R77). -/
def statusFormat : KSel → Option StatusFormat
  | .k6 => none
  | .k12 => some .sn12
  | .k18 => some .sn18
  | .reserved => none

/-- The SN width of a status PDU. -/
def StatusFormat.snBits : StatusFormat → Nat
  | .sn12 => 12
  | .sn18 => 18

/-! ### Bytes and fields -/

/-- `be16(b0, b1)` as a 16-bit value (00_scope.md R12). -/
def be16 (b0 b1 : Byte) : BitVec 16 := b0 ++ b1

/-- The two bytes of a 16-bit field, most significant first (20_memory.md R52). -/
def bytes16 (v : BitVec 16) : List Byte := [v.extractLsb 15 8, v.extractLsb 7 0]

/-- One bit as a bit string. -/
def bit (b : Bool) : BitVec 1 := BitVec.ofBool b

end Sys2Proof.Machine
end

