-- ==== Sys2Proof/Machine/DataCodec.lean ====
section
/-!
DEFINITION. The data-PDU header codec (42_data_pdu_codec.md): `ENC_DATA` and `DEC_DATA`, with the layouts of R144 to R146
as the spec transcribes them (log 12).
-/

namespace Sys2Proof.Machine

/-! ### What a header carries -/

/-- The header carries the SN (42_data_pdu_codec.md R142): all but a UM Whole one. -/
def carriesSn (f : DataFormat) (si : SegInfo) : Bool := f.isAm || si != .whole

/-- The header carries the segment offset (42_data_pdu_codec.md R142): Last and Middle. -/
def carriesSo (si : SegInfo) : Bool := si == .last || si == .middle

/-- `hdrLen` (42_data_pdu_codec.md R143). -/
def hdrLen : DataFormat → SegInfo → Nat
  | .um6, .whole => 1
  | .um6, .first => 1
  | .um6, .last => 3
  | .um6, .middle => 3
  | .um12, .whole => 1
  | .um12, .first => 2
  | .um12, .last => 4
  | .um12, .middle => 4
  | .am12, .whole => 2
  | .am12, .first => 2
  | .am12, .last => 4
  | .am12, .middle => 4
  | .am18, .whole => 3
  | .am18, .first => 3
  | .am18, .last => 5
  | .am18, .middle => 5

/-! ### ENC_DATA -/

/-- The part of a header before the segment offset (42_data_pdu_codec.md R144, R145, R146, R148); reserved bits are 0. -/
def headerStart (f : DataFormat) (si : SegInfo) (poll : Bool) (sn : Word) : List Byte :=
  match f with
  | .um6 => if si = .whole then [si.code ++ 0#6] else [si.code ++ sn.extractLsb 5 0]
  | .um12 => if si = .whole then [si.code ++ 0#6] else [si.code ++ 0#2 ++ sn.extractLsb 11 8, sn.extractLsb 7 0]
  | .am12 => [1#1 ++ bit poll ++ si.code ++ sn.extractLsb 11 8, sn.extractLsb 7 0]
  | .am18 =>
    [1#1 ++ bit poll ++ si.code ++ 0#2 ++ sn.extractLsb 17 16, sn.extractLsb 15 8, sn.extractLsb 7 0]

/-- The header bytes, first byte first (42_data_pdu_codec.md R148). -/
def headerBytes (f : DataFormat) (si : SegInfo) (poll : Bool) (sn so : Word) : List Byte :=
  headerStart f si poll sn ++ (if carriesSo si then bytes16 (so.extractLsb 15 0) else [])

/-- `ENC_DATA`: build a data-PDU header (42_data_pdu_codec.md R148). The guard on `OBUF` is never taken with parameters
that meet their constraints (20_memory.md R59). -/
def execEncData (poll : Bool) (si : SegInfo) (mode : Mode) (ksel : KSel) (s : State) : Out :=
  match dataFormat mode ksel with
  | none => raise .eBadSnbits s
  | some f =>
    if 2 ^ f.snBits ≤ s.a0.toNat ∨ 2 ^ 16 ≤ s.a1.toNat ∨ (mode = .um ∧ poll = true) then raise .eBadArg s
    else if s.params.obufBytes < hdrLen f si then .fault (.outsideSpace .obuf)
    else finish { s.writeObuf (headerBytes f si poll s.a0 s.a1) with r0 := result (hdrLen f si) }

/-! ### DEC_DATA -/

/-- The segmentation state in byte 0 (42_data_pdu_codec.md R152). -/
def headerSi (f : DataFormat) (b0 : Byte) : SegInfo :=
  if f.isAm then SegInfo.ofCode (b0.extractLsb 5 4) else SegInfo.ofCode (b0.extractLsb 7 6)

/-- The poll bit in byte 0, 0 in UM (42_data_pdu_codec.md R152). -/
def headerPoll (f : DataFormat) (b0 : Byte) : Bool := f.isAm && b0.getLsbD 6

/-- The SN of a header, 0 where the header carries none; reserved bits are ignored (42_data_pdu_codec.md R152). -/
def headerSn (f : DataFormat) (si : SegInfo) (b0 b1 b2 : Byte) : Word :=
  if carriesSn f si then
    match f with
    | .um6 => (b0.extractLsb 5 0).setWidth 32
    | .um12 => (b0.extractLsb 3 0 ++ b1).setWidth 32
    | .am12 => (b0.extractLsb 3 0 ++ b1).setWidth 32
    | .am18 => (b0.extractLsb 1 0 ++ b1 ++ b2).setWidth 32
  else 0

/-- The segment offset of a header, its last two bytes, 0 where it carries none (42_data_pdu_codec.md R152). -/
def headerSo (s : State) (f : DataFormat) (si : SegInfo) : Word :=
  if carriesSo si then (be16 (s.ibufByte (hdrLen f si - 2)) (s.ibufByte (hdrLen f si - 1))).setWidth 32 else 0

/-- `DEC_DATA`: parse a data-PDU header (42_data_pdu_codec.md R152). -/
def execDecData (mode : Mode) (ksel : KSel) (s : State) : Out :=
  match dataFormat mode ksel with
  | none => raise .eBadSnbits s
  | some f =>
    let pduLen := s.a0.toNat
    let b0 := s.ibufByte 0
    let si := headerSi f b0
    if s.params.ibufBytes < pduLen then raise .eBufRange s
    else if pduLen = 0 then raise .eShortPdu s
    else if f.isAm && !b0.getLsbD 7 then raise .eNotData s
    else if pduLen < hdrLen f si then raise .eShortPdu s
    else finish { s with
      r0 := si.code.setWidth 32
      r1 := result (yesNo (headerPoll f b0))
      r2 := headerSn f si b0 (s.ibufByte 1) (s.ibufByte 2)
      r3 := headerSo s f si
      r4 := result (hdrLen f si)
      r5 := result (pduLen - hdrLen f si) }

end Sys2Proof.Machine
end

