-- ==== Sys2Proof/Machine/SnSpace.lean ====
section
/-!
DEFINITION. The sequence-number family (40_sn_space.md): `SN_ADD`, `SN_DIST`, `SN_CMP`, `SN_INWIN`.

Arithmetic is over unbounded naturals; operands are whole registers and are rejected, never reduced, when they are out of
range (R92, R97).
-/

namespace Sys2Proof.Machine

/-- `dist(ref, x) = (x + M - ref) mod M` (40_sn_space.md R91). -/
def snDistance (m ref x : Nat) : Nat := (x + m - ref) % m

/-- The check every command of the family makes first: the ring size `M = 2^k`, or `E_BAD_SNBITS` for the reserved
selector (40_sn_space.md R90, R92). -/
def withRing (ksel : KSel) (s : State) (body : Nat → Out) : Out :=
  match snBits ksel with
  | none => raise .eBadSnbits s
  | some k => body (2 ^ k)

/-- `SN_ADD`: advance an SN by a number of steps (40_sn_space.md R93). -/
def execSnAdd (ksel : KSel) (s : State) : Out :=
  withRing ksel s fun m =>
    if m ≤ s.a0.toNat ∨ m ≤ s.a1.toNat then raise .eBadArg s
    else finish { s with r0 := result ((s.a0.toNat + s.a1.toNat) % m) }

/-- `SN_DIST`: reference-relative distance (40_sn_space.md R94). -/
def execSnDist (ksel : KSel) (s : State) : Out :=
  withRing ksel s fun m =>
    if m ≤ s.a0.toNat ∨ m ≤ s.a1.toNat then raise .eBadArg s
    else finish { s with r0 := result (snDistance m s.a0.toNat s.a1.toNat) }

/-- The answer of `SN_CMP` from the two distances (40_sn_space.md R95). -/
def compareCode (da db : Nat) : Nat := if da = db then 0 else if da < db then 1 else 2

/-- `SN_CMP`: order two SNs as seen from a reference (40_sn_space.md R95). -/
def execSnCmp (ksel : KSel) (s : State) : Out :=
  withRing ksel s fun m =>
    if m ≤ s.a0.toNat ∨ m ≤ s.a1.toNat ∨ m ≤ s.a2.toNat then raise .eBadArg s
    else finish { s with
      r0 := result (compareCode (snDistance m s.a0.toNat s.a1.toNat) (snDistance m s.a0.toNat s.a2.toNat)) }

/-- `SN_INWIN`: window membership test (40_sn_space.md R96). -/
def execSnInwin (ksel : KSel) (s : State) : Out :=
  withRing ksel s fun m =>
    if m ≤ s.a0.toNat ∨ m ≤ s.a1.toNat ∨ m / 2 < s.a2.toNat then raise .eBadArg s
    else finish { s with r0 := result (yesNo (decide (snDistance m s.a0.toNat s.a1.toNat < s.a2.toNat))) }

end Sys2Proof.Machine
end

