-- ==== Sys2Proof/Machine/StatusCodec.lean ====
section
/-!
DEFINITION. The status-PDU codec (43_status_pdu_codec.md): `ENC_STATUS` under a byte budget and `DEC_STATUS`, with the
layouts of R172 and R173 as the spec transcribes them (log 12).
-/

namespace Sys2Proof.Machine

/-! ### Sizes (43_status_pdu_codec.md R174) -/

/-- The bytes of an entry's fixed part. -/
def StatusFormat.base : StatusFormat → Nat
  | .sn12 => 2
  | .sn18 => 3

/-- The bytes of the PDU's fixed part. -/
def fixedPart : Nat := 3

/-- `esize(k, e2, e3)`. -/
def esize (f : StatusFormat) (t : NackEntry) : Nat := f.base + 4 * yesNo t.e2 + yesNo t.e3

/-- The bytes a list of entries occupies. -/
def entriesSize (f : StatusFormat) : List NackEntry → Nat
  | [] => 0
  | t :: ts => esize f t + entriesSize f ts

/-! ### ENC_STATUS (43_status_pdu_codec.md R178) -/

/-- An entry the encoder rejects: its SN is not on the ring, or it carries a range of zero (43 R178, R182). -/
def badEntry (f : StatusFormat) (t : NackEntry) : Bool :=
  decide (2 ^ f.snBits ≤ t.nackSn.toNat) || (t.e3 && t.range == 0#8)

/-- The entries that fit: taken in order while the next one still fits the budget (43 R179). -/
def takeFitting (f : StatusFormat) (budget : Nat) : Nat → List NackEntry → List NackEntry
  | _, [] => []
  | used, t :: ts =>
    if used + esize f t ≤ budget then t :: takeFitting f budget (used + esize f t) ts else []

/-- The ACK SN written: the host's when every entry is emitted, else the SN of the first entry left out (43 R180). -/
def ackOut (ack : Word) (leftOut : List NackEntry) : Word :=
  match leftOut with
  | [] => ack
  | t :: _ => t.nackSn.setWidth 32

/-- The fixed part (43 R172, R173): `D/C` 0, `CPT` 000, `ACK_SN`, `E1`; reserved bits 0. -/
def fixedBytes (f : StatusFormat) (ack : Word) (e1 : Bool) : List Byte :=
  match f with
  | .sn12 => [0#4 ++ ack.extractLsb 11 8, ack.extractLsb 7 0, bit e1 ++ 0#7]
  | .sn18 => [0#4 ++ ack.extractLsb 17 14, ack.extractLsb 13 6, ack.extractLsb 5 0 ++ bit e1 ++ 0#1]

/-- The `NACK_SN` part of an entry with its three extension bits (43 R172, R173); reserved bits 0. -/
def entryStart (f : StatusFormat) (e1 : Bool) (t : NackEntry) : List Byte :=
  match f with
  | .sn12 => [t.nackSn.extractLsb 11 4, t.nackSn.extractLsb 3 0 ++ bit e1 ++ bit t.e2 ++ bit t.e3 ++ 0#1]
  | .sn18 =>
    [t.nackSn.extractLsb 17 10, t.nackSn.extractLsb 9 2,
     t.nackSn.extractLsb 1 0 ++ bit e1 ++ bit t.e2 ++ bit t.e3 ++ 0#3]

/-- The bytes of one entry: `SOstart` and `SOend` only if `E2`, then `NACK range` only if `E3`, all verbatim (43 R172, R173,
R177). -/
def entryBytes (f : StatusFormat) (e1 : Bool) (t : NackEntry) : List Byte :=
  entryStart f e1 t ++ (if t.e2 then bytes16 t.soStart ++ bytes16 t.soEnd else []) ++ (if t.e3 then [t.range] else [])

/-- The bytes of the emitted entries; the `E1` of an entry says whether another follows (43 R175). -/
def entriesBytes (f : StatusFormat) : List NackEntry → List Byte
  | [] => []
  | t :: ts => entryBytes f (!ts.isEmpty) t ++ entriesBytes f ts

/-- The whole status PDU (43 R178). -/
def statusBytes (f : StatusFormat) (ack : Word) (ts : List NackEntry) : List Byte :=
  fixedBytes f ack (!ts.isEmpty) ++ entriesBytes f ts

/-- `ENC_STATUS`: build a status PDU within a byte budget (43_status_pdu_codec.md R178). The guard on `OBUF` is never taken
with parameters that meet their constraints (20_memory.md R59). -/
def execEncStatus (ksel : KSel) (s : State) : Out :=
  match statusFormat ksel with
  | none => raise .eBadSnbits s
  | some f =>
    let cnt := s.a1.toNat
    let budget := s.a2.toNat
    if 2 ^ f.snBits ≤ s.a0.toNat ∨ s.params.nNack < cnt then raise .eBadArg s
    else
      let entries := s.ntabFrom 0 cnt
      let emitted := takeFitting f budget fixedPart entries
      let left := entries.drop emitted.length
      let ack := ackOut s.a0 left
      let used := fixedPart + entriesSize f emitted
      if entries.any (badEntry f) then raise .eBadArg s
      else if budget < fixedPart then raise .eBudget s
      else if s.params.obufBytes < used then .fault (.outsideSpace .obuf)
      else finish { s.writeObuf (statusBytes f ack emitted) with
        r0 := result used
        r1 := result emitted.length
        r2 := ack
        r3 := result (yesNo (!left.isEmpty)) }

/-! ### DEC_STATUS (43_status_pdu_codec.md R184) -/

/-- The ACK SN of the fixed part. -/
def fixedAck (f : StatusFormat) (b0 b1 b2 : Byte) : Word :=
  match f with
  | .sn12 => (b0.extractLsb 3 0 ++ b1).setWidth 32
  | .sn18 => (b0.extractLsb 3 0 ++ b1 ++ b2.extractLsb 7 2).setWidth 32

/-- The `E1` of the fixed part. -/
def fixedE1 (f : StatusFormat) (b2 : Byte) : Bool :=
  match f with
  | .sn12 => b2.getLsbD 7
  | .sn18 => b2.getLsbD 1

/-- The SN, `E1`, `E2` and `E3` of the entry at `pos`; reserved bits are ignored. -/
def entryHead (s : State) (f : StatusFormat) (pos : Nat) : BitVec 18 × Bool × Bool × Bool :=
  let b0 := s.ibufByte pos
  let b1 := s.ibufByte (pos + 1)
  let b2 := s.ibufByte (pos + 2)
  match f with
  | .sn12 => ((b0 ++ b1.extractLsb 7 4).setWidth 18, b1.getLsbD 3, b1.getLsbD 2, b1.getLsbD 1)
  | .sn18 => (b0 ++ b1 ++ b2.extractLsb 7 6, b2.getLsbD 5, b2.getLsbD 4, b2.getLsbD 3)

/-- One pass of the loop of R184: the entry at `pos` with its `E1` and the position after it, or `E_SHORT_PDU` where the
PDU ends before a field the entry announces. A field the entry does not carry comes back as 0. -/
def readEntry (s : State) (f : StatusFormat) (pduLen pos : Nat) : Except Status (NackEntry × Bool × Nat) :=
  if pduLen < pos + f.base then .error .eShortPdu
  else
    let (nsn, e1, e2, e3) := entryHead s f pos
    let p1 := pos + f.base
    let p2 := p1 + 4 * yesNo e2
    let p3 := p2 + yesNo e3
    if e2 && decide (pduLen < p2) then .error .eShortPdu
    else if e3 && decide (pduLen < p3) then .error .eShortPdu
    else .ok ({ nackSn := nsn
                e2 := e2
                e3 := e3
                soStart := if e2 then be16 (s.ibufByte p1) (s.ibufByte (p1 + 1)) else 0
                soEnd := if e2 then be16 (s.ibufByte (p1 + 2)) (s.ibufByte (p1 + 3)) else 0
                range := if e3 then s.ibufByte p2 else 0 }, e1, p3)

/-- The loop of R184: while `E1` announces an entry, read it; `room` entries of `NTAB` are left. The answer is the entries
in order and the position after the last. -/
def readEntries (s : State) (f : StatusFormat) (pduLen : Nat) : Nat → Nat → Bool → Except Status (List NackEntry × Nat)
  | _, pos, false => .ok ([], pos)
  | 0, _, true => .error .eNackOvf
  | room + 1, pos, true =>
    match readEntry s f pduLen pos with
    | .error e => .error e
    | .ok (t, e1, next) =>
      match readEntries s f pduLen room next e1 with
      | .error e => .error e
      | .ok (ts, last) => .ok (t :: ts, last)

/-- `DEC_STATUS`: parse a status PDU (43_status_pdu_codec.md R184). -/
def execDecStatus (ksel : KSel) (s : State) : Out :=
  match statusFormat ksel with
  | none => raise .eBadSnbits s
  | some f =>
    let pduLen := s.a0.toNat
    let b0 := s.ibufByte 0
    let b1 := s.ibufByte 1
    let b2 := s.ibufByte 2
    if s.params.ibufBytes < pduLen then raise .eBufRange s
    else if pduLen = 0 then raise .eShortPdu s
    else if b0.getLsbD 7 then raise .eNotStatus s
    else if b0.extractLsb 6 4 ≠ 0b000#3 then raise .eBadCpt s
    else if pduLen < fixedPart then raise .eShortPdu s
    else
      match readEntries s f pduLen s.params.nNack fixedPart (fixedE1 f b2) with
      | .error e => raise e s
      | .ok (ts, pos) =>
        finish { s.writeNtab ts with
          r0 := fixedAck f b0 b1 b2
          r1 := result ts.length
          r2 := result pos }

end Sys2Proof.Machine
end

