-- ==== Sys2Proof/Machine/Tracker.lean ====
section
/-!
DEFINITION. The reassembly gap tracker (41_reassembly_tracker.md): the gap algebra of R112 and the commands `RT_SEG`,
`RT_GET`, `RT_DROP`, `RT_MISS`, `RT_LIST`.

Offsets, lengths and ends are naturals, computed without wrap; `END_UNKNOWN` counts as 65535 (10_state.md R33).
-/

namespace Sys2Proof.Machine

/-! ### Gap algebra (41_reassembly_tracker.md R112) -/

/-- The number of bytes a gap and a segment `[o, e)` share: `hi - lo`, zero when they do not overlap. -/
def Gap.overlap (g : Gap) (o e : Nat) : Nat := min g.stop e - max g.start o

/-- What is left of a gap after `[o, e)` is taken out of it: the piece before the segment and the piece after it, each
only if it is not empty. -/
def Gap.cut (g : Gap) (o e : Nat) : List Gap :=
  (if g.start < o then [⟨g.start, o⟩] else []) ++ (if e < g.stop then [⟨e, g.stop⟩] else [])

/-- Position `p` lies in some gap of the list. -/
def inGaps (gs : List Gap) (p : Nat) : Bool := gs.any fun g => decide (g.start ≤ p) && decide (p < g.stop)

/-- The loop of R114 on the list: a gap the segment does not overlap stays, one it overlaps is cut. -/
def remaining (o e : Nat) : List Gap → List Gap
  | [] => []
  | g :: gs => (if g.overlap o e = 0 then [g] else g.cut o e) ++ remaining o e gs

/-- The loop of R114 on `new`: the bytes of `[o, e)` that lie in gaps. -/
def newlyFilled (o e : Nat) : List Gap → Nat
  | [] => 0
  | g :: gs => g.overlap o e + newlyFilled o e gs

/-- The gap is the open one (10_state.md R33). -/
def Gap.isOpen (g : Gap) : Bool := g.stop == Config.endUnknown

/-- The list with the gap whose end is `END_UNKNOWN` removed. -/
def closeEnd (gs : List Gap) : List Gap := gs.filter fun g => !g.isOpen

/-! ### RT_SEG (41_reassembly_tracker.md R114) -/

/-- The segment is the context's first last-flagged one: it fixes the SDU's length. -/
def Ctx.fixesLength (x : Ctx) (last : Bool) : Bool := last && !x.lastSeen

/-- The segment ending at `e` contradicts what the context knows of the SDU's length (41 R114, 60_exceptions.md R214).
The open gap exists whenever `lastSeen = 0` by 10_state.md R36 (I3). -/
def Ctx.conflicts (x : Ctx) (last : Bool) (e : Nat) : Bool :=
  if x.lastSeen then (if last then e != x.totLen else decide (x.totLen < e))
  else last && x.gaps.any fun g => g.isOpen && decide (e < g.start)

/-- The gap list `G` a segment `[o, e)` leaves. -/
def Ctx.gapsAfter (x : Ctx) (last : Bool) (o e : Nat) : List Gap :=
  if x.fixesLength last then closeEnd (remaining o e x.gaps) else remaining o e x.gaps

/-- The first `n` bytes of a segment with offset `o` stored from `IBUF[src]`: a position in a gap takes the new byte, a
position in no gap keeps the byte it has (41 R114). -/
def State.storeSegment (s : State) (gs : List Gap) (o src : Nat) : Nat → Memory Byte → Memory Byte
  | 0, d => d
  | n + 1, d =>
    if inGaps gs (o + n) then (s.storeSegment gs o src n d).set (o + n) (s.ibufByte (src + n))
    else s.storeSegment gs o src n d

/-- The context after it accepts the segment of `n` bytes at offset `o`, read from `IBUF[src]` (41 R114). -/
def State.accept (s : State) (x : Ctx) (last : Bool) (o n src : Nat) : Ctx :=
  { gaps := x.gapsAfter last o (o + n)
    lastSeen := x.lastSeen || last
    totLen := if x.fixesLength last then o + n else x.totLen
    segCnt := if 0 < newlyFilled o (o + n) x.gaps then x.segCnt + 1 else x.segCnt
    byteCnt := x.byteCnt + newlyFilled o (o + n) x.gaps
    data := s.storeSegment x.gaps o src n x.data }

/-- `RT_SEG`: offer one received segment to a context (41_reassembly_tracker.md R114). -/
def execRtSeg (c : Nat) (last : Bool) (s : State) : Out :=
  let o := s.a0.toNat
  let n := s.a1.toNat
  let src := s.a2.toNat
  let x := s.ctx c
  if s.params.nCtx ≤ c then raise .eBadCtx s
  else if n = 0 then raise .eBadArg s
  else if s.params.ibufBytes < src + n then raise .eBufRange s
  else if Config.maxSdu < o + n then raise .eSegRange s
  else if x.conflicts last (o + n) then raise .eSegInconsistent s
  else if s.params.maxGaps < (x.gapsAfter last o (o + n)).length then raise .eGapFull s
  else finish { s.setCtx c (s.accept x last o n src) with
    r0 := result (n - newlyFilled o (o + n) x.gaps)
    r1 := result (yesNo (x.gapsAfter last o (o + n)).isEmpty) }

/-! ### The other tracker commands -/

/-- `RT_GET`: read out a complete SDU and release the context (41_reassembly_tracker.md R118). The guard on `OBUF` is
never taken from a state that meets the invariant (20_memory.md R59). -/
def execRtGet (c : Nat) (s : State) : Out :=
  let x := s.ctx c
  if s.params.nCtx ≤ c then raise .eBadCtx s
  else if x.gaps ≠ [] then raise .eNotComplete s
  else if s.params.obufBytes < x.totLen then .fault (.outsideSpace .obuf)
  else finish { (s.writeObuf (s.dataFrom c 0 x.totLen)).freshen c with r0 := result x.totLen }

/-- `RT_DROP`: discard a context and report what was lost (41_reassembly_tracker.md R120). -/
def execRtDrop (c : Nat) (s : State) : Out :=
  let x := s.ctx c
  if s.params.nCtx ≤ c then raise .eBadCtx s
  else finish { s.freshen c with r0 := result x.segCnt, r1 := result x.byteCnt }

/-- `RT_MISS`: does the context still miss bytes (41_reassembly_tracker.md R122)? -/
def execRtMiss (c : Nat) (s : State) : Out :=
  if s.params.nCtx ≤ c then raise .eBadCtx s
  else finish { s with r0 := result (yesNo (!(s.ctx c).gaps.isEmpty)) }

/-- A gap as `GOUT` reports it: the pair (start, end), the open gap with end `0xFFFF` (41_reassembly_tracker.md R124). -/
def Gap.pair (g : Gap) : GapPair := { start := BitVec.ofNat 16 g.start, stop := BitVec.ofNat 16 g.stop }

/-- `RT_LIST`: list the missing byte ranges (41_reassembly_tracker.md R124). The guard on `GOUT` is never taken from a
state that meets the invariant (20_memory.md R59). -/
def execRtList (c : Nat) (s : State) : Out :=
  let gs := (s.ctx c).gaps
  if s.params.nCtx ≤ c then raise .eBadCtx s
  else if s.params.maxGaps < gs.length then .fault (.outsideSpace .gout)
  else finish { s.writeGout (gs.map Gap.pair) with r0 := result gs.length }

end Sys2Proof.Machine
end

