-- ==== Sys2Proof/Machine/Dispatch.lean ====
section
/-!
DEFINITION. Every command sent to its meaning, one arm per row of spec/opcode_table.json.
-/

namespace Sys2Proof.Machine

def exec (i : Instr) (s : State) : Host.Outcome State Fault Refusal :=
  match i with
  | .snAdd ksel => Sys2Proof.Machine.execSnAdd ksel s
  | .snDist ksel => Sys2Proof.Machine.execSnDist ksel s
  | .snCmp ksel => Sys2Proof.Machine.execSnCmp ksel s
  | .snInwin ksel => Sys2Proof.Machine.execSnInwin ksel s
  | .rtSeg ctx last => Sys2Proof.Machine.execRtSeg ctx last s
  | .rtGet ctx => Sys2Proof.Machine.execRtGet ctx s
  | .rtDrop ctx => Sys2Proof.Machine.execRtDrop ctx s
  | .rtMiss ctx => Sys2Proof.Machine.execRtMiss ctx s
  | .rtList ctx => Sys2Proof.Machine.execRtList ctx s
  | .encData poll si mode ksel => Sys2Proof.Machine.execEncData poll si mode ksel s
  | .decData mode ksel => Sys2Proof.Machine.execDecData mode ksel s
  | .encStatus ksel => Sys2Proof.Machine.execEncStatus ksel s
  | .decStatus ksel => Sys2Proof.Machine.execDecStatus ksel s

end Sys2Proof.Machine
end

