-- ==== Sys2Proof/Machine/Flags.lean ====
section
/-!
DEFINITION. The block has no flags and no condition codes (10_state.md R27): the outcome of a command is `STATUS` and the
result registers. This file holds what the host sees of them: the status codes (60_exceptions.md R201), `CAP` (10_state.md
R25) and the register images of the table entries (10_state.md R30, R31).
-/

namespace Sys2Proof.Machine

/-- The codes of 60_exceptions.md R201. -/
def Status.code : Status → Byte
  | .ok => 0x00#8
  | .eIllegal => 0x01#8
  | .eBadSnbits => 0x02#8
  | .eBadCtx => 0x03#8
  | .eBadArg => 0x04#8
  | .eBufRange => 0x05#8
  | .eShortPdu => 0x06#8
  | .eNotData => 0x07#8
  | .eNotStatus => 0x08#8
  | .eBadCpt => 0x09#8
  | .eNackOvf => 0x0A#8
  | .eBudget => 0x0B#8
  | .eSegRange => 0x0C#8
  | .eSegInconsistent => 0x0D#8
  | .eGapFull => 0x0E#8
  | .eNotComplete => 0x0F#8

/-- `STATUS` as the host reads it: bits 31:8 are zero (10_state.md R24). -/
def State.statusWord (s : State) : Word := s.status.code.setWidth 32

/-- `CAP` (10_state.md R25): `N_CTX` in 7:0, `MAX_GAPS` in 15:8, `N_NACK` in 23:16, zero above. -/
def State.capWord (s : State) : Word :=
  0#8 ++ BitVec.ofNat 8 s.params.nNack ++ BitVec.ofNat 8 s.params.maxGaps ++ BitVec.ofNat 8 s.params.nCtx

/-- Word 0 of an `NTAB` entry's register image (10_state.md R30). -/
def NackEntry.word0 (t : NackEntry) : Word :=
  0#4 ++ t.range ++ BitVec.ofBool t.e3 ++ BitVec.ofBool t.e2 ++ t.nackSn

/-- Word 1 of an `NTAB` entry's register image (10_state.md R30). -/
def NackEntry.word1 (t : NackEntry) : Word := t.soStart ++ t.soEnd

/-- The register image of a `GOUT` entry (10_state.md R31). -/
def GapPair.image (g : GapPair) : Word := g.start ++ g.stop

end Sys2Proof.Machine
end

