-- ==== Sys2Proof/Machine/Moves.lean ====
section
/-!
DEFINITION. What each host move does to the block (10_state.md R40, 30_encoding.md R82, 70_reset_and_hazards.md R230).
-/

namespace Sys2Proof.Machine

/-! ### Registers as the host names them -/

/-- An argument register's value (10_state.md R22). -/
def State.arg (s : State) : ArgReg → Word
  | .a0 => s.a0
  | .a1 => s.a1
  | .a2 => s.a2
  | .a3 => s.a3

/-- An argument register written (10_state.md R22). -/
def State.setArg (s : State) (i : ArgReg) (v : Word) : State :=
  match i with
  | .a0 => { s with a0 := v }
  | .a1 => { s with a1 := v }
  | .a2 => { s with a2 := v }
  | .a3 => { s with a3 := v }

/-- A result register's value (10_state.md R23). -/
def State.res (s : State) : ResReg → Word
  | .r0 => s.r0
  | .r1 => s.r1
  | .r2 => s.r2
  | .r3 => s.r3
  | .r4 => s.r4
  | .r5 => s.r5

/-- The space a read-only place with an index lies outside of, if it does (20_memory.md R50). -/
def ReadOnlyLoc.outside (p : Params) : ReadOnlyLoc → Option Space
  | .res _ => none
  | .status => none
  | .cap => none
  | .obuf a => if a < p.obufBytes then none else some .obuf
  | .gout i => if i < p.maxGaps then none else some .gout

/-- What the host reads (10_state.md R40): registers, bytes and whole table entries. `CMD` cannot be read. -/
def State.hostRead (s : State) : Loc → Except Fault HostValue
  | .arg i => .ok (.word (s.arg i))
  | .res i => .ok (.word (s.res i))
  | .status => .ok (.word s.statusWord)
  | .cap => .ok (.word s.capWord)
  | .ibuf a => if a < s.params.ibufBytes then .ok (.byte (s.ibufByte a)) else .error (.outsideSpace .ibuf)
  | .obuf a => if a < s.params.obufBytes then .ok (.byte (s.obufByte a)) else .error (.outsideSpace .obuf)
  | .ntab i => if i < s.params.nNack then .ok (.nack (s.ntabEntry i)) else .error (.outsideSpace .ntab)
  | .gout i => if i < s.params.maxGaps then .ok (.pair (s.goutPair i)) else .error (.outsideSpace .gout)
  | .cmd => .error .cmdNotReadable

/-- The place at an index of a space. -/
def Space.place : Space → Nat → Loc
  | .ibuf, a => .ibuf a
  | .obuf, a => .obuf a
  | .ntab, i => .ntab i
  | .gout, i => .gout i

/-- The places an item of an `RD` line names, in ascending order (30_encoding.md R82). A range that ends below its start
names none (log 2). -/
def ReadItem.places : ReadItem → List Loc
  | .place l => [l]
  | .range sp first last => (List.range (last + 1 - first)).map fun j => sp.place (first + j)

/-- What the host reads at each of several places, in their order; the first one that cannot be read stops the machine. -/
def State.hostReads (s : State) : List Loc → Except Fault (List HostValue)
  | [] => .ok []
  | l :: ls =>
    match s.hostRead l with
    | .error f => .error f
    | .ok v =>
      match s.hostReads ls with
      | .error f => .error f
      | .ok vs => .ok (v :: vs)

/-! ### The moves -/

/-- A word written to `CMD` (10_state.md R21): the command it encodes is executed; a word that matches no row raises
`E_ILLEGAL` (30_encoding.md R78). -/
def command (w : Word) (s : State) : Out :=
  match decode w with
  | .ok i => exec i s
  | .error _ => raise .eIllegal s

/-- The state after a reset at any time (10_state.md R41, 70_reset_and_hazards.md R230, R232, R233): the parameters stay,
the buffers hold contents that are unspecified afresh (log 3), and the host's remaining moves and last reply are the
host's, not the block's. -/
def State.afterReset (s : State) : State :=
  { State.resetWith s.params with fill := s.fill + 1, moves := s.moves, reply := s.reply }

/-- One host move. A host write to a place it may only read is ignored (10_state.md R40); an index outside a space stops
the machine (log 6). -/
def hostMove (m : HostMove) (s : State) : Out :=
  match m with
  | .wr i v => .next (s.setArg i v)
  | .wrb a bs =>
    if a + bs.length ≤ s.params.ibufBytes then .next { s with ibuf := s.ibuf.setList a bs }
    else .fault (.outsideSpace .ibuf)
  | .wrn i e =>
    if i < s.params.nNack then .next { s with ntab := s.ntab.set i e } else .fault (.outsideSpace .ntab)
  | .writeIgnored l _ =>
    match l.outside s.params with
    | none => .next s
    | some sp => .fault (.outsideSpace sp)
  | .cmd w => command w s
  | .rd items =>
    match s.hostReads (items.flatMap ReadItem.places) with
    | .ok vs => .next { s with reply := some vs }
    | .error f => .fault f
  | .reset => .next s.afterReset

/-- The next step: the oldest of the host's moves, or nothing when it has none left (70_reset_and_hazards.md R231, R249:
the block executes nothing until the host writes `CMD`, and has no halted state of its own). -/
def hostStep (s : State) : Out :=
  match s.moves with
  | [] => .next s
  | m :: rest => hostMove m { s with moves := rest }

/-- The host writes the command word next, before its other moves. -/
def State.withCommand (s : State) (w : Word) : State := { s with moves := .cmd w :: s.moves }

/-! ### Pseudo-commands (30_encoding.md R83) -/

/-- `SN_INC k`: the next SN on the ring. -/
def snInc (ksel : KSel) : List HostMove := [.wr .a1 1, .cmd (encode (.snAdd ksel))]

/-- `SN_INWIN_AM k`: the window test with half the ring as window; none for the reserved selector, which has no ring. -/
def snInwinAm (ksel : KSel) : List HostMove :=
  match ksel with
  | .k6 => [.wr .a2 (BitVec.ofNat 32 (2 ^ 5)), .cmd (encode (.snInwin .k6))]
  | .k12 => [.wr .a2 (BitVec.ofNat 32 (2 ^ 11)), .cmd (encode (.snInwin .k12))]
  | .k18 => [.wr .a2 (BitVec.ofNat 32 (2 ^ 17)), .cmd (encode (.snInwin .k18))]
  | .reserved => []

/-- `RT_RESET ctx`: return a context to fresh, results ignored. -/
def rtReset (ctx : Nat) : List HostMove := [.cmd (encode (.rtDrop ctx))]

end Sys2Proof.Machine
end

