-- ==== Sys2Proof/Machine/Step.lean ====
section
/-!
DEFINITION. One step of the machine: one host move (log 2). There is no program counter and nothing is fetched
(10_state.md R26): a command arrives when the host writes it to `CMD`.
-/

namespace Sys2Proof.Machine

/-- One step: the host's next move. -/
def step (s : State) : Host.Outcome State Fault Refusal := hostStep s

/-- The state in which the very next step executes the command word `w`: the host writes it to `CMD` (log 2). -/
def State.withFetchWord (s : State) (nbits w : Nat) : State := s.withCommand (tableWord nbits w)

end Sys2Proof.Machine
end

