-- ==== Sys2Proof/Safety.lean ====
section
/-!
DEFINITION. The invariants of the block: the context invariants of 10_state.md R36, the parameter constraints of
00_scope.md R8, and the form of the spaces (20_memory.md R50, R59). They are theorems about the rules, not run-time checks
(60_exceptions.md R222, 93_implementation_defined.md U19).
-/

namespace Sys2Proof.Machine

/-! ### Contexts (10_state.md R36) -/

/-- `hi` of (I5): the open gap's start while the length is unknown, the SDU's length afterwards. -/
def Ctx.high (x : Ctx) : Nat :=
  if x.lastSeen then x.totLen
  else match x.gaps.find? Gap.isOpen with
    | some g => g.start
    | none => 0

/-- Position `p` has been received: below `hi` and in no gap (I5). -/
def Ctx.received (x : Ctx) (p : Nat) : Bool := decide (p < x.high) && !inGaps x.gaps p

/-- The gap list's own invariants (I1) to (I4) and (I7). -/
structure Ctx.GapInv (maxGaps : Nat) (x : Ctx) : Prop where
  /-- (I1) -/
  nonempty : ∀ g ∈ x.gaps, g.start < g.stop
  /-- (I2): each gap ends below the start of every later one. -/
  separated : x.gaps.Pairwise fun g h => g.stop < h.start
  /-- (I3), first half: the length is unknown exactly when the last gap is the open one. -/
  openLast : x.lastSeen = false ↔ ∃ g, x.gaps.getLast? = some g ∧ g.isOpen = true
  /-- (I3), second half: no other gap is open. -/
  openOnce : ∀ g ∈ x.gaps.dropLast, g.isOpen = false
  /-- (I4): starts and finite ends are at most 9000. -/
  bounded : ∀ g ∈ x.gaps, g.start ≤ Config.maxSdu ∧ (g.isOpen = false → g.stop ≤ Config.maxSdu)
  /-- (I4): once the length is known it is 1 to 9000 and no gap ends beyond it. -/
  lengthKnown : x.lastSeen = true →
    1 ≤ x.totLen ∧ x.totLen ≤ Config.maxSdu ∧ ∀ g ∈ x.gaps, g.stop ≤ x.totLen
  /-- (I7) -/
  capacity : x.gaps.length ≤ maxGaps

/-- The byte account's invariants (I5) and (I6), and what ties the two counters and the unset length together. -/
structure Ctx.ByteInv (x : Ctx) : Prop where
  /-- (I5): `byteCnt` is the number of positions received. -/
  counted : x.byteCnt = ((List.range x.high).filter x.received).length
  /-- (I5): a byte is stored exactly at the positions received. -/
  stored : ∀ p, (x.data.find? p).isSome = x.received p
  /-- The bytes lie in `data[c]`, in canonical form. -/
  dataForm : x.data.wf Config.maxSdu = true
  /-- (I6) -/
  countersAgree : x.byteCnt = 0 ↔ x.segCnt = 0
  /-- (I6) -/
  emptyIsFresh : x.byteCnt = 0 ↔ x = Ctx.fresh
  /-- Every counted segment filled a byte, so `segCnt` fits its 16 bits. -/
  segmentsBounded : x.segCnt ≤ x.byteCnt
  /-- The length stays at its fresh value until it is known. -/
  lengthUnset : x.lastSeen = false → x.totLen = 0

/-! ### The whole state -/

/-- Every buffer and table is in canonical form and inside its space (20_memory.md R50). -/
structure State.SpacesOk (s : State) : Prop where
  ibuf : s.ibuf.wf s.params.ibufBytes = true
  obuf : s.obuf.wf s.params.obufBytes = true
  ntab : s.ntab.wf s.params.nNack = true
  gout : s.gout.wf s.params.maxGaps = true

/-- Legal parameters, all `N_CTX` contexts present, and every context's gap list as 10_state.md R36 says. -/
structure State.GapsOk (s : State) : Prop where
  params : s.params.ok = true
  ctxCount : s.ctxs.length = s.params.nCtx
  gaps : ∀ x ∈ s.ctxs, x.GapInv s.params.maxGaps

/-- Every context's byte account as 10_state.md R36 says. -/
def State.BytesOk (s : State) : Prop := ∀ x ∈ s.ctxs, x.ByteInv

/-- The invariant of the machine. -/
structure State.Inv (s : State) : Prop where
  spaces : s.SpacesOk
  gaps : s.GapsOk
  bytes : s.BytesOk

/-! ### Reference forms the claims are stated in -/

/-- The code of a segmentation state as a number (00_scope.md R17). -/
def siNumber : SegInfo → Nat
  | .whole => 0
  | .first => 1
  | .last => 2
  | .middle => 3

/-- The byte formulas of 42_data_pdu_codec.md R148, in numbers: UM `k` = 6, UM `k` = 12, AM `k` = 12, AM `k` = 18, then the
segment offset for Last and Middle. -/
def headerFormula (f : DataFormat) (si : SegInfo) (p sn so : Nat) : List Nat :=
  (match f with
    | .um6 => if si = .whole then [0] else [siNumber si * 64 + sn]
    | .um12 => if si = .whole then [0] else [siNumber si * 64 + sn / 256, sn % 256]
    | .am12 => [128 + p * 64 + siNumber si * 16 + sn / 256, sn % 256]
    | .am18 => [128 + p * 64 + siNumber si * 16 + sn / 65536, sn / 256 % 256, sn % 256]) ++
  (if si = .last ∨ si = .middle then [so / 256, so % 256] else [])

/-- The bits of byte `i` of a header that are not reserved (42_data_pdu_codec.md R144, R145, R146). -/
def headerMask (f : DataFormat) (si : SegInfo) (i : Nat) : Byte :=
  if i ≠ 0 then 0xFF#8
  else match f with
    | .um6 => if si = .whole then 0xC0#8 else 0xFF#8
    | .um12 => if si = .whole then 0xC0#8 else 0xCF#8
    | .am12 => 0xFF#8
    | .am18 => 0xF3#8

/-- The bytes of one NACK entry in numbers (43_status_pdu_codec.md R172, R173): `NACK_SN` and the extension bits, then
`SOstart` and `SOend` if `E2`, then `NACK range` if `E3`. -/
def entryFormula (f : StatusFormat) (e1 : Nat) (t : NackEntry) : List Nat :=
  (match f with
    | .sn12 =>
      [t.nackSn.toNat / 16, t.nackSn.toNat % 16 * 16 + e1 * 8 + yesNo t.e2 * 4 + yesNo t.e3 * 2]
    | .sn18 =>
      [t.nackSn.toNat / 1024, t.nackSn.toNat / 4 % 256,
       t.nackSn.toNat % 4 * 64 + e1 * 32 + yesNo t.e2 * 16 + yesNo t.e3 * 8]) ++
  (if t.e2 then [t.soStart.toNat / 256, t.soStart.toNat % 256, t.soEnd.toNat / 256, t.soEnd.toNat % 256] else []) ++
  (if t.e3 then [t.range.toNat] else [])

/-- The fixed part of a status PDU in numbers (43_status_pdu_codec.md R172, R173). -/
def fixedFormula (f : StatusFormat) (ack e1 : Nat) : List Nat :=
  match f with
  | .sn12 => [ack / 256, ack % 256, e1 * 128]
  | .sn18 => [ack / 16384, ack / 64 % 256, ack % 64 * 4 + e1 * 2]

/-- The bytes of all entries in numbers, with the `E1` chain of 43_status_pdu_codec.md R175. -/
def entriesFormula (f : StatusFormat) : List NackEntry → List Nat
  | [] => []
  | [t] => entryFormula f 0 t
  | t :: u :: ts => entryFormula f 1 t ++ entriesFormula f (u :: ts)

/-- The bytes in numbers of entries that each announce another one (`E1` = 1, 43_status_pdu_codec.md R175). -/
def chainFormula (f : StatusFormat) : List NackEntry → List Nat
  | [] => []
  | t :: ts => entryFormula f 1 t ++ chainFormula f ts

/-- The place of `E1` in the last byte of an entry's fixed part (43_status_pdu_codec.md R172, R173). -/
def e1Mask : StatusFormat → Byte
  | .sn12 => 0x08#8
  | .sn18 => 0x20#8

/-- The bits of an entry's bytes that are not reserved (43_status_pdu_codec.md R172, R173). -/
def entryMask (f : StatusFormat) (t : NackEntry) : List Byte :=
  (match f with
    | .sn12 => [0xFF#8, 0xFE#8]
    | .sn18 => [0xFF#8, 0xFF#8, 0xF8#8]) ++
  List.replicate (4 * yesNo t.e2 + yesNo t.e3) 0xFF#8

/-- The bits of a status PDU's bytes that are not reserved (43_status_pdu_codec.md R172, R173). -/
def statusMask (f : StatusFormat) (ts : List NackEntry) : List Byte :=
  (match f with
    | .sn12 => [0xFF#8, 0xFF#8, 0x80#8]
    | .sn18 => [0xFF#8, 0xFF#8, 0xFE#8]) ++
  ts.flatMap (entryMask f)

/-- `IBUF` holds these numbers from address 0 in the bits of the masks; its other bits, the reserved ones, hold anything
(43_status_pdu_codec.md R184 (c), 93_implementation_defined.md U6). -/
def State.ibufHolds (s : State) (vs : List Nat) (masks : List Byte) : Prop :=
  ∀ j v m, vs[j]? = some v → masks[j]? = some m → (s.ibufByte j &&& m).toNat = v

/-- An entry with the fields it does not carry set to 0 (43_status_pdu_codec.md R184 (d), R185). -/
def NackEntry.carried (t : NackEntry) : NackEntry :=
  { t with
    soStart := if t.e2 then t.soStart else 0
    soEnd := if t.e2 then t.soEnd else 0
    range := if t.e3 then t.range else 0 }

/-- A segment contradicts what the context knows of the SDU's length: the three cases of 60_exceptions.md R214. -/
def Contradicts (x : Ctx) (last : Bool) (e : Nat) : Prop :=
  (x.lastSeen = true ∧ last = true ∧ e ≠ x.totLen) ∨
  (x.lastSeen = true ∧ last = false ∧ x.totLen < e) ∨
  (x.lastSeen = false ∧ last = true ∧ ∃ g ∈ x.gaps, g.stop = 65535 ∧ e < g.start)

/-- The number of positions of `[o, o+n)` that lie in a gap of the list: 41_reassembly_tracker.md R115's `new`. -/
def newPositions (gs : List Gap) (o n : Nat) : Nat :=
  ((List.range n).filter fun j => inGaps gs (o + j)).length

/-! ### What the host may touch (10_state.md R40) -/

/-- What the host reads at each place it may read: registers as whole words, `STATUS` with bits 31:8 zero, `CAP`, bytes and
whole entries inside their space (10_state.md R22 to R25, R28 to R31). `CMD` is no such place. -/
inductive State.Reads (s : State) : Loc → HostValue → Prop where
  | a0 : s.Reads (.arg .a0) (.word s.a0)
  | a1 : s.Reads (.arg .a1) (.word s.a1)
  | a2 : s.Reads (.arg .a2) (.word s.a2)
  | a3 : s.Reads (.arg .a3) (.word s.a3)
  | r0 : s.Reads (.res .r0) (.word s.r0)
  | r1 : s.Reads (.res .r1) (.word s.r1)
  | r2 : s.Reads (.res .r2) (.word s.r2)
  | r3 : s.Reads (.res .r3) (.word s.r3)
  | r4 : s.Reads (.res .r4) (.word s.r4)
  | r5 : s.Reads (.res .r5) (.word s.r5)
  | status : s.Reads .status (.word (s.status.code.setWidth 32))
  | cap : s.Reads .cap (.word s.capWord)
  | ibuf {a : Nat} (h : a < s.params.ibufBytes) : s.Reads (.ibuf a) (.byte (s.ibufByte a))
  | obuf {a : Nat} (h : a < s.params.obufBytes) : s.Reads (.obuf a) (.byte (s.obufByte a))
  | ntab {i : Nat} (h : i < s.params.nNack) : s.Reads (.ntab i) (.nack (s.ntabEntry i))
  | gout {i : Nat} (h : i < s.params.maxGaps) : s.Reads (.gout i) (.pair (s.goutPair i))

/-- What the host reads for an item of an `RD` line: the one value of a place, or the values of a range from its first index
to its last, both included (30_encoding.md R82). -/
inductive State.ReadsItem (s : State) : ReadItem → List HostValue → Prop where
  | place {l : Loc} {v : HostValue} (h : s.Reads l v) : s.ReadsItem (.place l) [v]
  | ibuf {first n : Nat} (h : first + n < s.params.ibufBytes) :
    s.ReadsItem (.range .ibuf first (first + n)) ((List.range (n + 1)).map fun j => .byte (s.ibufByte (first + j)))
  | obuf {first n : Nat} (h : first + n < s.params.obufBytes) :
    s.ReadsItem (.range .obuf first (first + n)) ((List.range (n + 1)).map fun j => .byte (s.obufByte (first + j)))
  | ntab {first n : Nat} (h : first + n < s.params.nNack) :
    s.ReadsItem (.range .ntab first (first + n)) ((List.range (n + 1)).map fun j => .nack (s.ntabEntry (first + j)))
  | gout {first n : Nat} (h : first + n < s.params.maxGaps) :
    s.ReadsItem (.range .gout first (first + n)) ((List.range (n + 1)).map fun j => .pair (s.goutPair (first + j)))

/-- The places a host write to which is ignored (10_state.md R40, 93_implementation_defined.md U11), inside their
space. -/
def State.hasReadOnly (s : State) : ReadOnlyLoc → Prop
  | .res _ => True
  | .status => True
  | .cap => True
  | .obuf a => a < s.params.obufBytes
  | .gout i => i < s.params.maxGaps

/-! ### Offering segments (41_reassembly_tracker.md R125 (b)) -/

/-- The operands of one `RT_SEG`: offset, length, source address, and the `LAST` field. -/
structure Offer where
  off  : Word
  len  : Word
  src  : Word
  last : Bool
deriving DecidableEq, Repr

/-- The segments offered to context `c` one after the other, whether accepted or not. -/
def offerMany (c : Nat) : List Offer → State → Option State
  | [], s => some s
  | f :: fs, s =>
    match exec (.rtSeg c f.last) { s with a0 := f.off, a1 := f.len, a2 := f.src } with
    | .next t => offerMany c fs t
    | .fault _ => none
    | .refused _ => none

/-! ### Offering the slices of one SDU (41_reassembly_tracker.md R125 (c)) -/

/-- A slice of an SDU: its offset and its length. -/
structure Slice where
  off : Nat
  len : Nat
deriving DecidableEq, Repr

/-- The bytes `f o, …, f (o+n-1)`. -/
def sliceBytes (f : Nat → Byte) (o : Nat) : Nat → List Byte
  | 0 => []
  | n + 1 => f o :: sliceBytes f (o + 1) n

/-- The host writes a slice of the SDU with bytes `f` and length `len` to `IBUF` and the argument registers, and offers it
to context `c`, last-flagged exactly when it ends the SDU. -/
def offerSlice (c : Nat) (f : Nat → Byte) (len : Nat) (sl : Slice) (s : State) : Out :=
  exec (.rtSeg c (decide (sl.off + sl.len = len)))
    { s with
      ibuf := s.ibuf.setList 0 (sliceBytes f sl.off sl.len)
      a0 := result sl.off
      a1 := result sl.len
      a2 := 0 }

/-- The slices offered one after the other, as long as none ends with `E_GAP_FULL`. -/
def offerAll (c : Nat) (f : Nat → Byte) (len : Nat) : List Slice → State → Option State
  | [], s => some s
  | sl :: rest, s =>
    match offerSlice c f len sl s with
    | .next t => if t.status = .eGapFull then none else offerAll c f len rest t
    | .fault _ => none
    | .refused _ => none

end Sys2Proof.Machine
end

