-- ==== Sys2Proof/Certificates/Slice0/Obligations.lean ====
section
/-!
DEFINITION. The statements for the provers. Each docstring names the rule of spec/ it formalises.
-/

open Sys2Proof Sys2Proof.Machine

/-! ### The command word (30_encoding.md) -/

/-- Every command that has a word decodes from it, whatever its fields (30_encoding.md R71, R72, R79). -/
def Obligations.DecodeOfEncode : Prop :=
  ∀ i : Instr, WellFormed i = true → decode (encode i) = .ok i

/-- A word that decodes is the word of the command it decodes to: no bit of it is dropped (30_encoding.md R73, R79). -/
def Obligations.EncodeOfDecode : Prop :=
  ∀ (w : Word) (i : Instr), decode w = .ok i → WellFormed i = true ∧ encode i = w

/-- Every word matches exactly one row and decodes to that row's command, or matches none and is rejected
(30_encoding.md R72, R79). -/
def Obligations.EveryWordHasOneReading : Prop :=
  ∀ w : Word,
    (∃ r : Opcode, w &&& r.mask = r.pattern ∧ (∀ r' : Opcode, w &&& r'.mask = r'.pattern → r' = r) ∧
      decode w = .ok (r.command w)) ∨
    ((∀ r : Opcode, w &&& r.mask ≠ r.pattern) ∧ ∃ e, decode w = .error e)

/-- Words written out from the encodings of 30_encoding.md R72 decode to the commands they stand for, and words the spec
calls illegal do not decode (95_test_vectors.md V60-3). -/
def Obligations.WrittenWordsDecode : Prop :=
  decode 0x12000001#32 = .ok (.snCmp .k12) ∧
  decode 0x20FF0040#32 = .ok (.rtSeg 255 true) ∧
  decode 0x3000003E#32 = .ok (.encData true .middle .am .k18) ∧
  decode 0x41000005#32 = .ok (.decStatus .k12) ∧
  decode 0x20000080#32 = .error .unusedFieldSet ∧
  decode 0x40000001#32 = .error .statusModeZero ∧
  decode 0x25000000#32 = .error .unassignedOp

/-- A step whose next host move writes a command word runs the command the word decodes to, on the state with that move
taken (10_state.md R21); and the very next step after `withFetchWord` runs the word it was given. -/
def Obligations.StepRunsTheDecodedCommand : Prop :=
  (∀ (s : State) (w : Word) (rest : List HostMove) (i : Instr),
    s.moves = .cmd w :: rest → decode w = .ok i → step s = exec i { s with moves := rest }) ∧
  (∀ (s : State) (nbits w : Nat) (i : Instr),
    decodeTableWord nbits w = some i → step (s.withFetchWord nbits w) = exec i s)

/-- A command word that matches no row raises `E_ILLEGAL` and changes nothing else; words with an `OP` other than the
thirteen, words of a listed `OP` with a bit set that the row wants zero, and status commands with `MODE` 0 match no row
(60_exceptions.md R202, 30_encoding.md R78). -/
def Obligations.IllegalWordsRaise : Prop :=
  (∀ (s : State) (w : Word) (rest : List HostMove), s.moves = .cmd w :: rest →
    (∀ r : Opcode, w &&& r.mask ≠ r.pattern) → step s = .next { s with moves := rest, status := .eIllegal }) ∧
  Status.eIllegal.code = 0x01#8 ∧
  (∀ w : Word, (∀ r : Opcode, w.extractLsb 31 24 ≠ r.op) → ∀ r : Opcode, w &&& r.mask ≠ r.pattern) ∧
  (∀ (w : Word) (r : Opcode), w.extractLsb 31 24 = r.op → w &&& r.mask &&& ~~~r.pattern ≠ 0#32 →
    ∀ r' : Opcode, w &&& r'.mask ≠ r'.pattern) ∧
  (∀ w : Word, w.extractLsb 31 24 = 0x40#8 ∨ w.extractLsb 31 24 = 0x41#8 → w.getLsbD 2 = false →
    ∀ r : Opcode, w &&& r.mask ≠ r.pattern)

/-! ### Sequence numbers (40_sn_space.md) -/

/-- `SN_ADD` (40_sn_space.md R93): the errors in order, and the sum on the ring in `R0` with nothing else changed but
`STATUS`. -/
def Obligations.SnAddAdvancesOnTheRing : Prop :=
  ∀ s : State,
    exec (.snAdd .reserved) s = .next { s with status := .eBadSnbits } ∧
    ∀ (k : KSel) (m : Nat), (k, m) ∈ [(KSel.k6, 64), (KSel.k12, 4096), (KSel.k18, 262144)] →
      ((m ≤ s.a0.toNat ∨ m ≤ s.a1.toNat) → exec (.snAdd k) s = .next { s with status := .eBadArg }) ∧
      (s.a0.toNat < m → s.a1.toNat < m →
        ∃ v : Word, v.toNat = (s.a0.toNat + s.a1.toNat) % m ∧
          exec (.snAdd k) s = .next { s with r0 := v, status := .ok })

/-- `SN_DIST` (40_sn_space.md R94): the errors in order, and the reference-relative distance in `R0`. -/
def Obligations.SnDistMeasuresFromTheReference : Prop :=
  ∀ s : State,
    exec (.snDist .reserved) s = .next { s with status := .eBadSnbits } ∧
    ∀ (k : KSel) (m : Nat), (k, m) ∈ [(KSel.k6, 64), (KSel.k12, 4096), (KSel.k18, 262144)] →
      ((m ≤ s.a0.toNat ∨ m ≤ s.a1.toNat) → exec (.snDist k) s = .next { s with status := .eBadArg }) ∧
      (s.a0.toNat < m → s.a1.toNat < m →
        ∃ v : Word, v.toNat = (s.a1.toNat + m - s.a0.toNat) % m ∧
          exec (.snDist k) s = .next { s with r0 := v, status := .ok })

/-- `SN_CMP` (40_sn_space.md R95): the errors in order, and 0, 1 or 2 in `R0` as the two distances compare. -/
def Obligations.SnCmpOrdersByDistance : Prop :=
  ∀ s : State,
    exec (.snCmp .reserved) s = .next { s with status := .eBadSnbits } ∧
    ∀ (k : KSel) (m : Nat), (k, m) ∈ [(KSel.k6, 64), (KSel.k12, 4096), (KSel.k18, 262144)] →
      ((m ≤ s.a0.toNat ∨ m ≤ s.a1.toNat ∨ m ≤ s.a2.toNat) →
        exec (.snCmp k) s = .next { s with status := .eBadArg }) ∧
      (s.a0.toNat < m → s.a1.toNat < m → s.a2.toNat < m →
        ∃ (da db : Nat) (v : Word), da = (s.a1.toNat + m - s.a0.toNat) % m ∧
          db = (s.a2.toNat + m - s.a0.toNat) % m ∧
          (da = db → v.toNat = 0) ∧ (da < db → v.toNat = 1) ∧ (db < da → v.toNat = 2) ∧
          exec (.snCmp k) s = .next { s with r0 := v, status := .ok })

/-- `SN_INWIN` (40_sn_space.md R96): the errors in order, and 1 or 0 in `R0` as the distance is below the window size. -/
def Obligations.SnInwinTestsTheWindow : Prop :=
  ∀ s : State,
    exec (.snInwin .reserved) s = .next { s with status := .eBadSnbits } ∧
    ∀ (k : KSel) (m : Nat), (k, m) ∈ [(KSel.k6, 64), (KSel.k12, 4096), (KSel.k18, 262144)] →
      ((m ≤ s.a0.toNat ∨ m ≤ s.a1.toNat ∨ m / 2 < s.a2.toNat) →
        exec (.snInwin k) s = .next { s with status := .eBadArg }) ∧
      (s.a0.toNat < m → s.a1.toNat < m → s.a2.toNat ≤ m / 2 →
        ∃ v : Word, ((s.a1.toNat + m - s.a0.toNat) % m < s.a2.toNat → v.toNat = 1) ∧
          (s.a2.toNat ≤ (s.a1.toNat + m - s.a0.toNat) % m → v.toNat = 0) ∧
          exec (.snInwin k) s = .next { s with r0 := v, status := .ok })

/-- The laws of the distance on every ring: it is 0 at the reference, addition undoes it and is undone by it, the two
distances between two SNs make a full turn, and it does not change when both are rotated (40_sn_space.md R98 (a) to
(d)). -/
def Obligations.RingDistanceLaws : Prop :=
  ∀ k ref x d t : Nat, ref < 2 ^ k → x < 2 ^ k → d < 2 ^ k → t < 2 ^ k →
    snDistance (2 ^ k) ref ref = 0 ∧
    snDistance (2 ^ k) ref ((ref + d) % 2 ^ k) = d ∧
    (ref + snDistance (2 ^ k) ref x) % 2 ^ k = x ∧
    (x ≠ ref → snDistance (2 ^ k) ref x + snDistance (2 ^ k) x ref = 2 ^ k) ∧
    snDistance (2 ^ k) ((ref + t) % 2 ^ k) ((x + t) % 2 ^ k) = snDistance (2 ^ k) ref x

/-- Half-ring windows partition the ring: an SN is in the window of half the ring from `ref`, or in the one from the
opposite reference, never in both; and `SN_CMP` answers 1 for two SNs exactly when it answers 2 for them swapped, 0
exactly for equal ones (40_sn_space.md R98 (e), (f)). -/
def Obligations.WindowAndOrderLaws : Prop :=
  ∀ (s : State) (k : KSel) (m : Nat), (k, m) ∈ [(KSel.k6, 64), (KSel.k12, 4096), (KSel.k18, 262144)] →
    s.a0.toNat < m → s.a1.toNat < m →
    (s.a2.toNat = m / 2 →
      ∃ t u : State, exec (.snInwin k) s = .next t ∧
        exec (.snInwin k) { s with a0 := BitVec.ofNat 32 ((s.a0.toNat + m / 2) % m) } = .next u ∧
        t.status = .ok ∧ u.status = .ok ∧ t.r0.toNat + u.r0.toNat = 1) ∧
    (s.a2.toNat < m →
      ∃ t u : State, exec (.snCmp k) s = .next t ∧
        exec (.snCmp k) { s with a1 := s.a2, a2 := s.a1 } = .next u ∧
        t.status = .ok ∧ u.status = .ok ∧ (t.r0 = 1 ↔ u.r0 = 2) ∧ (t.r0 = 0 ↔ s.a1 = s.a2))

/-! ### Errors, in general (60_exceptions.md) -/

/-- A width outside the command's legal set raises `E_BAD_SNBITS` (60_exceptions.md R203). -/
def Obligations.BadWidthsRaise : Prop :=
  Status.eBadSnbits.code = 0x02#8 ∧
  ∀ (s : State) (i : Instr) (poll : Bool) (si : SegInfo),
    i ∈ [.snAdd .reserved, .snDist .reserved, .snCmp .reserved, .snInwin .reserved,
      .encData poll si .um .k18, .encData poll si .um .reserved, .encData poll si .am .k6,
      .encData poll si .am .reserved, .decData .um .k18, .decData .um .reserved, .decData .am .k6,
      .decData .am .reserved, .encStatus .k6, .encStatus .reserved, .decStatus .k6, .decStatus .reserved] →
    exec i s = .next { s with status := .eBadSnbits }

/-- A context index the block does not have raises `E_BAD_CTX` in every tracker command (60_exceptions.md R204). -/
def Obligations.BadContextsRaise : Prop :=
  Status.eBadCtx.code = 0x03#8 ∧
  ∀ (s : State) (c : Nat) (last : Bool) (i : Instr), s.params.nCtx ≤ c →
    i ∈ [.rtSeg c last, .rtGet c, .rtDrop c, .rtMiss c, .rtList c] →
    exec i s = .next { s with status := .eBadCtx }

/-- An error changes `STATUS` and nothing else, whatever the command or the word written to `CMD` (60_exceptions.md
R218). -/
def Obligations.ErrorsChangeOnlyStatus : Prop :=
  (∀ (i : Instr) (s t : State), exec i s = .next t → t.status ≠ .ok → t = { s with status := t.status }) ∧
  (∀ (w : Word) (s t : State), command w s = .next t → t.status ≠ .ok → t = { s with status := t.status })

/-- No command writes an argument register, `IBUF`, the parameters, or what is the host's (10_state.md R22, R25, R28,
R40). -/
def Obligations.CommandsLeaveInputsAlone : Prop :=
  ∀ (i : Instr) (s t : State), exec i s = .next t →
    t.a0 = s.a0 ∧ t.a1 = s.a1 ∧ t.a2 = s.a2 ∧ t.a3 = s.a3 ∧ t.ibuf = s.ibuf ∧ t.params = s.params ∧
    t.fill = s.fill ∧ t.moves = s.moves ∧ t.reply = s.reply

/-- A result register, `OBUF`, `NTAB` and `GOUT` change only under the commands that 30_encoding.md R81 lists as writing
them (10_state.md R23, R29, R30, R31). -/
def Obligations.OutputsChangeOnlyWhereListed : Prop :=
  ∀ (i : Instr) (s t : State), exec i s = .next t →
    (i.opcode ∉ [.rtSeg, .rtDrop, .decData, .encStatus, .decStatus] → t.r1 = s.r1) ∧
    (i.opcode ∉ [.decData, .encStatus, .decStatus] → t.r2 = s.r2) ∧
    (i.opcode ∉ [.decData, .encStatus] → t.r3 = s.r3) ∧
    (i.opcode ∉ [.decData] → t.r4 = s.r4 ∧ t.r5 = s.r5) ∧
    (i.opcode ∉ [.encData, .encStatus, .rtGet] → t.obuf = s.obuf) ∧
    (i.opcode ∉ [.decStatus] → t.ntab = s.ntab) ∧
    (i.opcode ∉ [.rtList] → t.gout = s.gout) ∧
    (i.opcode ∉ [.rtSeg, .rtGet, .rtDrop] → t.ctxs = s.ctxs)

/-- A tracker command touches no context but the one it names (41_reassembly_tracker.md R110, R125 (b)). -/
def Obligations.OtherContextsUntouched : Prop :=
  ∀ (s t : State) (c d : Nat) (last : Bool) (i : Instr), d ≠ c →
    i ∈ [.rtSeg c last, .rtGet c, .rtDrop c, .rtMiss c, .rtList c] →
    exec i s = .next t → t.ctx d = s.ctx d

/-- `STATUS` and `A3` are read by no command (10_state.md R22, R24): with other values there, every command does the
same. -/
def Obligations.StatusAndSpareAreNeverRead : Prop :=
  ∀ (i : Instr) (s t : State) (e : Status) (v : Word),
    exec i { s with status := e } = exec i s ∧
    (exec i s = .next t → exec i { s with a3 := v } = .next { t with a3 := v })

/-- The SN and codec commands neither read nor write the reassembly contexts (10_state.md R37). -/
def Obligations.CodecsIgnoreContexts : Prop :=
  ∀ (i : Instr) (s t : State) (xs : List Ctx),
    i.opcode ∉ [.rtSeg, .rtGet, .rtDrop, .rtMiss, .rtList] →
    exec i s = .next t → exec i { s with ctxs := xs } = .next { t with ctxs := xs }

/-! ### The tracker (41_reassembly_tracker.md) -/

/-- The errors of `RT_SEG` in the order tested, each changing `STATUS` alone (41_reassembly_tracker.md R114). -/
def Obligations.RtSegErrorsInOrder : Prop :=
  ∀ (s : State) (c : Nat) (last : Bool),
    (c < s.params.nCtx → s.a1.toNat = 0 → exec (.rtSeg c last) s = .next { s with status := .eBadArg }) ∧
    (c < s.params.nCtx → s.a1.toNat ≠ 0 → s.params.ibufBytes < s.a2.toNat + s.a1.toNat →
      exec (.rtSeg c last) s = .next { s with status := .eBufRange }) ∧
    (c < s.params.nCtx → s.a1.toNat ≠ 0 → s.a2.toNat + s.a1.toNat ≤ s.params.ibufBytes →
      9000 < s.a0.toNat + s.a1.toNat → exec (.rtSeg c last) s = .next { s with status := .eSegRange }) ∧
    (c < s.params.nCtx → s.a1.toNat ≠ 0 → s.a2.toNat + s.a1.toNat ≤ s.params.ibufBytes →
      s.a0.toNat + s.a1.toNat ≤ 9000 → Contradicts (s.ctx c) last (s.a0.toNat + s.a1.toNat) →
      exec (.rtSeg c last) s = .next { s with status := .eSegInconsistent }) ∧
    (c < s.params.nCtx → s.a1.toNat ≠ 0 → s.a2.toNat + s.a1.toNat ≤ s.params.ibufBytes →
      s.a0.toNat + s.a1.toNat ≤ 9000 → ¬Contradicts (s.ctx c) last (s.a0.toNat + s.a1.toNat) →
      s.params.maxGaps < ((s.ctx c).gapsAfter last s.a0.toNat (s.a0.toNat + s.a1.toNat)).length →
      exec (.rtSeg c last) s = .next { s with status := .eGapFull })

/-- A segment to which no error applies is accepted: the results, the whole context and nothing else but `STATUS` change
(41_reassembly_tracker.md R114, R115, R116). `new` is counted position by position. -/
def Obligations.RtSegAcceptsASegment : Prop :=
  ∀ (s : State) (c : Nat) (last : Bool), s.GapsOk → c < s.params.nCtx → s.a1.toNat ≠ 0 →
    s.a2.toNat + s.a1.toNat ≤ s.params.ibufBytes → s.a0.toNat + s.a1.toNat ≤ 9000 →
    ¬Contradicts (s.ctx c) last (s.a0.toNat + s.a1.toNat) →
    ((s.ctx c).gapsAfter last s.a0.toNat (s.a0.toNat + s.a1.toNat)).length ≤ s.params.maxGaps →
    ∃ (t : State) (x : Ctx), exec (.rtSeg c last) s = .next t ∧
      t = { s with r0 := t.r0, r1 := t.r1, status := .ok, ctxs := s.ctxs.set c x } ∧
      t.ctx c = x ∧
      t.r0.toNat = s.a1.toNat - newPositions (s.ctx c).gaps s.a0.toNat s.a1.toNat ∧
      (x.gaps = [] → t.r1.toNat = 1) ∧ (x.gaps ≠ [] → t.r1.toNat = 0) ∧
      x.gaps = (s.ctx c).gapsAfter last s.a0.toNat (s.a0.toNat + s.a1.toNat) ∧
      x.lastSeen = ((s.ctx c).lastSeen || last) ∧
      ((s.ctx c).lastSeen = true ∨ last = false → x.totLen = (s.ctx c).totLen) ∧
      ((s.ctx c).lastSeen = false → last = true → x.totLen = s.a0.toNat + s.a1.toNat) ∧
      x.byteCnt = (s.ctx c).byteCnt + newPositions (s.ctx c).gaps s.a0.toNat s.a1.toNat ∧
      (0 < newPositions (s.ctx c).gaps s.a0.toNat s.a1.toNat → x.segCnt = (s.ctx c).segCnt + 1) ∧
      (newPositions (s.ctx c).gaps s.a0.toNat s.a1.toNat = 0 → x.segCnt = (s.ctx c).segCnt) ∧
      (∀ p, x.data.find? p =
        if (s.a0.toNat ≤ p ∧ p < s.a0.toNat + s.a1.toNat) ∧ inGaps (s.ctx c).gaps p = true
        then some (s.ibufByte (s.a2.toNat + (p - s.a0.toNat)))
        else (s.ctx c).data.find? p)

/-- What a segment does to the missing ranges, position by position: it takes its own positions out, and the first
last-flagged one also everything from its end upward (41_reassembly_tracker.md R112, R114). -/
def Obligations.SegmentsFillTheirOwnPositions : Prop :=
  ∀ (s : State) (x : Ctx) (last : Bool) (o n p : Nat), x.GapInv s.params.maxGaps → 0 < n → o + n ≤ 9000 →
    ¬Contradicts x last (o + n) →
    (inGaps (x.gapsAfter last o (o + n)) p = true ↔
      inGaps x.gaps p = true ∧ ¬(o ≤ p ∧ p < o + n) ∧ (x.lastSeen = false → last = true → p < o + n))

/-- Conservation: duplicates and new bytes of an accepted segment make up the segment (41_reassembly_tracker.md R125 (a)). -/
def Obligations.SegmentBytesAreConserved : Prop :=
  ∀ (s t : State) (c : Nat) (last : Bool), s.GapsOk →
    exec (.rtSeg c last) s = .next t → t.status = .ok →
    t.r0.toNat ≤ s.a1.toNat ∧ t.r0.toNat + (t.ctx c).byteCnt = s.a1.toNat + (s.ctx c).byteCnt

/-- A segment offered again after it was accepted, whatever other segments were offered to the context in between, is all
duplicate and leaves every context as it is (41_reassembly_tracker.md R125 (b)). -/
def Obligations.ResubmissionChangesNothing : Prop :=
  ∀ (s t u : State) (c : Nat) (last : Bool) (between : List Offer), s.GapsOk →
    exec (.rtSeg c last) s = .next t → t.status = .ok → offerMany c between t = some u →
    ∃ v : State, exec (.rtSeg c last) { u with a0 := s.a0, a1 := s.a1, a2 := s.a2 } = .next v ∧ v.status = .ok ∧
      v.r0 = s.a1 ∧ (v.r1 = 1 ↔ (u.ctx c).gaps = []) ∧ v.ctxs = u.ctxs

/-- A complete context stays complete: every accepted segment is all duplicate, reports completion and leaves it unchanged
(41_reassembly_tracker.md R116). -/
def Obligations.CompleteContextStaysComplete : Prop :=
  ∀ (s t : State) (c : Nat) (last : Bool), s.GapsOk → (s.ctx c).gaps = [] →
    exec (.rtSeg c last) s = .next t → t.status = .ok →
    t.r0 = s.a1 ∧ t.r1.toNat = 1 ∧ t.ctxs = s.ctxs

/-- The slices of one SDU, offered to a fresh context in any order in which no gap list overflows, complete it, and
`RT_GET` returns the SDU (41_reassembly_tracker.md R125 (c)). -/
def Obligations.AnyOrderReassemblesTheSdu : Prop :=
  ∀ (s t : State) (c len : Nat) (f : Nat → Byte) (slices : List Slice), s.Inv → c < s.params.nCtx →
    s.ctx c = Ctx.fresh → 1 ≤ len → len ≤ 9000 →
    (∀ sl ∈ slices, 1 ≤ sl.len ∧ sl.off + sl.len ≤ len) →
    (∀ p, p < len → ∃ sl ∈ slices, sl.off ≤ p ∧ p < sl.off + sl.len) →
    offerAll c f len slices s = some t →
    t.r1.toNat = 1 ∧
    ∃ u : State, exec (.rtGet c) t = .next u ∧ u.status = .ok ∧ u.r0.toNat = len ∧ u.ctx c = Ctx.fresh ∧
      ∀ p, p < len → u.obufByte p = f p

/-- `RT_GET` (41_reassembly_tracker.md R118): `E_BAD_CTX`, then `E_NOT_COMPLETE` while a gap remains; otherwise the SDU in
`OBUF`, its length in `R0`, the context fresh, and nothing else changed but `STATUS`; a second `RT_GET` right after it
raises `E_NOT_COMPLETE`. -/
def Obligations.RtGetReadsOutTheSdu : Prop :=
  ∀ (s : State) (c : Nat), s.Inv →
    (s.params.nCtx ≤ c → exec (.rtGet c) s = .next { s with status := .eBadCtx }) ∧
    (c < s.params.nCtx → (s.ctx c).gaps ≠ [] → exec (.rtGet c) s = .next { s with status := .eNotComplete }) ∧
    (c < s.params.nCtx → (s.ctx c).gaps = [] →
      ∃ t : State, exec (.rtGet c) s = .next t ∧
        t = { s with r0 := t.r0, status := .ok, obuf := t.obuf, ctxs := s.ctxs.set c Ctx.fresh } ∧
        t.ctx c = Ctx.fresh ∧ t.r0.toNat = (s.ctx c).totLen ∧
        1 ≤ (s.ctx c).totLen ∧ (s.ctx c).totLen ≤ 9000 ∧
        (∀ p, p < (s.ctx c).totLen → (s.ctx c).data.find? p = some (t.obufByte p)) ∧
        (∀ p, (s.ctx c).totLen ≤ p → t.obufByte p = s.obufByte p) ∧
        exec (.rtGet c) t = .next { t with status := .eNotComplete })

/-- `RT_DROP` (41_reassembly_tracker.md R120): `E_BAD_CTX`; otherwise what was lost in `R0` and `R1` (the whole SDU of a complete
context, nothing of a fresh one), the context fresh, and nothing else changed but `STATUS`. -/
def Obligations.RtDropDiscardsTheContext : Prop :=
  ∀ (s : State) (c : Nat), s.Inv →
    (s.params.nCtx ≤ c → exec (.rtDrop c) s = .next { s with status := .eBadCtx }) ∧
    (c < s.params.nCtx →
      ∃ t : State, exec (.rtDrop c) s = .next t ∧
        t = { s with r0 := t.r0, r1 := t.r1, status := .ok, ctxs := s.ctxs.set c Ctx.fresh } ∧
        t.ctx c = Ctx.fresh ∧ t.r0.toNat = (s.ctx c).segCnt ∧ t.r1.toNat = (s.ctx c).byteCnt ∧
        ((s.ctx c).gaps = [] → t.r1.toNat = (s.ctx c).totLen) ∧ (s.ctx c = Ctx.fresh → t.r0 = 0 ∧ t.r1 = 0))

/-- `RT_MISS` (41_reassembly_tracker.md R122): `E_BAD_CTX`; otherwise 0 in `R0` when the gap list is empty, 1 when it is
not, and nothing else changed but `STATUS`. -/
def Obligations.RtMissReportsGaps : Prop :=
  ∀ (s : State) (c : Nat),
    (s.params.nCtx ≤ c → exec (.rtMiss c) s = .next { s with status := .eBadCtx }) ∧
    (c < s.params.nCtx → (s.ctx c).gaps = [] → exec (.rtMiss c) s = .next { s with r0 := 0, status := .ok }) ∧
    (c < s.params.nCtx → (s.ctx c).gaps ≠ [] → exec (.rtMiss c) s = .next { s with r0 := 1, status := .ok })

/-- `RT_LIST` (41_reassembly_tracker.md R124): `E_BAD_CTX`; otherwise the number of gaps in `R0`, the gaps in `GOUT` from
entry 0, every later entry and everything else but `STATUS` unchanged. -/
def Obligations.RtListReportsGaps : Prop :=
  ∀ (s : State) (c : Nat), s.GapsOk →
    (s.params.nCtx ≤ c → exec (.rtList c) s = .next { s with status := .eBadCtx }) ∧
    (c < s.params.nCtx →
      ∃ t : State, exec (.rtList c) s = .next t ∧
        t = { s with r0 := t.r0, status := .ok, gout := t.gout } ∧
        t.r0.toNat = (s.ctx c).gaps.length ∧ (s.ctx c).gaps.length ≤ s.params.maxGaps ∧
        (∀ (i : Nat) (g : Gap), (s.ctx c).gaps[i]? = some g →
          (t.goutPair i).start.toNat = g.start ∧ (t.goutPair i).stop.toNat = g.stop) ∧
        (∀ i, (s.ctx c).gaps.length ≤ i → t.goutPair i = s.goutPair i))

/-- `RT_MISS`, `RT_LIST` and `RT_GET` agree on whether a context is complete (41_reassembly_tracker.md R125 (e)). -/
def Obligations.QueriesAgreeOnCompletion : Prop :=
  ∀ (s : State) (c : Nat), s.Inv → c < s.params.nCtx →
    ∃ t u v : State, exec (.rtMiss c) s = .next t ∧ exec (.rtList c) s = .next u ∧ exec (.rtGet c) s = .next v ∧
      (t.r0 = 0 ↔ u.r0 = 0) ∧ (u.r0 = 0 ↔ v.status = .ok)

/-! ### The data-PDU codec (42_data_pdu_codec.md) -/

/-- `ENC_DATA` writes the bytes of 42_data_pdu_codec.md R148's byte formulas, as many as R143 says, reports their number,
and changes nothing else but `STATUS`. -/
def Obligations.EncDataWritesTheHeader : Prop :=
  ∀ (s : State) (poll : Bool) (si : SegInfo) (mode : Mode) (k : KSel) (f : DataFormat) (bits : Nat),
    (mode, k, f, bits) ∈ [(Mode.um, KSel.k6, DataFormat.um6, 6), (Mode.um, KSel.k12, DataFormat.um12, 12),
      (Mode.am, KSel.k12, DataFormat.am12, 12), (Mode.am, KSel.k18, DataFormat.am18, 18)] →
    s.params.ok = true → s.a0.toNat < 2 ^ bits → s.a1.toNat < 2 ^ 16 → ¬(mode = .um ∧ poll = true) →
    ∃ t : State, exec (.encData poll si mode k) s = .next t ∧
      t = { s with r0 := t.r0, status := .ok, obuf := t.obuf } ∧
      t.r0.toNat = (headerFormula f si (yesNo poll) s.a0.toNat s.a1.toNat).length ∧
      (∀ j v, (headerFormula f si (yesNo poll) s.a0.toNat s.a1.toNat)[j]? = some v → (t.obufByte j).toNat = v) ∧
      (∀ j, t.r0.toNat ≤ j → t.obufByte j = s.obufByte j)

/-- `ENC_DATA` on an operand outside its range raises `E_BAD_ARG` (42_data_pdu_codec.md R148, 60_exceptions.md R205). -/
def Obligations.EncDataRejectsOperands : Prop :=
  ∀ (s : State) (poll : Bool) (si : SegInfo) (mode : Mode) (k : KSel) (bits : Nat),
    (mode, k, bits) ∈ [(Mode.um, KSel.k6, 6), (Mode.um, KSel.k12, 12), (Mode.am, KSel.k12, 12),
      (Mode.am, KSel.k18, 18)] →
    (2 ^ bits ≤ s.a0.toNat ∨ 2 ^ 16 ≤ s.a1.toNat ∨ (mode = .um ∧ poll = true)) →
    exec (.encData poll si mode k) s = .next { s with status := .eBadArg }

/-- `DEC_DATA` on a header that is all there writes the six results, in the numbers of 42_data_pdu_codec.md R144 to R146,
and changes nothing else but `STATUS` (R152). -/
def Obligations.DecDataReadsTheHeader : Prop :=
  ∀ (s : State) (mode : Mode) (k : KSel) (f : DataFormat) (si : SegInfo),
    (mode, k, f) ∈ [(Mode.um, KSel.k6, DataFormat.um6), (Mode.um, KSel.k12, DataFormat.um12),
      (Mode.am, KSel.k12, DataFormat.am12), (Mode.am, KSel.k18, DataFormat.am18)] →
    s.a0.toNat ≤ s.params.ibufBytes →
    (mode = .um → siNumber si = (s.ibufByte 0).toNat / 64) →
    (mode = .am → 128 ≤ (s.ibufByte 0).toNat ∧ siNumber si = (s.ibufByte 0).toNat / 16 % 4) →
    hdrLen f si ≤ s.a0.toNat →
    ∃ t : State, exec (.decData mode k) s = .next t ∧
      t = { s with r0 := t.r0, r1 := t.r1, r2 := t.r2, r3 := t.r3, r4 := t.r4, r5 := t.r5, status := .ok } ∧
      t.r0.toNat = siNumber si ∧
      t.r1.toNat = (if mode = .am then (s.ibufByte 0).toNat / 64 % 2 else 0) ∧
      t.r2.toNat = (if mode = .um ∧ si = .whole then 0
        else match f with
          | .um6 => (s.ibufByte 0).toNat % 64
          | .um12 => (s.ibufByte 0).toNat % 16 * 256 + (s.ibufByte 1).toNat
          | .am12 => (s.ibufByte 0).toNat % 16 * 256 + (s.ibufByte 1).toNat
          | .am18 => (s.ibufByte 0).toNat % 4 * 65536 + (s.ibufByte 1).toNat * 256 + (s.ibufByte 2).toNat) ∧
      t.r3.toNat = (if si = .last ∨ si = .middle
        then (s.ibufByte (hdrLen f si - 2)).toNat * 256 + (s.ibufByte (hdrLen f si - 1)).toNat else 0) ∧
      t.r4.toNat = hdrLen f si ∧
      t.r5.toNat = s.a0.toNat - hdrLen f si

/-- The errors of `DEC_DATA` in the order tested, each changing `STATUS` alone (42_data_pdu_codec.md R152). -/
def Obligations.DecDataErrorsInOrder : Prop :=
  ∀ (s : State) (mode : Mode) (k : KSel) (f : DataFormat) (si : SegInfo),
    (mode, k, f) ∈ [(Mode.um, KSel.k6, DataFormat.um6), (Mode.um, KSel.k12, DataFormat.um12),
      (Mode.am, KSel.k12, DataFormat.am12), (Mode.am, KSel.k18, DataFormat.am18)] →
    (s.params.ibufBytes < s.a0.toNat → exec (.decData mode k) s = .next { s with status := .eBufRange }) ∧
    (s.a0.toNat ≤ s.params.ibufBytes → s.a0.toNat = 0 →
      exec (.decData mode k) s = .next { s with status := .eShortPdu }) ∧
    (s.a0.toNat ≤ s.params.ibufBytes → s.a0.toNat ≠ 0 → mode = .am → (s.ibufByte 0).toNat < 128 →
      exec (.decData mode k) s = .next { s with status := .eNotData }) ∧
    (s.a0.toNat ≤ s.params.ibufBytes → s.a0.toNat ≠ 0 →
      (mode = .um → siNumber si = (s.ibufByte 0).toNat / 64) →
      (mode = .am → 128 ≤ (s.ibufByte 0).toNat ∧ siNumber si = (s.ibufByte 0).toNat / 16 % 4) →
      s.a0.toNat < hdrLen f si → exec (.decData mode k) s = .next { s with status := .eShortPdu })

/-- What `ENC_DATA` wrote, copied to `IBUF` before a payload of `n` bytes, `DEC_DATA` reads back: every field the header
carries, 0 for one it does not, the header's length and the payload's (42_data_pdu_codec.md R154). -/
def Obligations.DataHeaderRoundTrip : Prop :=
  ∀ (s t u : State) (poll : Bool) (si : SegInfo) (mode : Mode) (k : KSel) (n : Nat),
    exec (.encData poll si mode k) s = .next t → t.status = .ok →
    u.a0.toNat = t.r0.toNat + n → u.a0.toNat ≤ u.params.ibufBytes →
    (∀ j, j < t.r0.toNat → u.ibufByte j = t.obufByte j) →
    ∃ v : State, exec (.decData mode k) u = .next v ∧ v.status = .ok ∧
      v.r0.toNat = siNumber si ∧ v.r1.toNat = yesNo poll ∧
      v.r2 = (if mode = .um ∧ si = .whole then 0 else s.a0) ∧
      v.r3 = (if si = .last ∨ si = .middle then s.a1 else 0) ∧
      v.r4 = t.r0 ∧ v.r5.toNat = n

/-- What `DEC_DATA` accepted, encoded again from its results, gives the header's bytes back with the reserved bits 0
(42_data_pdu_codec.md R154, converse). -/
def Obligations.DataHeaderReencodes : Prop :=
  ∀ (s t u : State) (si : SegInfo) (mode : Mode) (k : KSel) (f : DataFormat),
    (mode, k, f) ∈ [(Mode.um, KSel.k6, DataFormat.um6), (Mode.um, KSel.k12, DataFormat.um12),
      (Mode.am, KSel.k12, DataFormat.am12), (Mode.am, KSel.k18, DataFormat.am18)] →
    exec (.decData mode k) s = .next t → t.status = .ok → t.r0.toNat = siNumber si →
    u.params.ok = true → u.a0 = t.r2 → u.a1 = t.r3 →
    ∃ v : State, exec (.encData (decide (t.r1 = 1)) si mode k) u = .next v ∧ v.status = .ok ∧ v.r0 = t.r4 ∧
      ∀ j, j < v.r0.toNat → v.obufByte j = s.ibufByte j &&& headerMask f si j

/-! ### The status-PDU codec (43_status_pdu_codec.md) -/

/-- The errors of `ENC_STATUS` in the order tested, each changing `STATUS` alone (43_status_pdu_codec.md R178, R181,
R182). -/
def Obligations.EncStatusErrorsInOrder : Prop :=
  ∀ (s : State) (k : KSel) (bits : Nat), (k, bits) ∈ [(KSel.k12, 12), (KSel.k18, 18)] →
    ((2 ^ bits ≤ s.a0.toNat ∨ s.params.nNack < s.a1.toNat) →
      exec (.encStatus k) s = .next { s with status := .eBadArg }) ∧
    (s.a0.toNat < 2 ^ bits → s.a1.toNat ≤ s.params.nNack →
      (∃ i, i < s.a1.toNat ∧ (2 ^ bits ≤ (s.ntabEntry i).nackSn.toNat ∨
        ((s.ntabEntry i).e3 = true ∧ (s.ntabEntry i).range = 0))) →
      exec (.encStatus k) s = .next { s with status := .eBadArg }) ∧
    (s.a0.toNat < 2 ^ bits → s.a1.toNat ≤ s.params.nNack →
      (∀ i, i < s.a1.toNat → (s.ntabEntry i).nackSn.toNat < 2 ^ bits ∧
        ¬((s.ntabEntry i).e3 = true ∧ (s.ntabEntry i).range = 0)) →
      s.a2.toNat < 3 → exec (.encStatus k) s = .next { s with status := .eBudget })

/-- `ENC_STATUS` on legal operands builds a PDU within the budget and changes nothing but `R0` to `R3`, the PDU's bytes of
`OBUF` and `STATUS` (43_status_pdu_codec.md R178): `m` entries emitted, the ACK SN written, and whether any was left
out, and the bytes the layouts of R172, R173 and the `E1` chain of R175 give, in numbers. -/
def Obligations.EncStatusBuildsThePdu : Prop :=
  ∀ (s : State) (k : KSel) (f : StatusFormat) (bits : Nat),
    (k, f, bits) ∈ [(KSel.k12, StatusFormat.sn12, 12), (KSel.k18, StatusFormat.sn18, 18)] →
    s.params.ok = true → s.a0.toNat < 2 ^ bits → s.a1.toNat ≤ s.params.nNack →
    (∀ i, i < s.a1.toNat → (s.ntabEntry i).nackSn.toNat < 2 ^ bits ∧
      ¬((s.ntabEntry i).e3 = true ∧ (s.ntabEntry i).range = 0)) →
    3 ≤ s.a2.toNat →
    ∃ (t : State) (m : Nat) (pdu : List Nat), exec (.encStatus k) s = .next t ∧
      t = { s with r0 := t.r0, r1 := t.r1, r2 := t.r2, r3 := t.r3, status := .ok, obuf := t.obuf } ∧
      pdu = fixedFormula f t.r2.toNat (if m = 0 then 0 else 1) ++ entriesFormula f (s.ntabFrom 0 m) ∧
      t.r0.toNat = pdu.length ∧ t.r0.toNat ≤ s.a2.toNat ∧
      t.r1.toNat = m ∧ m ≤ s.a1.toNat ∧
      t.r2.toNat = (if m = s.a1.toNat then s.a0.toNat else (s.ntabEntry m).nackSn.toNat) ∧
      t.r3.toNat = (if m = s.a1.toNat then 0 else 1) ∧
      (∀ j v, pdu[j]? = some v → (t.obufByte j).toNat = v) ∧
      (∀ j, t.r0.toNat ≤ j → t.obufByte j = s.obufByte j)

/-- The budget rule (43_status_pdu_codec.md R179): entry `i` is included if and only if the fixed part and the entries up
to it fit the budget, equality included; the PDU is the fixed part and the included entries, each whole. -/
def Obligations.BudgetBoundaryIncludesEquality : Prop :=
  ∀ (s t : State) (k : KSel) (base : Nat), (k, base) ∈ [(KSel.k12, 2), (KSel.k18, 3)] →
    exec (.encStatus k) s = .next t → t.status = .ok →
    t.r1.toNat ≤ s.a1.toNat ∧
    t.r0.toNat = 3 + ((List.range t.r1.toNat).map fun j =>
      base + 4 * yesNo (s.ntabEntry j).e2 + yesNo (s.ntabEntry j).e3).sum ∧
    ∀ i, i < s.a1.toNat →
      (i < t.r1.toNat ↔
        3 + ((List.range (i + 1)).map fun j =>
          base + 4 * yesNo (s.ntabEntry j).e2 + yesNo (s.ntabEntry j).e3).sum ≤ s.a2.toNat)

/-- The ACK SN under truncation (43_status_pdu_codec.md R180): when an entry is left out, `R3` is 1 and the ACK SN written,
which `R2` reports, is the SN of the first entry left out; otherwise it is the host's. The field in the PDU holds
`R2`. -/
def Obligations.TruncationLowersTheAckSn : Prop :=
  ∀ (s t : State) (k : KSel) (f : StatusFormat),
    (k, f) ∈ [(KSel.k12, StatusFormat.sn12), (KSel.k18, StatusFormat.sn18)] →
    exec (.encStatus k) s = .next t → t.status = .ok →
    (t.r1.toNat < s.a1.toNat → t.r3.toNat = 1 ∧ t.r2.toNat = (s.ntabEntry t.r1.toNat).nackSn.toNat) ∧
    (s.a1.toNat ≤ t.r1.toNat → t.r3.toNat = 0 ∧ t.r2 = s.a0) ∧
    (match f with
      | .sn12 => (t.obufByte 0).toNat % 16 * 256 + (t.obufByte 1).toNat
      | .sn18 => (t.obufByte 0).toNat % 16 * 16384 + (t.obufByte 1).toNat * 64 + (t.obufByte 2).toNat / 4) = t.r2.toNat

/-- What `ENC_STATUS` wrote, copied to `IBUF`, `DEC_STATUS` reads back: the ACK SN written, the number of entries, the
whole length, and each entry with the fields it does not carry 0 (43_status_pdu_codec.md R185). -/
def Obligations.StatusPduRoundTrip : Prop :=
  ∀ (s t u : State) (k : KSel),
    exec (.encStatus k) s = .next t → t.status = .ok →
    u.a0 = t.r0 → t.r0.toNat ≤ u.params.ibufBytes → t.r1.toNat ≤ u.params.nNack →
    (∀ j, j < t.r0.toNat → u.ibufByte j = t.obufByte j) →
    ∃ v : State, exec (.decStatus k) u = .next v ∧ v.status = .ok ∧
      v.r0 = t.r2 ∧ v.r1 = t.r1 ∧ v.r2 = t.r0 ∧
      ∀ i, i < t.r1.toNat → v.ntabEntry i = (s.ntabEntry i).carried

/-- What `DEC_STATUS` accepted, with no entry that carries a range of 0, encoded again from its results with its length as
the budget, gives the PDU's bytes back with the reserved bits 0 (43_status_pdu_codec.md R185, converse). -/
def Obligations.StatusPduReencodes : Prop :=
  ∀ (s t u : State) (k : KSel) (f : StatusFormat),
    (k, f) ∈ [(KSel.k12, StatusFormat.sn12), (KSel.k18, StatusFormat.sn18)] →
    exec (.decStatus k) s = .next t → t.status = .ok →
    u.params.ok = true → u.a0 = t.r0 → u.a1 = t.r1 → u.a2 = t.r2 → t.r1.toNat ≤ u.params.nNack →
    (∀ i, i < t.r1.toNat → u.ntabEntry i = t.ntabEntry i ∧
      ¬((t.ntabEntry i).e3 = true ∧ (t.ntabEntry i).range = 0)) →
    ∃ v : State, exec (.encStatus k) u = .next v ∧ v.status = .ok ∧
      v.r0 = t.r2 ∧ v.r1 = t.r1 ∧ v.r2 = t.r0 ∧ v.r3 = 0 ∧
      (statusMask f (t.ntabFrom 0 t.r1.toNat)).length = v.r0.toNat ∧
      ∀ j m, (statusMask f (t.ntabFrom 0 t.r1.toNat))[j]? = some m → v.obufByte j = s.ibufByte j &&& m

/-- The prefix property (43_status_pdu_codec.md R186): a larger budget never emits fewer entries; when it emits as many,
the results and the PDU are the same; when it emits more, the entries of the smaller PDU are encoded the same but for
the `E1` bit of the last of them, which is then set. -/
def Obligations.LargerBudgetsExtendThePdu : Prop :=
  ∀ (s t u : State) (k : KSel) (f : StatusFormat) (budget : Word),
    (k, f) ∈ [(KSel.k12, StatusFormat.sn12), (KSel.k18, StatusFormat.sn18)] →
    s.a2.toNat ≤ budget.toNat →
    exec (.encStatus k) s = .next t → t.status = .ok →
    exec (.encStatus k) { s with a2 := budget } = .next u → u.status = .ok →
    t.r1.toNat ≤ u.r1.toNat ∧
    (t.r1 = u.r1 → u = { t with a2 := budget }) ∧
    (t.r1.toNat < u.r1.toNat → t.r0.toNat < u.r0.toNat ∧
      ∀ (j : Nat) (e : NackEntry), 3 ≤ j → j < t.r0.toNat → e = s.ntabEntry (t.r1.toNat - 1) →
        u.obufByte j =
          if j + 1 + 4 * yesNo e.e2 + yesNo e.e3 = t.r0.toNat then t.obufByte j ||| e1Mask f else t.obufByte j)

/-- The errors of `DEC_STATUS` before its loop, in the order tested, each changing `STATUS` alone
(43_status_pdu_codec.md R184). -/
def Obligations.DecStatusErrorsInOrder : Prop :=
  ∀ (s : State) (k : KSel), k ∈ [KSel.k12, KSel.k18] →
    (s.params.ibufBytes < s.a0.toNat → exec (.decStatus k) s = .next { s with status := .eBufRange }) ∧
    (s.a0.toNat ≤ s.params.ibufBytes → s.a0.toNat = 0 →
      exec (.decStatus k) s = .next { s with status := .eShortPdu }) ∧
    (s.a0.toNat ≤ s.params.ibufBytes → s.a0.toNat ≠ 0 → 128 ≤ (s.ibufByte 0).toNat →
      exec (.decStatus k) s = .next { s with status := .eNotStatus }) ∧
    (s.a0.toNat ≤ s.params.ibufBytes → s.a0.toNat ≠ 0 → 16 ≤ (s.ibufByte 0).toNat → (s.ibufByte 0).toNat < 128 →
      exec (.decStatus k) s = .next { s with status := .eBadCpt }) ∧
    (s.a0.toNat ≤ s.params.ibufBytes → s.a0.toNat ≠ 0 → (s.ibufByte 0).toNat < 16 → s.a0.toNat < 3 →
      exec (.decStatus k) s = .next { s with status := .eShortPdu })

/-- `DEC_STATUS` on a PDU whose loop reads whole entries within `NTAB` and the PDU writes `R0` to `R2` and those entries,
and nothing else but `STATUS`; on one whose loop ends in an error it raises that error (43_status_pdu_codec.md R184). -/
def Obligations.DecStatusDeliversWholeLists : Prop :=
  ∀ (s : State) (k : KSel) (f : StatusFormat),
    (k, f) ∈ [(KSel.k12, StatusFormat.sn12), (KSel.k18, StatusFormat.sn18)] →
    s.a0.toNat ≤ s.params.ibufBytes → 3 ≤ s.a0.toNat → (s.ibufByte 0).toNat < 16 →
    (∀ e, readEntries s f s.a0.toNat s.params.nNack 3 (fixedE1 f (s.ibufByte 2)) = .error e →
      exec (.decStatus k) s = .next { s with status := e }) ∧
    (∀ ts pos, readEntries s f s.a0.toNat s.params.nNack 3 (fixedE1 f (s.ibufByte 2)) = .ok (ts, pos) →
      ∃ t : State, exec (.decStatus k) s = .next t ∧
        t = { s with r0 := t.r0, r1 := t.r1, r2 := t.r2, status := .ok, ntab := t.ntab } ∧
        t.r0.toNat = (match f with
          | .sn12 => (s.ibufByte 0).toNat % 16 * 256 + (s.ibufByte 1).toNat
          | .sn18 => (s.ibufByte 0).toNat % 16 * 16384 + (s.ibufByte 1).toNat * 64 + (s.ibufByte 2).toNat / 4) ∧
        t.r1.toNat = ts.length ∧ ts.length ≤ s.params.nNack ∧
        t.r2.toNat = pos ∧ pos ≤ s.a0.toNat ∧
        (∀ (i : Nat) (e : NackEntry), ts[i]? = some e → t.ntabEntry i = e) ∧
        (∀ i, ts.length ≤ i → t.ntabEntry i = s.ntabEntry i))

/-- `DEC_STATUS` on a PDU laid out in numbers as 43_status_pdu_codec.md R172, R173 and R175 say, with at most `N_NACK`
entries, any reserved bits (R184 (c)) and any bytes behind it, reads every field back (R184): the ACK SN, the number of entries, the length, and each
entry with the fields it does not carry 0; nothing else but `STATUS` changes. -/
def Obligations.DecStatusReadsTheLayout : Prop :=
  ∀ (s : State) (k : KSel) (f : StatusFormat) (bits ack : Nat) (ts : List NackEntry) (pdu : List Nat),
    (k, f, bits) ∈ [(KSel.k12, StatusFormat.sn12, 12), (KSel.k18, StatusFormat.sn18, 18)] →
    ack < 2 ^ bits → (∀ e ∈ ts, e.nackSn.toNat < 2 ^ bits) → ts.length ≤ s.params.nNack →
    pdu = fixedFormula f ack (if ts = [] then 0 else 1) ++ entriesFormula f ts →
    s.ibufHolds pdu (statusMask f ts) → pdu.length ≤ s.a0.toNat → s.a0.toNat ≤ s.params.ibufBytes →
    ∃ t : State, exec (.decStatus k) s = .next t ∧
      t = { s with r0 := t.r0, r1 := t.r1, r2 := t.r2, status := .ok, ntab := t.ntab } ∧
      t.r0.toNat = ack ∧ t.r1.toNat = ts.length ∧ t.r2.toNat = pdu.length ∧
      (∀ (i : Nat) (e : NackEntry), ts[i]? = some e → t.ntabEntry i = e.carried) ∧
      (∀ i, ts.length ≤ i → t.ntabEntry i = s.ntabEntry i)

/-- The errors of the loop of `DEC_STATUS` (43_status_pdu_codec.md R184, 60_exceptions.md R207, R211): after whole entries
that each announce another, with any reserved bits (43 R184 (c)), `E_NACK_OVF` when they fill `NTAB`; else `E_SHORT_PDU` when the PDU ends before the next
entry's fixed part or before a field the next entry announces. Each changes `STATUS` alone. -/
def Obligations.DecStatusLoopErrors : Prop :=
  ∀ (s : State) (k : KSel) (f : StatusFormat) (bits base ack : Nat) (ts : List NackEntry) (pdu : List Nat),
    (k, f, bits, base) ∈ [(KSel.k12, StatusFormat.sn12, 12, 2), (KSel.k18, StatusFormat.sn18, 18, 3)] →
    ack < 2 ^ bits → (∀ e ∈ ts, e.nackSn.toNat < 2 ^ bits) →
    pdu = fixedFormula f ack 1 ++ chainFormula f ts →
    s.ibufHolds pdu (statusMask f ts) → pdu.length ≤ s.a0.toNat → s.a0.toNat ≤ s.params.ibufBytes →
    (ts.length = s.params.nNack → exec (.decStatus k) s = .next { s with status := .eNackOvf }) ∧
    (ts.length < s.params.nNack → s.a0.toNat < pdu.length + base →
      exec (.decStatus k) s = .next { s with status := .eShortPdu }) ∧
    (∀ (e1 : Nat) (e : NackEntry), ts.length < s.params.nNack → e1 ≤ 1 → e.nackSn.toNat < 2 ^ bits →
      s.ibufHolds (pdu ++ entryFormula f e1 e) (statusMask f (ts ++ [e])) → s.a0.toNat < pdu.length + (entryFormula f e1 e).length →
      exec (.decStatus k) s = .next { s with status := .eShortPdu })

/-- The decoders depend on no byte of `IBUF` at or beyond the PDU's length (42_data_pdu_codec.md R152 (g),
43_status_pdu_codec.md R184): two states that differ in nothing else give the same answer but for that difference. -/
def Obligations.DecodersReadOnlyThePdu : Prop :=
  ∀ (s t : State) (m : Memory Byte) (i : Instr), i.opcode ∈ [.decData, .decStatus] →
    (∀ j, j < s.a0.toNat → ({ s with ibuf := m } : State).ibufByte j = s.ibufByte j) →
    exec i s = .next t → exec i { s with ibuf := m } = .next { t with ibuf := m }

/-! ### Registers the host reads, tables, reset and host moves -/

/-- The status codes of 60_exceptions.md R201: sixteen, `0x00` to `0x0F`, one per cause; the word the
host reads from `STATUS` shows them in bits 7:0, with zeros above (10_state.md R24). -/
def Obligations.StatusCodesAreDistinct : Prop :=
  [Status.ok, .eIllegal, .eBadSnbits, .eBadCtx, .eBadArg, .eBufRange, .eShortPdu, .eNotData, .eNotStatus, .eBadCpt,
    .eNackOvf, .eBudget, .eSegRange, .eSegInconsistent, .eGapFull, .eNotComplete].map (fun e => e.code.toNat) =
    List.range 16 ∧
  (∀ e e' : Status, e.code = e'.code → e = e') ∧
  (∀ s : State, s.hostRead .status = .ok (.word s.statusWord) ∧ s.statusWord.extractLsb 7 0 = s.status.code ∧
    s.statusWord.extractLsb 31 8 = 0#24)

/-- `CAP` reports the parameters (10_state.md R25), and no step changes it. -/
def Obligations.CapReportsTheParameters : Prop :=
  (∀ s : State, s.params.ok = true →
    s.hostRead .cap = .ok (.word s.capWord) ∧
    (s.capWord.extractLsb 7 0).toNat = s.params.nCtx ∧ (s.capWord.extractLsb 15 8).toNat = s.params.maxGaps ∧
    (s.capWord.extractLsb 23 16).toNat = s.params.nNack ∧ s.capWord.extractLsb 31 24 = 0#8) ∧
  (∀ s t : State, step s = .next t → t.capWord = s.capWord)

/-- The register images of an `NTAB` entry and of a `GOUT` pair hold every field, and bits 31:28 of word 0 are zero
(10_state.md R30, R31). -/
def Obligations.TableImagesHoldEveryField : Prop :=
  (∀ t : NackEntry, NackEntry.ofImage (t.word0 ++ t.word1) = t ∧ t.word0.extractLsb 31 28 = 0#4 ∧
    t.word0.extractLsb 17 0 = t.nackSn ∧ t.word0.extractLsb 27 20 = t.range ∧ t.word0.getLsbD 18 = t.e2 ∧
    t.word0.getLsbD 19 = t.e3) ∧
  (∀ g : GapPair, GapPair.ofImage g.image = g ∧ g.image.extractLsb 31 16 = g.start)

/-- A reset at any time leaves the registers 0, `STATUS` `OK`, every context fresh, nothing written in any buffer or table,
and the parameters as they were (10_state.md R41, 70_reset_and_hazards.md R230, R232). -/
def Obligations.ResetLeavesTheResetState : Prop :=
  ∀ (s : State) (rest : List HostMove), s.moves = .reset :: rest →
    ∃ t : State, step s = .next t ∧ t.params = s.params ∧ t.moves = rest ∧
      (∀ i : ArgReg, t.arg i = 0) ∧ (∀ i : ResReg, t.res i = 0) ∧ t.status = .ok ∧
      t.ctxs.length = s.params.nCtx ∧ (∀ c, c < s.params.nCtx → t.ctx c = Ctx.fresh) ∧
      t.ibuf = [] ∧ t.obuf = [] ∧ t.ntab = [] ∧ t.gout = []

/-- What the host's moves do (10_state.md R40, 20_memory.md R58): a write to an argument register, `IBUF` or `NTAB` changes
only that place; a write to any result register, `STATUS`, `CAP`, a byte of `OBUF` or an entry of `GOUT` is ignored
(93_implementation_defined.md U11); a read of registers and space ranges (30_encoding.md R82) gives what each place holds,
in order, exactly the places of R40 can be read, and it changes nothing of the block; with no move left nothing happens. One move per step is the model's choice (log 2), and
so is the field `reply`, which takes what a read gave (log 5). -/
def Obligations.HostMovesTouchOnlyTheirPlace : Prop :=
  ∀ (s : State) (rest : List HostMove),
    (s.moves = [] → step s = .next s) ∧
    (∀ (i : ArgReg) (v : Word), s.moves = .wr i v :: rest →
      ∃ t, step s = .next t ∧ t.arg i = v ∧ (∀ j, j ≠ i → t.arg j = s.arg j) ∧
        t = { s with a0 := t.a0, a1 := t.a1, a2 := t.a2, a3 := t.a3, moves := rest }) ∧
    (∀ (a : Nat) (bs : List Byte), s.moves = .wrb a bs :: rest → a + bs.length ≤ s.params.ibufBytes →
      ∃ t, step s = .next t ∧ t = { s with ibuf := t.ibuf, moves := rest } ∧
        (∀ (j : Nat) (b : Byte), bs[j]? = some b → t.ibufByte (a + j) = b) ∧
        (∀ j, j < a ∨ a + bs.length ≤ j → t.ibufByte j = s.ibufByte j)) ∧
    (∀ (i : Nat) (e : NackEntry), s.moves = .wrn i e :: rest → i < s.params.nNack →
      ∃ t, step s = .next t ∧ t = { s with ntab := t.ntab, moves := rest } ∧ t.ntabEntry i = e ∧
        (∀ j, j ≠ i → t.ntabEntry j = s.ntabEntry j)) ∧
    (∀ (l : ReadOnlyLoc) (v : Word), s.moves = .writeIgnored l v :: rest → s.hasReadOnly l →
      step s = .next { s with moves := rest }) ∧
    (∀ (items : List ReadItem) (vss : List (List HostValue)), s.moves = .rd items :: rest →
      List.Forall₂ s.ReadsItem items vss → step s = .next { s with moves := rest, reply := some vss.flatten }) ∧
    (∀ (l : Loc) (v : HostValue), s.hostRead l = .ok v ↔ s.Reads l v)

/-! ### Invariants -/

/-- The state after reset meets the invariant (10_state.md R36: it holds for the fresh context); the parameters are the
model's choice (log 1). -/
def Obligations.ResetMeetsTheInvariant : Prop := State.reset.Inv

/-- Every step keeps every buffer and table in canonical form inside its space (20_memory.md R50, R59). -/
def Obligations.StepKeepsTheSpaces : Prop :=
  ∀ s t : State, s.SpacesOk → step s = .next t → t.SpacesOk

/-- Every step keeps the gap-list invariants (I1) to (I4) and (I7) of every context (10_state.md R36). -/
def Obligations.StepKeepsTheGapLists : Prop :=
  ∀ s t : State, s.GapsOk → step s = .next t → t.GapsOk

/-- Every step keeps the byte-account invariants (I5) and (I6) of every context (10_state.md R36). -/
def Obligations.StepKeepsTheByteAccount : Prop :=
  ∀ s t : State, s.GapsOk → s.BytesOk → step s = .next t → t.BytesOk

/-- From a state that meets the invariant no command stops the machine: every command, legal or not, ends and the block
takes the next one (20_memory.md R59, 60_exceptions.md R219, 70_reset_and_hazards.md R249). -/
def Obligations.NoCommandStopsTheMachine : Prop :=
  (∀ (s : State) (i : Instr), s.Inv → ∃ t, exec i s = .next t) ∧
  (∀ (s : State) (w : Word) (rest : List HostMove), s.Inv → s.moves = .cmd w :: rest → ∃ t, step s = .next t)
end

