-- ==== Sys2Proof/Laws/Memory.lean ====
section
/-!
SUPPORT. The sparse spaces: a read after a write, the canonical form every write keeps, and that equal contents in
canonical form are equal data.
-/

namespace Sys2Proof.Machine

variable {α : Type}

/-! ### Read after write -/

@[simp] theorem Memory.find?_nil (a : Nat) : Memory.find? ([] : Memory α) a = none := rfl

theorem Memory.find?_set (m : Memory α) (a b : Nat) (v : α) :
    (m.set a v).find? b = if b = a then some v else m.find? b := by
  induction m with
  | nil => rfl
  | cons e m ih =>
    obtain ⟨d, w⟩ := e
    simp only [Memory.set, Memory.find?]
    split
    · simp [Memory.find?]
    · split
      · subst_vars
        simp only [Memory.find?]
        split <;> rfl
      · simp only [Memory.find?, ih]
        split
        · subst_vars
          rw [if_neg (by omega)]
        · rfl

@[simp] theorem Memory.find?_set_same (m : Memory α) (a : Nat) (v : α) : (m.set a v).find? a = some v := by
  simp [Memory.find?_set]

theorem Memory.find?_set_other (m : Memory α) {a b : Nat} (v : α) (h : b ≠ a) : (m.set a v).find? b = m.find? b := by
  simp [Memory.find?_set, h]

/-- Writing a list from index `a` gives its elements there and leaves every other index alone. -/
theorem Memory.find?_setList (m : Memory α) (a b : Nat) (vs : List α) :
    (m.setList a vs).find? b = if a ≤ b ∧ b < a + vs.length then vs[b - a]? else m.find? b := by
  induction vs generalizing m a with
  | nil =>
    rw [if_neg (by simp)]
    rfl
  | cons v vs ih =>
    simp only [Memory.setList, ih, List.length_cons, Memory.find?_set]
    by_cases h : b = a
    · subst h
      rw [if_neg (by omega), if_pos rfl, if_pos (by omega)]
      simp
    · by_cases hb : a + 1 ≤ b ∧ b < a + 1 + vs.length
      · rw [if_pos hb, if_pos (by omega)]
        obtain ⟨d, rfl⟩ := Nat.exists_eq_add_of_le hb.1
        rw [show a + 1 + d - (a + 1) = d by omega, show a + 1 + d - a = d + 1 by omega]
        simp
      · rw [if_neg hb, if_neg h, if_neg (by omega)]

/-! ### Canonical form -/

theorem Memory.risingFrom_weaken {size lo lo' : Nat} (m : Memory α) (hle : lo' ≤ lo)
    (h : Memory.risingFrom size lo m = true) : Memory.risingFrom size lo' m = true := by
  cases m with
  | nil => rfl
  | cons e m =>
    simp only [Memory.risingFrom, Bool.and_eq_true, decide_eq_true_eq] at h ⊢
    exact ⟨⟨by omega, h.1.2⟩, h.2⟩

theorem Memory.risingFrom_set {size lo a : Nat} (m : Memory α) (v : α) (hlo : lo ≤ a) (ha : a < size)
    (h : Memory.risingFrom size lo m = true) : Memory.risingFrom size lo (m.set a v) = true := by
  induction m generalizing lo with
  | nil => simp [Memory.set, Memory.risingFrom, hlo, ha]
  | cons e m ih =>
    obtain ⟨b, w⟩ := e
    simp only [Memory.risingFrom, Bool.and_eq_true, decide_eq_true_eq] at h
    simp only [Memory.set]
    split
    · simp only [Memory.risingFrom, Bool.and_eq_true, decide_eq_true_eq]
      exact ⟨⟨hlo, ha⟩, ⟨by omega, h.1.2⟩, h.2⟩
    · split
      · subst_vars
        simp only [Memory.risingFrom, Bool.and_eq_true, decide_eq_true_eq]
        exact ⟨⟨hlo, ha⟩, h.2⟩
      · simp only [Memory.risingFrom, Bool.and_eq_true, decide_eq_true_eq]
        exact ⟨h.1, ih (by omega) h.2⟩

/-- A write inside the space keeps the canonical form. -/
theorem Memory.wf_set {size a : Nat} (m : Memory α) (v : α) (ha : a < size) (h : m.wf size = true) :
    (m.set a v).wf size = true :=
  Memory.risingFrom_set m v (Nat.zero_le a) ha h

/-- Writing a list inside the space keeps the canonical form. -/
theorem Memory.wf_setList {size a : Nat} (m : Memory α) (vs : List α) (ha : a + vs.length ≤ size)
    (h : m.wf size = true) : (m.setList a vs).wf size = true := by
  induction vs generalizing m a with
  | nil => exact h
  | cons v vs ih =>
    simp only [List.length_cons] at ha
    exact ih _ (by omega) (Memory.wf_set m v (by omega) h)

@[simp] theorem Memory.wf_nil (size : Nat) : Memory.wf size ([] : Memory α) = true := rfl

theorem Memory.find?_eq_none_of_risingFrom {size lo a : Nat} (m : Memory α)
    (h : Memory.risingFrom size lo m = true) (ha : a < lo) : m.find? a = none := by
  induction m generalizing lo with
  | nil => rfl
  | cons e m ih =>
    obtain ⟨b, w⟩ := e
    simp only [Memory.risingFrom, Bool.and_eq_true, decide_eq_true_eq] at h
    simp only [Memory.find?]
    rw [if_neg (by omega)]
    exact ih h.2 (by omega)

/-- No index at or beyond the size of the space is listed. -/
theorem Memory.find?_eq_none_of_size_le {size a : Nat} (m : Memory α) (h : m.wf size = true) (ha : size ≤ a) :
    m.find? a = none := by
  unfold Memory.wf at h
  generalize 0 = lo at h
  induction m generalizing lo with
  | nil => rfl
  | cons e m ih =>
    obtain ⟨b, w⟩ := e
    simp only [Memory.risingFrom, Bool.and_eq_true, decide_eq_true_eq] at h
    simp only [Memory.find?]
    rw [if_neg (by omega)]
    exact ih _ h.2

theorem Memory.eq_of_risingFrom {size lo : Nat} (m m' : Memory α) (h : Memory.risingFrom size lo m = true)
    (h' : Memory.risingFrom size lo m' = true) (heq : ∀ a, m.find? a = m'.find? a) : m = m' := by
  induction m generalizing lo m' with
  | nil =>
    cases m' with
    | nil => rfl
    | cons e m' =>
      have := heq e.1
      simp [Memory.find?] at this
  | cons e m ih =>
    obtain ⟨b, w⟩ := e
    cases m' with
    | nil =>
      have := heq b
      simp [Memory.find?] at this
    | cons e' m' =>
      obtain ⟨b', w'⟩ := e'
      simp only [Memory.risingFrom, Bool.and_eq_true, decide_eq_true_eq] at h h'
      have hb : b = b' := by
        rcases Nat.lt_trichotomy b b' with hlt | heqb | hgt
        · have := heq b
          simp only [Memory.find?, if_true] at this
          rw [if_neg (by omega), Memory.find?_eq_none_of_risingFrom m' h'.2 (by omega)] at this
          cases this
        · exact heqb
        · have := heq b'
          simp only [Memory.find?, if_true] at this
          rw [if_neg (by omega), Memory.find?_eq_none_of_risingFrom m h.2 (by omega)] at this
          cases this
      subst hb
      have hw : w = w' := by
        have := heq b
        simpa [Memory.find?] using this
      subst hw
      rw [ih m' h.2 h'.2]
      intro a
      by_cases ha : a = b
      · subst ha
        rw [Memory.find?_eq_none_of_risingFrom m h.2 (by omega),
          Memory.find?_eq_none_of_risingFrom m' h'.2 (by omega)]
      · have := heq a
        simpa [Memory.find?, ha] using this

/-- Two spaces in canonical form that hold the same values are the same data. -/
theorem Memory.ext_of_wf {size : Nat} (m m' : Memory α) (h : m.wf size = true) (h' : m'.wf size = true)
    (heq : ∀ a, m.find? a = m'.find? a) : m = m' :=
  Memory.eq_of_risingFrom m m' h h' heq

end Sys2Proof.Machine
end

