-- ==== Sys2Proof/Laws/State.lean ====
section
/-!
SUPPORT. One lemma per field per update of `State`, true by `rfl`, so that no proof unfolds a record update.
-/

namespace Sys2Proof.Machine

/-! ### `setCtx` -/

@[simp] theorem State.setCtx_params (s : State) (c : Nat) (x : Ctx) : (s.setCtx c x).params = s.params := rfl
@[simp] theorem State.setCtx_a0 (s : State) (c : Nat) (x : Ctx) : (s.setCtx c x).a0 = s.a0 := rfl
@[simp] theorem State.setCtx_a1 (s : State) (c : Nat) (x : Ctx) : (s.setCtx c x).a1 = s.a1 := rfl
@[simp] theorem State.setCtx_a2 (s : State) (c : Nat) (x : Ctx) : (s.setCtx c x).a2 = s.a2 := rfl
@[simp] theorem State.setCtx_a3 (s : State) (c : Nat) (x : Ctx) : (s.setCtx c x).a3 = s.a3 := rfl
@[simp] theorem State.setCtx_r0 (s : State) (c : Nat) (x : Ctx) : (s.setCtx c x).r0 = s.r0 := rfl
@[simp] theorem State.setCtx_r1 (s : State) (c : Nat) (x : Ctx) : (s.setCtx c x).r1 = s.r1 := rfl
@[simp] theorem State.setCtx_r2 (s : State) (c : Nat) (x : Ctx) : (s.setCtx c x).r2 = s.r2 := rfl
@[simp] theorem State.setCtx_r3 (s : State) (c : Nat) (x : Ctx) : (s.setCtx c x).r3 = s.r3 := rfl
@[simp] theorem State.setCtx_r4 (s : State) (c : Nat) (x : Ctx) : (s.setCtx c x).r4 = s.r4 := rfl
@[simp] theorem State.setCtx_r5 (s : State) (c : Nat) (x : Ctx) : (s.setCtx c x).r5 = s.r5 := rfl
@[simp] theorem State.setCtx_status (s : State) (c : Nat) (x : Ctx) : (s.setCtx c x).status = s.status := rfl
@[simp] theorem State.setCtx_ibuf (s : State) (c : Nat) (x : Ctx) : (s.setCtx c x).ibuf = s.ibuf := rfl
@[simp] theorem State.setCtx_obuf (s : State) (c : Nat) (x : Ctx) : (s.setCtx c x).obuf = s.obuf := rfl
@[simp] theorem State.setCtx_ntab (s : State) (c : Nat) (x : Ctx) : (s.setCtx c x).ntab = s.ntab := rfl
@[simp] theorem State.setCtx_gout (s : State) (c : Nat) (x : Ctx) : (s.setCtx c x).gout = s.gout := rfl
@[simp] theorem State.setCtx_ctxs (s : State) (c : Nat) (x : Ctx) : (s.setCtx c x).ctxs = s.ctxs.set c x := rfl
@[simp] theorem State.setCtx_fill (s : State) (c : Nat) (x : Ctx) : (s.setCtx c x).fill = s.fill := rfl
@[simp] theorem State.setCtx_moves (s : State) (c : Nat) (x : Ctx) : (s.setCtx c x).moves = s.moves := rfl
@[simp] theorem State.setCtx_reply (s : State) (c : Nat) (x : Ctx) : (s.setCtx c x).reply = s.reply := rfl

/-! ### `freshen` -/

@[simp] theorem State.freshen_params (s : State) (c : Nat) : (s.freshen c).params = s.params := rfl
@[simp] theorem State.freshen_a0 (s : State) (c : Nat) : (s.freshen c).a0 = s.a0 := rfl
@[simp] theorem State.freshen_a1 (s : State) (c : Nat) : (s.freshen c).a1 = s.a1 := rfl
@[simp] theorem State.freshen_a2 (s : State) (c : Nat) : (s.freshen c).a2 = s.a2 := rfl
@[simp] theorem State.freshen_a3 (s : State) (c : Nat) : (s.freshen c).a3 = s.a3 := rfl
@[simp] theorem State.freshen_r0 (s : State) (c : Nat) : (s.freshen c).r0 = s.r0 := rfl
@[simp] theorem State.freshen_r1 (s : State) (c : Nat) : (s.freshen c).r1 = s.r1 := rfl
@[simp] theorem State.freshen_r2 (s : State) (c : Nat) : (s.freshen c).r2 = s.r2 := rfl
@[simp] theorem State.freshen_r3 (s : State) (c : Nat) : (s.freshen c).r3 = s.r3 := rfl
@[simp] theorem State.freshen_r4 (s : State) (c : Nat) : (s.freshen c).r4 = s.r4 := rfl
@[simp] theorem State.freshen_r5 (s : State) (c : Nat) : (s.freshen c).r5 = s.r5 := rfl
@[simp] theorem State.freshen_status (s : State) (c : Nat) : (s.freshen c).status = s.status := rfl
@[simp] theorem State.freshen_ibuf (s : State) (c : Nat) : (s.freshen c).ibuf = s.ibuf := rfl
@[simp] theorem State.freshen_obuf (s : State) (c : Nat) : (s.freshen c).obuf = s.obuf := rfl
@[simp] theorem State.freshen_ntab (s : State) (c : Nat) : (s.freshen c).ntab = s.ntab := rfl
@[simp] theorem State.freshen_gout (s : State) (c : Nat) : (s.freshen c).gout = s.gout := rfl
@[simp] theorem State.freshen_ctxs (s : State) (c : Nat) : (s.freshen c).ctxs = s.ctxs.set c Ctx.fresh := rfl
@[simp] theorem State.freshen_fill (s : State) (c : Nat) : (s.freshen c).fill = s.fill := rfl
@[simp] theorem State.freshen_moves (s : State) (c : Nat) : (s.freshen c).moves = s.moves := rfl
@[simp] theorem State.freshen_reply (s : State) (c : Nat) : (s.freshen c).reply = s.reply := rfl

/-! ### `writeObuf` -/

@[simp] theorem State.writeObuf_params (s : State) (bs : List Byte) : (s.writeObuf bs).params = s.params := rfl
@[simp] theorem State.writeObuf_a0 (s : State) (bs : List Byte) : (s.writeObuf bs).a0 = s.a0 := rfl
@[simp] theorem State.writeObuf_a1 (s : State) (bs : List Byte) : (s.writeObuf bs).a1 = s.a1 := rfl
@[simp] theorem State.writeObuf_a2 (s : State) (bs : List Byte) : (s.writeObuf bs).a2 = s.a2 := rfl
@[simp] theorem State.writeObuf_a3 (s : State) (bs : List Byte) : (s.writeObuf bs).a3 = s.a3 := rfl
@[simp] theorem State.writeObuf_r0 (s : State) (bs : List Byte) : (s.writeObuf bs).r0 = s.r0 := rfl
@[simp] theorem State.writeObuf_r1 (s : State) (bs : List Byte) : (s.writeObuf bs).r1 = s.r1 := rfl
@[simp] theorem State.writeObuf_r2 (s : State) (bs : List Byte) : (s.writeObuf bs).r2 = s.r2 := rfl
@[simp] theorem State.writeObuf_r3 (s : State) (bs : List Byte) : (s.writeObuf bs).r3 = s.r3 := rfl
@[simp] theorem State.writeObuf_r4 (s : State) (bs : List Byte) : (s.writeObuf bs).r4 = s.r4 := rfl
@[simp] theorem State.writeObuf_r5 (s : State) (bs : List Byte) : (s.writeObuf bs).r5 = s.r5 := rfl
@[simp] theorem State.writeObuf_status (s : State) (bs : List Byte) : (s.writeObuf bs).status = s.status := rfl
@[simp] theorem State.writeObuf_ibuf (s : State) (bs : List Byte) : (s.writeObuf bs).ibuf = s.ibuf := rfl
@[simp] theorem State.writeObuf_obuf (s : State) (bs : List Byte) : (s.writeObuf bs).obuf = s.obuf.setList 0 bs := rfl
@[simp] theorem State.writeObuf_ntab (s : State) (bs : List Byte) : (s.writeObuf bs).ntab = s.ntab := rfl
@[simp] theorem State.writeObuf_gout (s : State) (bs : List Byte) : (s.writeObuf bs).gout = s.gout := rfl
@[simp] theorem State.writeObuf_ctxs (s : State) (bs : List Byte) : (s.writeObuf bs).ctxs = s.ctxs := rfl
@[simp] theorem State.writeObuf_fill (s : State) (bs : List Byte) : (s.writeObuf bs).fill = s.fill := rfl
@[simp] theorem State.writeObuf_moves (s : State) (bs : List Byte) : (s.writeObuf bs).moves = s.moves := rfl
@[simp] theorem State.writeObuf_reply (s : State) (bs : List Byte) : (s.writeObuf bs).reply = s.reply := rfl

/-! ### `writeNtab` -/

@[simp] theorem State.writeNtab_params (s : State) (ts : List NackEntry) : (s.writeNtab ts).params = s.params := rfl
@[simp] theorem State.writeNtab_a0 (s : State) (ts : List NackEntry) : (s.writeNtab ts).a0 = s.a0 := rfl
@[simp] theorem State.writeNtab_a1 (s : State) (ts : List NackEntry) : (s.writeNtab ts).a1 = s.a1 := rfl
@[simp] theorem State.writeNtab_a2 (s : State) (ts : List NackEntry) : (s.writeNtab ts).a2 = s.a2 := rfl
@[simp] theorem State.writeNtab_a3 (s : State) (ts : List NackEntry) : (s.writeNtab ts).a3 = s.a3 := rfl
@[simp] theorem State.writeNtab_r0 (s : State) (ts : List NackEntry) : (s.writeNtab ts).r0 = s.r0 := rfl
@[simp] theorem State.writeNtab_r1 (s : State) (ts : List NackEntry) : (s.writeNtab ts).r1 = s.r1 := rfl
@[simp] theorem State.writeNtab_r2 (s : State) (ts : List NackEntry) : (s.writeNtab ts).r2 = s.r2 := rfl
@[simp] theorem State.writeNtab_r3 (s : State) (ts : List NackEntry) : (s.writeNtab ts).r3 = s.r3 := rfl
@[simp] theorem State.writeNtab_r4 (s : State) (ts : List NackEntry) : (s.writeNtab ts).r4 = s.r4 := rfl
@[simp] theorem State.writeNtab_r5 (s : State) (ts : List NackEntry) : (s.writeNtab ts).r5 = s.r5 := rfl
@[simp] theorem State.writeNtab_status (s : State) (ts : List NackEntry) : (s.writeNtab ts).status = s.status := rfl
@[simp] theorem State.writeNtab_ibuf (s : State) (ts : List NackEntry) : (s.writeNtab ts).ibuf = s.ibuf := rfl
@[simp] theorem State.writeNtab_obuf (s : State) (ts : List NackEntry) : (s.writeNtab ts).obuf = s.obuf := rfl
@[simp] theorem State.writeNtab_ntab (s : State) (ts : List NackEntry) : (s.writeNtab ts).ntab = s.ntab.setList 0 ts := rfl
@[simp] theorem State.writeNtab_gout (s : State) (ts : List NackEntry) : (s.writeNtab ts).gout = s.gout := rfl
@[simp] theorem State.writeNtab_ctxs (s : State) (ts : List NackEntry) : (s.writeNtab ts).ctxs = s.ctxs := rfl
@[simp] theorem State.writeNtab_fill (s : State) (ts : List NackEntry) : (s.writeNtab ts).fill = s.fill := rfl
@[simp] theorem State.writeNtab_moves (s : State) (ts : List NackEntry) : (s.writeNtab ts).moves = s.moves := rfl
@[simp] theorem State.writeNtab_reply (s : State) (ts : List NackEntry) : (s.writeNtab ts).reply = s.reply := rfl

/-! ### `writeGout` -/

@[simp] theorem State.writeGout_params (s : State) (gs : List GapPair) : (s.writeGout gs).params = s.params := rfl
@[simp] theorem State.writeGout_a0 (s : State) (gs : List GapPair) : (s.writeGout gs).a0 = s.a0 := rfl
@[simp] theorem State.writeGout_a1 (s : State) (gs : List GapPair) : (s.writeGout gs).a1 = s.a1 := rfl
@[simp] theorem State.writeGout_a2 (s : State) (gs : List GapPair) : (s.writeGout gs).a2 = s.a2 := rfl
@[simp] theorem State.writeGout_a3 (s : State) (gs : List GapPair) : (s.writeGout gs).a3 = s.a3 := rfl
@[simp] theorem State.writeGout_r0 (s : State) (gs : List GapPair) : (s.writeGout gs).r0 = s.r0 := rfl
@[simp] theorem State.writeGout_r1 (s : State) (gs : List GapPair) : (s.writeGout gs).r1 = s.r1 := rfl
@[simp] theorem State.writeGout_r2 (s : State) (gs : List GapPair) : (s.writeGout gs).r2 = s.r2 := rfl
@[simp] theorem State.writeGout_r3 (s : State) (gs : List GapPair) : (s.writeGout gs).r3 = s.r3 := rfl
@[simp] theorem State.writeGout_r4 (s : State) (gs : List GapPair) : (s.writeGout gs).r4 = s.r4 := rfl
@[simp] theorem State.writeGout_r5 (s : State) (gs : List GapPair) : (s.writeGout gs).r5 = s.r5 := rfl
@[simp] theorem State.writeGout_status (s : State) (gs : List GapPair) : (s.writeGout gs).status = s.status := rfl
@[simp] theorem State.writeGout_ibuf (s : State) (gs : List GapPair) : (s.writeGout gs).ibuf = s.ibuf := rfl
@[simp] theorem State.writeGout_obuf (s : State) (gs : List GapPair) : (s.writeGout gs).obuf = s.obuf := rfl
@[simp] theorem State.writeGout_ntab (s : State) (gs : List GapPair) : (s.writeGout gs).ntab = s.ntab := rfl
@[simp] theorem State.writeGout_gout (s : State) (gs : List GapPair) : (s.writeGout gs).gout = s.gout.setList 0 gs := rfl
@[simp] theorem State.writeGout_ctxs (s : State) (gs : List GapPair) : (s.writeGout gs).ctxs = s.ctxs := rfl
@[simp] theorem State.writeGout_fill (s : State) (gs : List GapPair) : (s.writeGout gs).fill = s.fill := rfl
@[simp] theorem State.writeGout_moves (s : State) (gs : List GapPair) : (s.writeGout gs).moves = s.moves := rfl
@[simp] theorem State.writeGout_reply (s : State) (gs : List GapPair) : (s.writeGout gs).reply = s.reply := rfl

/-! ### `withCommand` -/

@[simp] theorem State.withCommand_params (s : State) (w : Word) : (s.withCommand w).params = s.params := rfl
@[simp] theorem State.withCommand_a0 (s : State) (w : Word) : (s.withCommand w).a0 = s.a0 := rfl
@[simp] theorem State.withCommand_a1 (s : State) (w : Word) : (s.withCommand w).a1 = s.a1 := rfl
@[simp] theorem State.withCommand_a2 (s : State) (w : Word) : (s.withCommand w).a2 = s.a2 := rfl
@[simp] theorem State.withCommand_a3 (s : State) (w : Word) : (s.withCommand w).a3 = s.a3 := rfl
@[simp] theorem State.withCommand_r0 (s : State) (w : Word) : (s.withCommand w).r0 = s.r0 := rfl
@[simp] theorem State.withCommand_r1 (s : State) (w : Word) : (s.withCommand w).r1 = s.r1 := rfl
@[simp] theorem State.withCommand_r2 (s : State) (w : Word) : (s.withCommand w).r2 = s.r2 := rfl
@[simp] theorem State.withCommand_r3 (s : State) (w : Word) : (s.withCommand w).r3 = s.r3 := rfl
@[simp] theorem State.withCommand_r4 (s : State) (w : Word) : (s.withCommand w).r4 = s.r4 := rfl
@[simp] theorem State.withCommand_r5 (s : State) (w : Word) : (s.withCommand w).r5 = s.r5 := rfl
@[simp] theorem State.withCommand_status (s : State) (w : Word) : (s.withCommand w).status = s.status := rfl
@[simp] theorem State.withCommand_ibuf (s : State) (w : Word) : (s.withCommand w).ibuf = s.ibuf := rfl
@[simp] theorem State.withCommand_obuf (s : State) (w : Word) : (s.withCommand w).obuf = s.obuf := rfl
@[simp] theorem State.withCommand_ntab (s : State) (w : Word) : (s.withCommand w).ntab = s.ntab := rfl
@[simp] theorem State.withCommand_gout (s : State) (w : Word) : (s.withCommand w).gout = s.gout := rfl
@[simp] theorem State.withCommand_ctxs (s : State) (w : Word) : (s.withCommand w).ctxs = s.ctxs := rfl
@[simp] theorem State.withCommand_fill (s : State) (w : Word) : (s.withCommand w).fill = s.fill := rfl
@[simp] theorem State.withCommand_moves (s : State) (w : Word) : (s.withCommand w).moves = .cmd w :: s.moves := rfl
@[simp] theorem State.withCommand_reply (s : State) (w : Word) : (s.withCommand w).reply = s.reply := rfl

@[simp] theorem State.setArg_a0 (s : State) (v : Word) : s.setArg .a0 v = { s with a0 := v } := rfl
@[simp] theorem State.setArg_a1 (s : State) (v : Word) : s.setArg .a1 v = { s with a1 := v } := rfl
@[simp] theorem State.setArg_a2 (s : State) (v : Word) : s.setArg .a2 v = { s with a2 := v } := rfl
@[simp] theorem State.setArg_a3 (s : State) (v : Word) : s.setArg .a3 v = { s with a3 := v } := rfl

/-! ### How a command ends -/

@[simp] theorem raise_eq (e : Status) (s : State) : raise e s = .next { s with status := e } := rfl

@[simp] theorem finish_eq (s : State) : finish s = .next { s with status := .ok } := rfl

end Sys2Proof.Machine
end

