-- ==== Sys2Proof/Laws/Ops.lean ====
section
/-!
SUPPORT. What the shared operations do: contexts read back, buffers read back, and numbers that fit a register.
-/

namespace Sys2Proof.Machine

/-! ### Contexts -/

theorem State.ctx_eq_getElem {s : State} {c : Nat} (h : c < s.ctxs.length) : s.ctx c = s.ctxs[c] := by
  simp [State.ctx, h]

theorem State.ctx_mem {s : State} {c : Nat} (h : c < s.ctxs.length) : s.ctx c ∈ s.ctxs := by
  rw [State.ctx_eq_getElem h]
  exact List.getElem_mem h

@[simp] theorem State.ctx_setCtx_same (s : State) {c : Nat} (x : Ctx) (h : c < s.ctxs.length) :
    (s.setCtx c x).ctx c = x := by
  simp [State.ctx, h]

theorem State.ctx_setCtx_other (s : State) {c d : Nat} (x : Ctx) (h : d ≠ c) : (s.setCtx c x).ctx d = s.ctx d := by
  simp [State.ctx, Ne.symm h]

/-- Replacing a context keeps a property every context has if the new one has it. -/
theorem State.forall_mem_setCtx {s : State} {P : Ctx → Prop} {c : Nat} {x : Ctx} (h : ∀ y ∈ s.ctxs, P y) (hx : P x) :
    ∀ y ∈ (s.setCtx c x).ctxs, P y := by
  intro y hy
  rcases List.mem_or_eq_of_mem_set hy with hy | rfl
  · exact h y hy
  · exact hx

/-! ### Reading lists of places -/

@[simp] theorem State.ntabFrom_length (s : State) (i n : Nat) : (s.ntabFrom i n).length = n := by
  induction n generalizing i with
  | zero => rfl
  | succ n ih => simp [State.ntabFrom, ih]

theorem State.ntabFrom_getElem? (s : State) (i n j : Nat) (h : j < n) :
    (s.ntabFrom i n)[j]? = some (s.ntabEntry (i + j)) := by
  induction n generalizing i j with
  | zero => omega
  | succ n ih =>
    cases j with
    | zero => rfl
    | succ j =>
      simp only [State.ntabFrom, List.getElem?_cons_succ]
      rw [ih (i + 1) j (by omega)]
      congr 2
      omega

@[simp] theorem State.dataFrom_length (s : State) (c p n : Nat) : (s.dataFrom c p n).length = n := by
  induction n generalizing p with
  | zero => rfl
  | succ n ih => simp [State.dataFrom, ih]

theorem State.dataFrom_getElem? (s : State) (c p n j : Nat) (h : j < n) :
    (s.dataFrom c p n)[j]? = some (s.dataByte c (p + j)) := by
  induction n generalizing p j with
  | zero => omega
  | succ n ih =>
    cases j with
    | zero => rfl
    | succ j =>
      simp only [State.dataFrom, List.getElem?_cons_succ]
      rw [ih (p + 1) j (by omega)]
      congr 2
      omega

/-! ### Reading back what a command wrote -/

/-- `OBUF` after a write from address 0: the bytes written, and every byte beyond them as before. -/
theorem State.obufByte_writeObuf (s : State) (bs : List Byte) (a : Nat) :
    (s.writeObuf bs).obufByte a = if h : a < bs.length then bs[a] else s.obufByte a := by
  simp only [State.obufByte, State.writeObuf_obuf, State.writeObuf_fill, Memory.find?_setList]
  by_cases h : a < bs.length <;> simp [h]

/-- `NTAB` after a write from index 0. -/
theorem State.ntabEntry_writeNtab (s : State) (ts : List NackEntry) (i : Nat) :
    (s.writeNtab ts).ntabEntry i = if h : i < ts.length then ts[i] else s.ntabEntry i := by
  simp only [State.ntabEntry, State.writeNtab_ntab, State.writeNtab_fill, Memory.find?_setList]
  by_cases h : i < ts.length <;> simp [h]

/-- `GOUT` after a write from index 0. -/
theorem State.goutPair_writeGout (s : State) (gs : List GapPair) (i : Nat) :
    (s.writeGout gs).goutPair i = if h : i < gs.length then gs[i] else s.goutPair i := by
  simp only [State.goutPair, State.writeGout_gout, State.writeGout_fill, Memory.find?_setList]
  by_cases h : i < gs.length <;> simp [h]

/-! ### Numbers in registers -/

theorem result_toNat {n : Nat} (h : n < 2 ^ 32) : (result n).toNat = n := by
  simp only [result, BitVec.toNat_ofNat]
  exact Nat.mod_eq_of_lt h

theorem yesNo_le (b : Bool) : yesNo b ≤ 1 := by cases b <;> decide

theorem yesNo_eq_one (b : Bool) : yesNo b = 1 ↔ b = true := by cases b <;> decide

theorem result_yesNo_toNat (b : Bool) : (result (yesNo b)).toNat = yesNo b :=
  result_toNat (by have := yesNo_le b; omega)

end Sys2Proof.Machine
end

