-- ==== Sys2Proof/Laws/DataCodec.lean ====
section
/-!
SUPPORT. Data-PDU headers: their length, the segmentation code, and what the two commands answer.
-/

namespace Sys2Proof.Machine

@[simp] theorem SegInfo_ofCode_code (si : SegInfo) : SegInfo.ofCode si.code = si := by cases si <;> rfl

/-- The bytes of a header are as many as its length says (42_data_pdu_codec.md R143). -/
theorem headerBytes_length (f : DataFormat) (si : SegInfo) (p : Bool) (sn so : Word) :
    (headerBytes f si p sn so).length = hdrLen f si := by
  cases f <;> cases si <;> rfl

theorem hdrLen_bounds (f : DataFormat) (si : SegInfo) : 1 ≤ hdrLen f si ∧ hdrLen f si ≤ 5 := by
  cases f <;> cases si <;> decide

/-- An `ENC_DATA` that goes on either raises one error or writes the header to `OBUF`. -/
theorem execEncData_cases {poll : Bool} {si : SegInfo} {mode : Mode} {ksel : KSel} {s t : State}
    (h : execEncData poll si mode ksel s = .next t) :
    (∃ e, e ≠ .ok ∧ t = { s with status := e }) ∨
    (∃ f, dataFormat mode ksel = some f ∧ s.a0.toNat < 2 ^ f.snBits ∧ s.a1.toNat < 2 ^ 16 ∧
      ¬(mode = .um ∧ poll = true) ∧ hdrLen f si ≤ s.params.obufBytes ∧
      t = { s.writeObuf (headerBytes f si poll s.a0 s.a1) with status := .ok, r0 := result (hdrLen f si) }) := by
  simp only [execEncData, raise_eq, finish_eq] at h
  split at h
  · exact .inl ⟨.eBadSnbits, by decide, by cases h; rfl⟩
  · rename_i f hf
    split at h
    · exact .inl ⟨.eBadArg, by decide, by cases h; rfl⟩
    split at h
    · cases h
    · rename_i h1 h2
      simp only [not_or, not_le] at h1
      exact .inr ⟨f, hf, h1.1, h1.2.1, h1.2.2, by omega, by cases h; rfl⟩

/-- A `DEC_DATA` that goes on either raises one error or writes the six results. -/
theorem execDecData_cases {mode : Mode} {ksel : KSel} {s t : State} (h : execDecData mode ksel s = .next t) :
    (∃ e, e ≠ .ok ∧ t = { s with status := e }) ∨
    (∃ f si, dataFormat mode ksel = some f ∧ si = headerSi f (s.ibufByte 0) ∧
      s.a0.toNat ≤ s.params.ibufBytes ∧ (f.isAm = true → (s.ibufByte 0).getLsbD 7 = true) ∧
      hdrLen f si ≤ s.a0.toNat ∧
      t = { s with
        status := .ok
        r0 := si.code.setWidth 32
        r1 := result (yesNo (headerPoll f (s.ibufByte 0)))
        r2 := headerSn f si (s.ibufByte 0) (s.ibufByte 1) (s.ibufByte 2)
        r3 := headerSo s f si
        r4 := result (hdrLen f si)
        r5 := result (s.a0.toNat - hdrLen f si) }) := by
  simp only [execDecData, raise_eq, finish_eq] at h
  split at h
  · exact .inl ⟨.eBadSnbits, by decide, by cases h; rfl⟩
  · rename_i f hf
    split at h
    · exact .inl ⟨.eBufRange, by decide, by cases h; rfl⟩
    split at h
    · exact .inl ⟨.eShortPdu, by decide, by cases h; rfl⟩
    split at h
    · exact .inl ⟨.eNotData, by decide, by cases h; rfl⟩
    split at h
    · exact .inl ⟨.eShortPdu, by decide, by cases h; rfl⟩
    · rename_i h1 h2 h3 h4
      refine .inr ⟨f, _, hf, rfl, by omega, ?_, by omega, by cases h; rfl⟩
      intro ha
      simpa [ha] using h3

end Sys2Proof.Machine
end

