-- ==== Sys2Proof/Laws/Moves.lean ====
section
/-!
SUPPORT. What a host read of several places gives: the value of each place, in order.
-/

namespace Sys2Proof.Machine

/-- A read of several places goes through exactly when each of them can be read, and gives their values in order. -/
theorem State.hostReads_eq_ok {s : State} {ls : List Loc} {vs : List HostValue} :
    s.hostReads ls = .ok vs ↔ List.Forall₂ (fun l v => s.hostRead l = .ok v) ls vs := by
  induction ls generalizing vs with
  | nil => simp [State.hostReads, eq_comm]
  | cons l ls ih =>
    rw [List.forall₂_cons_left_iff]
    simp only [State.hostReads]
    split
    · rename_i f hf
      simp [hf]
    · rename_i v hv
      split
      · rename_i f hf
        have hn : ∀ ws, ¬List.Forall₂ (fun l v => s.hostRead l = .ok v) ls ws := by
          intro ws hw
          rw [ih.2 hw] at hf
          cases hf
        simp [hn]
      · rename_i ws hws
        constructor
        · intro h
          cases h
          exact ⟨v, ws, hv, ih.1 hws, rfl⟩
        · rintro ⟨v', ws', hv', hw', rfl⟩
          rw [hv] at hv'
          cases hv'
          rw [ih.2 hw'] at hws
          cases hws
          rfl

/-- A read of two lists of places one after the other gives the values of both. -/
theorem State.hostReads_append {s : State} {ls ms : List Loc} {vs ws : List HostValue}
    (h : s.hostReads ls = .ok vs) (h' : s.hostReads ms = .ok ws) : s.hostReads (ls ++ ms) = .ok (vs ++ ws) :=
  State.hostReads_eq_ok.2 (List.rel_append (State.hostReads_eq_ok.1 h) (State.hostReads_eq_ok.1 h'))

/-- A range names the places from its first index to its last. -/
theorem ReadItem.places_range_getElem? (sp : Space) {first last j : Nat} (h : first + j ≤ last) :
    (ReadItem.range sp first last).places[j]? = some (sp.place (first + j)) := by
  have hj : j < last + 1 - first := by omega
  simp [ReadItem.places, hj]

end Sys2Proof.Machine
end

