-- ==== Sys2Proof/Laws/PerInstr.lean ====
section
/-!
SUPPORT. Statements about every command as syntax, one lemma per constructor.

`EncodesOwnRow`: the command word of a command lies in the command's own row of 30_encoding.md R72, and its `OP` is that row's.
-/

namespace Sys2Proof.Laws

/-- The command word matches the command's row (30_encoding.md R72), and its `OP` is the row's. -/
def EncodesOwnRow.Statement (i : Instr) : Prop :=
  i.opcode.matchesWord (encode i) = true ∧ opField (encode i) = i.opcode.op

theorem EncodesOwnRow.snAdd (k : KSel) : EncodesOwnRow.Statement (.snAdd k) := by
  cases k <;> exact ⟨by decide, by decide⟩

theorem EncodesOwnRow.snDist (k : KSel) : EncodesOwnRow.Statement (.snDist k) := by
  cases k <;> exact ⟨by decide, by decide⟩

theorem EncodesOwnRow.snCmp (k : KSel) : EncodesOwnRow.Statement (.snCmp k) := by
  cases k <;> exact ⟨by decide, by decide⟩

theorem EncodesOwnRow.snInwin (k : KSel) : EncodesOwnRow.Statement (.snInwin k) := by
  cases k <;> exact ⟨by decide, by decide⟩

theorem EncodesOwnRow.rtSeg (c : Nat) (l : Bool) : EncodesOwnRow.Statement (.rtSeg c l) := by
  have h : ∀ b : BitVec 8, Opcode.rtSeg.matchesWord (assemble 0x20#8 b l false 0 0 0) = true ∧
      opField (assemble 0x20#8 b l false 0 0 0) = 0x20#8 := by
    cases l <;> decide
  exact h _

theorem EncodesOwnRow.rtGet (c : Nat) : EncodesOwnRow.Statement (.rtGet c) := by
  have h : ∀ b : BitVec 8, Opcode.rtGet.matchesWord (assemble 0x21#8 b false false 0 0 0) = true ∧
      opField (assemble 0x21#8 b false false 0 0 0) = 0x21#8 := by
    decide
  exact h _

theorem EncodesOwnRow.rtDrop (c : Nat) : EncodesOwnRow.Statement (.rtDrop c) := by
  have h : ∀ b : BitVec 8, Opcode.rtDrop.matchesWord (assemble 0x22#8 b false false 0 0 0) = true ∧
      opField (assemble 0x22#8 b false false 0 0 0) = 0x22#8 := by
    decide
  exact h _

theorem EncodesOwnRow.rtMiss (c : Nat) : EncodesOwnRow.Statement (.rtMiss c) := by
  have h : ∀ b : BitVec 8, Opcode.rtMiss.matchesWord (assemble 0x23#8 b false false 0 0 0) = true ∧
      opField (assemble 0x23#8 b false false 0 0 0) = 0x23#8 := by
    decide
  exact h _

theorem EncodesOwnRow.rtList (c : Nat) : EncodesOwnRow.Statement (.rtList c) := by
  have h : ∀ b : BitVec 8, Opcode.rtList.matchesWord (assemble 0x24#8 b false false 0 0 0) = true ∧
      opField (assemble 0x24#8 b false false 0 0 0) = 0x24#8 := by
    decide
  exact h _

theorem EncodesOwnRow.encData (p : Bool) (si : SegInfo) (m : Mode) (k : KSel) :
    EncodesOwnRow.Statement (.encData p si m k) := by
  cases p <;> cases si <;> cases m <;> cases k <;> exact ⟨by decide, by decide⟩

theorem EncodesOwnRow.decData (m : Mode) (k : KSel) : EncodesOwnRow.Statement (.decData m k) := by
  cases m <;> cases k <;> exact ⟨by decide, by decide⟩

theorem EncodesOwnRow.encStatus (k : KSel) : EncodesOwnRow.Statement (.encStatus k) := by
  cases k <;> exact ⟨by decide, by decide⟩

theorem EncodesOwnRow.decStatus (k : KSel) : EncodesOwnRow.Statement (.decStatus k) := by
  cases k <;> exact ⟨by decide, by decide⟩

end Sys2Proof.Laws
end

