-- ==== Sys2Proof/Laws/SnSpace.lean ====
section
/-!
SUPPORT. What the commands of the sequence-number family answer: one error, or one number in `R0`.
-/

namespace Sys2Proof.Machine

theorem snDistance_lt {m : Nat} (ref x : Nat) (hm : 0 < m) : snDistance m ref x < m := Nat.mod_lt _ hm

/-- The ring size is at most `2^18`, so every number of the family fits a register. -/
theorem snBits_le {ksel : KSel} {k : Nat} (h : snBits ksel = some k) : 2 ^ k ≤ 2 ^ 18 := by
  cases ksel <;> simp only [snBits, Option.some.injEq, reduceCtorEq] at h <;> subst h <;> decide

/-- What a command of the family can do: raise one error, or write one number to `R0`. -/
def snAnswers (s t : State) : Prop :=
  (∃ e, e ≠ .ok ∧ t = { s with status := e }) ∨ (∃ v, t = { s with status := .ok, r0 := v })

theorem withRing_cases {ksel : KSel} {s t : State} {body : Nat → Out}
    (hb : ∀ m, body m = .next t → snAnswers s t) (h : withRing ksel s body = .next t) : snAnswers s t := by
  unfold withRing at h
  split at h
  · exact .inl ⟨.eBadSnbits, by decide, by cases h; rfl⟩
  · exact hb _ h

theorem execSnAdd_cases {ksel : KSel} {s t : State} (h : execSnAdd ksel s = .next t) : snAnswers s t := by
  refine withRing_cases (fun m hm => ?_) h
  simp only [raise_eq, finish_eq] at hm
  split at hm
  · exact .inl ⟨.eBadArg, by decide, by cases hm; rfl⟩
  · exact .inr ⟨_, by cases hm; rfl⟩

theorem execSnDist_cases {ksel : KSel} {s t : State} (h : execSnDist ksel s = .next t) : snAnswers s t := by
  refine withRing_cases (fun m hm => ?_) h
  simp only [raise_eq, finish_eq] at hm
  split at hm
  · exact .inl ⟨.eBadArg, by decide, by cases hm; rfl⟩
  · exact .inr ⟨_, by cases hm; rfl⟩

theorem execSnCmp_cases {ksel : KSel} {s t : State} (h : execSnCmp ksel s = .next t) : snAnswers s t := by
  refine withRing_cases (fun m hm => ?_) h
  simp only [raise_eq, finish_eq] at hm
  split at hm
  · exact .inl ⟨.eBadArg, by decide, by cases hm; rfl⟩
  · exact .inr ⟨_, by cases hm; rfl⟩

theorem execSnInwin_cases {ksel : KSel} {s t : State} (h : execSnInwin ksel s = .next t) : snAnswers s t := by
  refine withRing_cases (fun m hm => ?_) h
  simp only [raise_eq, finish_eq] at hm
  split at hm
  · exact .inl ⟨.eBadArg, by decide, by cases hm; rfl⟩
  · exact .inr ⟨_, by cases hm; rfl⟩

end Sys2Proof.Machine
end

