-- ==== Sys2Proof/Laws/StatusCodec.lean ====
section
/-!
SUPPORT. Status PDUs: sizes, the entries that fit a budget, the bounds of the decoder's loop, and what the two commands
answer.
-/

namespace Sys2Proof.Machine

/-! ### Sizes -/

theorem esize_bounds (f : StatusFormat) (t : NackEntry) : 2 ≤ esize f t ∧ esize f t ≤ 8 := by
  have h2 := yesNo_le t.e2
  have h3 := yesNo_le t.e3
  cases f <;> simp only [esize, StatusFormat.base] <;> omega

/-- An entry occupies `esize` bytes (43_status_pdu_codec.md R174). -/
theorem entryBytes_length (f : StatusFormat) (e1 : Bool) (t : NackEntry) :
    (entryBytes f e1 t).length = esize f t := by
  obtain ⟨sn, e2, e3, ss, se, rg⟩ := t
  cases f <;> cases e2 <;> cases e3 <;> rfl

theorem entriesBytes_length (f : StatusFormat) (ts : List NackEntry) :
    (entriesBytes f ts).length = entriesSize f ts := by
  induction ts with
  | nil => rfl
  | cons t ts ih => simp [entriesBytes, entriesSize, entryBytes_length, ih]

theorem fixedBytes_length (f : StatusFormat) (ack : Word) (e1 : Bool) : (fixedBytes f ack e1).length = fixedPart := by
  cases f <;> rfl

/-- A status PDU occupies its fixed part and its entries (43_status_pdu_codec.md R174, R178). -/
theorem statusBytes_length (f : StatusFormat) (ack : Word) (ts : List NackEntry) :
    (statusBytes f ack ts).length = fixedPart + entriesSize f ts := by
  simp [statusBytes, fixedBytes_length, entriesBytes_length]

theorem entriesSize_le (f : StatusFormat) (ts : List NackEntry) : entriesSize f ts ≤ 8 * ts.length := by
  induction ts with
  | nil => simp [entriesSize]
  | cons t ts ih =>
    have := (esize_bounds f t).2
    simp only [entriesSize, List.length_cons]
    omega

/-! ### The entries that fit (43_status_pdu_codec.md R179) -/

/-- The entries taken are a prefix of the entries offered. -/
theorem takeFitting_eq_take (f : StatusFormat) (budget used : Nat) (ts : List NackEntry) :
    takeFitting f budget used ts = ts.take (takeFitting f budget used ts).length := by
  induction ts generalizing used with
  | nil => rfl
  | cons t ts ih =>
    simp only [takeFitting]
    split
    · simp only [List.length_cons, List.take_succ_cons]
      rw [← ih]
    · rfl

theorem takeFitting_length_le (f : StatusFormat) (budget used : Nat) (ts : List NackEntry) :
    (takeFitting f budget used ts).length ≤ ts.length := by
  rw [takeFitting_eq_take]
  simp

/-- What is taken fits the budget. -/
theorem takeFitting_fits (f : StatusFormat) {budget used : Nat} (ts : List NackEntry) (h : used ≤ budget) :
    used + entriesSize f (takeFitting f budget used ts) ≤ budget := by
  induction ts generalizing used with
  | nil => simpa [takeFitting, entriesSize] using h
  | cons t ts ih =>
    simp only [takeFitting]
    split
    · rename_i ht
      have := ih ht
      simp only [entriesSize]
      omega
    · simpa [entriesSize] using h

/-- The first entry left out does not fit. -/
theorem takeFitting_stops (f : StatusFormat) {budget used : Nat} (ts : List NackEntry) {t : NackEntry}
    {rest : List NackEntry} (h : ts.drop (takeFitting f budget used ts).length = t :: rest) :
    budget < used + entriesSize f (takeFitting f budget used ts) + esize f t := by
  induction ts generalizing used with
  | nil => simp [takeFitting] at h
  | cons k ts ih =>
    simp only [takeFitting] at h ⊢
    split at h
    · rename_i hk
      rw [if_pos hk]
      simp only [List.length_cons, List.drop_succ_cons] at h
      have := ih h
      simp only [entriesSize]
      omega
    · rename_i hk
      rw [if_neg hk]
      simp only [List.length_nil, List.drop_zero, List.cons.injEq] at h
      obtain ⟨rfl, _⟩ := h
      simp only [entriesSize]
      omega

/-! ### The decoder's loop (43_status_pdu_codec.md R184) -/

/-- One pass of the loop ends inside the PDU, after the entry's bytes. -/
theorem readEntry_ok {s : State} {f : StatusFormat} {pduLen pos : Nat} {t : NackEntry} {e1 : Bool} {next : Nat}
    (h : readEntry s f pduLen pos = .ok (t, e1, next)) : next = pos + esize f t ∧ next ≤ pduLen := by
  simp only [readEntry] at h
  split at h
  · cases h
  split at h
  · cases h
  split at h
  · cases h
  · rename_i h1 h2 h3
    simp only [Except.ok.injEq, Prod.mk.injEq] at h
    obtain ⟨rfl, rfl, rfl⟩ := h
    simp only [esize]
    refine ⟨by omega, ?_⟩
    generalize he2 : (entryHead s f pos).2.2.1 = e2 at h2 h3 ⊢
    generalize he3 : (entryHead s f pos).2.2.2 = e3 at h3 ⊢
    cases e2 <;> cases e3 <;> simp [yesNo] at h2 h3 ⊢ <;> omega

/-- Errors of one pass. -/
theorem readEntry_error {s : State} {f : StatusFormat} {pduLen pos : Nat} {e : Status}
    (h : readEntry s f pduLen pos = .error e) : e = .eShortPdu := by
  simp only [readEntry] at h
  split at h
  · exact (Except.error.inj h).symm
  split at h
  · exact (Except.error.inj h).symm
  split at h
  · exact (Except.error.inj h).symm
  · cases h

/-- The loop yields at most as many entries as there is room for, and ends where their bytes end. -/
theorem readEntries_ok {s : State} {f : StatusFormat} {pduLen room pos : Nat} {e1 : Bool} {ts : List NackEntry}
    {last : Nat} (h : readEntries s f pduLen room pos e1 = .ok (ts, last)) :
    ts.length ≤ room ∧ last = pos + entriesSize f ts ∧ (pos ≤ pduLen → last ≤ pduLen) := by
  induction room generalizing pos e1 ts last with
  | zero =>
    cases e1 <;> simp only [readEntries, Except.ok.injEq, Prod.mk.injEq, reduceCtorEq] at h
    obtain ⟨rfl, rfl⟩ := h
    simp [entriesSize]
  | succ room ih =>
    cases e1 with
    | false =>
      simp only [readEntries, Except.ok.injEq, Prod.mk.injEq] at h
      obtain ⟨rfl, rfl⟩ := h
      simp [entriesSize]
    | true =>
      simp only [readEntries] at h
      split at h
      · cases h
      · rename_i t e1' next hr
        split at h
        · cases h
        · rename_i ts' last' hrs
          simp only [Except.ok.injEq, Prod.mk.injEq] at h
          obtain ⟨rfl, rfl⟩ := h
          obtain ⟨h1, h2, h3⟩ := ih hrs
          obtain ⟨h4, h5⟩ := readEntry_ok hr
          refine ⟨by simp only [List.length_cons]; omega, by simp only [entriesSize]; omega, fun _ => h3 h5⟩

/-- Errors of the loop. -/
theorem readEntries_error {s : State} {f : StatusFormat} {pduLen room pos : Nat} {e1 : Bool} {e : Status}
    (h : readEntries s f pduLen room pos e1 = .error e) : e = .eShortPdu ∨ e = .eNackOvf := by
  induction room generalizing pos e1 with
  | zero =>
    cases e1 <;> simp only [readEntries, Except.error.injEq, reduceCtorEq] at h
    exact .inr h.symm
  | succ room ih =>
    cases e1 with
    | false => simp [readEntries] at h
    | true =>
      simp only [readEntries] at h
      split at h
      · rename_i e' hr
        simp only [Except.error.injEq] at h
        subst h
        exact .inl (readEntry_error hr)
      · split at h
        · rename_i e' hrs
          simp only [Except.error.injEq] at h
          subst h
          exact ih hrs
        · cases h

/-! ### What the two commands answer -/

/-- An `ENC_STATUS` that goes on either raises one error or writes the PDU to `OBUF`. -/
theorem execEncStatus_cases {ksel : KSel} {s t : State} (h : execEncStatus ksel s = .next t) :
    (∃ e, e ≠ .ok ∧ t = { s with status := e }) ∨
    (∃ f entries emitted, statusFormat ksel = some f ∧ entries = s.ntabFrom 0 s.a1.toNat ∧
      emitted = takeFitting f s.a2.toNat fixedPart entries ∧
      s.a0.toNat < 2 ^ f.snBits ∧ s.a1.toNat ≤ s.params.nNack ∧ entries.any (badEntry f) = false ∧
      fixedPart ≤ s.a2.toNat ∧ fixedPart + entriesSize f emitted ≤ s.params.obufBytes ∧
      t = { s.writeObuf (statusBytes f (ackOut s.a0 (entries.drop emitted.length)) emitted) with
        status := .ok
        r0 := result (fixedPart + entriesSize f emitted)
        r1 := result emitted.length
        r2 := ackOut s.a0 (entries.drop emitted.length)
        r3 := result (yesNo (!(entries.drop emitted.length).isEmpty)) }) := by
  simp only [execEncStatus, raise_eq, finish_eq] at h
  split at h
  · exact .inl ⟨.eBadSnbits, by decide, by cases h; rfl⟩
  · rename_i f hf
    split at h
    · exact .inl ⟨.eBadArg, by decide, by cases h; rfl⟩
    split at h
    · exact .inl ⟨.eBadArg, by decide, by cases h; rfl⟩
    split at h
    · exact .inl ⟨.eBudget, by decide, by cases h; rfl⟩
    split at h
    · cases h
    · rename_i h1 h2 h3 h4
      simp only [not_or, not_le, not_lt] at h1
      exact .inr ⟨f, _, _, hf, rfl, rfl, h1.1, h1.2, by simpa using h2, by omega, by omega, by cases h; rfl⟩

/-- A `DEC_STATUS` that goes on either raises one error or writes the entries of the whole PDU to `NTAB`. -/
theorem execDecStatus_cases {ksel : KSel} {s t : State} (h : execDecStatus ksel s = .next t) :
    (∃ e, e ≠ .ok ∧ t = { s with status := e }) ∨
    (∃ f ts pos, statusFormat ksel = some f ∧ s.a0.toNat ≤ s.params.ibufBytes ∧ fixedPart ≤ s.a0.toNat ∧
      (s.ibufByte 0).getLsbD 7 = false ∧ (s.ibufByte 0).extractLsb 6 4 = 0b000#3 ∧
      readEntries s f s.a0.toNat s.params.nNack fixedPart (fixedE1 f (s.ibufByte 2)) = .ok (ts, pos) ∧
      t = { s.writeNtab ts with
        status := .ok
        r0 := fixedAck f (s.ibufByte 0) (s.ibufByte 1) (s.ibufByte 2)
        r1 := result ts.length
        r2 := result pos }) := by
  simp only [execDecStatus, raise_eq, finish_eq] at h
  split at h
  · exact .inl ⟨.eBadSnbits, by decide, by cases h; rfl⟩
  · rename_i f hf
    split at h
    · exact .inl ⟨.eBufRange, by decide, by cases h; rfl⟩
    split at h
    · exact .inl ⟨.eShortPdu, by decide, by cases h; rfl⟩
    split at h
    · exact .inl ⟨.eNotStatus, by decide, by cases h; rfl⟩
    split at h
    · exact .inl ⟨.eBadCpt, by decide, by cases h; rfl⟩
    split at h
    · exact .inl ⟨.eShortPdu, by decide, by cases h; rfl⟩
    split at h
    · rename_i e he
      refine .inl ⟨e, ?_, by cases h; rfl⟩
      rcases readEntries_error he with rfl | rfl <;> decide
    · rename_i h1 h2 h3 h4 h5 _ ts pos hr
      exact .inr ⟨f, ts, pos, hf, by omega, by omega, by simpa using h3, by simpa using h4, hr, by cases h; rfl⟩

end Sys2Proof.Machine
end

