-- ==== Sys2Proof/Laws/Tracker.lean ====
section
/-!
SUPPORT. The gap algebra of 41_reassembly_tracker.md R112 position by position, the byte store of R114, and what an
accepted tracker command answers.
-/

namespace Sys2Proof.Machine

/-! ### Gaps position by position -/

@[simp] theorem inGaps_nil (p : Nat) : inGaps [] p = false := rfl

@[simp] theorem inGaps_cons (g : Gap) (gs : List Gap) (p : Nat) :
    inGaps (g :: gs) p = ((decide (g.start ≤ p) && decide (p < g.stop)) || inGaps gs p) := rfl

@[simp] theorem inGaps_append (gs hs : List Gap) (p : Nat) : inGaps (gs ++ hs) p = (inGaps gs p || inGaps hs p) := by
  simp [inGaps]

theorem inGaps_eq_true {gs : List Gap} {p : Nat} :
    inGaps gs p = true ↔ ∃ g ∈ gs, g.start ≤ p ∧ p < g.stop := by
  simp [inGaps]

/-- The pieces of a cut gap cover what the gap covers outside the segment. -/
theorem inGaps_cut (g : Gap) {o e : Nat} (h : g.overlap o e ≠ 0) (p : Nat) :
    inGaps (g.cut o e) p = ((decide (g.start ≤ p) && decide (p < g.stop)) && !(decide (o ≤ p) && decide (p < e))) := by
  simp only [Gap.overlap] at h
  simp only [Gap.cut, inGaps_append]
  by_cases h1 : g.start < o <;> by_cases h2 : e < g.stop <;> rw [Bool.eq_iff_iff] <;>
    simp [h1, h2] <;> omega

/-- A segment takes exactly its own positions out of the gap list. -/
theorem inGaps_remaining (gs : List Gap) (o e p : Nat) :
    inGaps (remaining o e gs) p = (inGaps gs p && !(decide (o ≤ p) && decide (p < e))) := by
  induction gs with
  | nil => rfl
  | cons g gs ih =>
    simp only [remaining, inGaps_append, ih, inGaps_cons]
    split
    · rename_i h
      have hg : (decide (g.start ≤ p) && decide (p < g.stop)) =
          ((decide (g.start ≤ p) && decide (p < g.stop)) && !(decide (o ≤ p) && decide (p < e))) := by
        simp only [Gap.overlap] at h
        rw [Bool.eq_iff_iff]
        simp only [Bool.and_eq_true, decide_eq_true_eq, Bool.not_eq_true', Bool.and_eq_false_imp,
          decide_eq_false_iff_not]
        omega
      rw [Bool.and_or_distrib_right, ← hg]
      simp
    · rename_i h
      rw [inGaps_cut g h, Bool.and_or_distrib_right]

/-- A gap left over by a segment, or by nothing, does not overlap the segment. -/
theorem overlap_of_mem_remaining {gs : List Gap} {o e : Nat} {g : Gap} (hg : g ∈ remaining o e gs) :
    g.overlap o e = 0 := by
  induction gs with
  | nil => cases hg
  | cons k gs ih =>
    simp only [remaining, List.mem_append] at hg
    rcases hg with hg | hg
    · split at hg
      · rename_i h
        simp only [List.mem_singleton] at hg
        rwa [hg]
      · simp only [Gap.cut, List.mem_append, List.mem_ite_nil_right, List.mem_singleton] at hg
        rcases hg with ⟨_, rfl⟩ | ⟨_, rfl⟩ <;> simp only [Gap.overlap] <;> omega
    · exact ih hg

/-- A segment that overlaps no gap fills nothing and leaves the list as it is. -/
theorem remaining_of_no_overlap {gs : List Gap} {o e : Nat} (h : ∀ g ∈ gs, g.overlap o e = 0) :
    remaining o e gs = gs ∧ newlyFilled o e gs = 0 := by
  induction gs with
  | nil => exact ⟨rfl, rfl⟩
  | cons g gs ih =>
    have hg := h g (by simp)
    obtain ⟨h1, h2⟩ := ih fun k hk => h k (by simp [hk])
    exact ⟨by simp [remaining, hg, h1], by simp [newlyFilled, hg, h2]⟩

theorem mem_closeEnd {gs : List Gap} {g : Gap} : g ∈ closeEnd gs ↔ g ∈ gs ∧ g.isOpen = false := by
  simp [closeEnd]

/-! ### The byte store -/

/-- A segment stores a byte exactly at its positions that lie in a gap; every other position keeps what it has. -/
theorem find?_storeSegment (s : State) (gs : List Gap) (o src n : Nat) (d : Memory Byte) (p : Nat) :
    (s.storeSegment gs o src n d).find? p =
      if (o ≤ p ∧ p < o + n) ∧ inGaps gs p = true then some (s.ibufByte (src + (p - o))) else d.find? p := by
  induction n with
  | zero =>
    rw [if_neg (by omega)]
    rfl
  | succ n ih =>
    simp only [State.storeSegment]
    by_cases hp : p = o + n
    · subst hp
      by_cases hg : inGaps gs (o + n) = true
      · rw [if_pos hg, Memory.find?_set_same, if_pos ⟨by omega, hg⟩]
        congr 3
        omega
      · rw [if_neg hg, ih, if_neg (by omega), if_neg (by tauto)]
    · have hiff : (o ≤ p ∧ p < o + (n + 1)) ↔ (o ≤ p ∧ p < o + n) := by omega
      by_cases hg : inGaps gs (o + n) = true
      · rw [if_pos hg, Memory.find?_set_other _ _ hp, ih]
        simp only [hiff]
      · rw [if_neg hg, ih]
        simp only [hiff]

/-- The byte store keeps the canonical form of `data[c]`. -/
theorem wf_storeSegment (s : State) (gs : List Gap) (o src n : Nat) {size : Nat} {d : Memory Byte}
    (hn : o + n ≤ size) (h : d.wf size = true) : (s.storeSegment gs o src n d).wf size = true := by
  induction n with
  | zero => exact h
  | succ n ih =>
    simp only [State.storeSegment]
    split
    · exact Memory.wf_set _ _ (by omega) (ih (by omega))
    · exact ih (by omega)

/-! ### What the tracker commands answer -/

/-- An `RT_SEG` that goes on either raises one error and changes nothing else, or accepts the segment. -/
theorem execRtSeg_cases {c : Nat} {last : Bool} {s t : State} (h : execRtSeg c last s = .next t) :
    (∃ e, e ≠ .ok ∧ t = { s with status := e }) ∨
    (c < s.params.nCtx ∧ s.a1.toNat ≠ 0 ∧ s.a2.toNat + s.a1.toNat ≤ s.params.ibufBytes ∧
      s.a0.toNat + s.a1.toNat ≤ Config.maxSdu ∧
      (s.ctx c).conflicts last (s.a0.toNat + s.a1.toNat) = false ∧
      ((s.ctx c).gapsAfter last s.a0.toNat (s.a0.toNat + s.a1.toNat)).length ≤ s.params.maxGaps ∧
      t = { s.setCtx c (s.accept (s.ctx c) last s.a0.toNat s.a1.toNat s.a2.toNat) with
        status := .ok
        r0 := result (s.a1.toNat - newlyFilled s.a0.toNat (s.a0.toNat + s.a1.toNat) (s.ctx c).gaps)
        r1 := result (yesNo ((s.ctx c).gapsAfter last s.a0.toNat (s.a0.toNat + s.a1.toNat)).isEmpty) }) := by
  simp only [execRtSeg, raise_eq, finish_eq] at h
  split at h
  · exact .inl ⟨.eBadCtx, by decide, by cases h; rfl⟩
  split at h
  · exact .inl ⟨.eBadArg, by decide, by cases h; rfl⟩
  split at h
  · exact .inl ⟨.eBufRange, by decide, by cases h; rfl⟩
  split at h
  · exact .inl ⟨.eSegRange, by decide, by cases h; rfl⟩
  split at h
  · exact .inl ⟨.eSegInconsistent, by decide, by cases h; rfl⟩
  split at h
  · exact .inl ⟨.eGapFull, by decide, by cases h; rfl⟩
  · rename_i h1 h2 h3 h4 h5 h6
    exact .inr ⟨by omega, h2, by omega, by omega, by simpa using h5, by omega, by cases h; rfl⟩

/-- An `RT_GET` that goes on either raises one error or copies a complete SDU out and frees the context. -/
theorem execRtGet_cases {c : Nat} {s t : State} (h : execRtGet c s = .next t) :
    (∃ e, e ≠ .ok ∧ t = { s with status := e }) ∨
    (c < s.params.nCtx ∧ (s.ctx c).gaps = [] ∧ (s.ctx c).totLen ≤ s.params.obufBytes ∧
      t = { (s.writeObuf (s.dataFrom c 0 (s.ctx c).totLen)).freshen c with
        status := .ok, r0 := result (s.ctx c).totLen }) := by
  simp only [execRtGet, raise_eq, finish_eq] at h
  split at h
  · exact .inl ⟨.eBadCtx, by decide, by cases h; rfl⟩
  split at h
  · exact .inl ⟨.eNotComplete, by decide, by cases h; rfl⟩
  split at h
  · cases h
  · rename_i h1 h2 h3
    exact .inr ⟨by omega, by simpa using h2, by omega, by cases h; rfl⟩

/-- An `RT_DROP` that goes on either raises `E_BAD_CTX` or frees the context. -/
theorem execRtDrop_cases {c : Nat} {s t : State} (h : execRtDrop c s = .next t) :
    (∃ e, e ≠ .ok ∧ t = { s with status := e }) ∨
    (c < s.params.nCtx ∧
      t = { s.freshen c with status := .ok, r0 := result (s.ctx c).segCnt, r1 := result (s.ctx c).byteCnt }) := by
  simp only [execRtDrop, raise_eq, finish_eq] at h
  split at h
  · exact .inl ⟨.eBadCtx, by decide, by cases h; rfl⟩
  · exact .inr ⟨by omega, by cases h; rfl⟩

/-- An `RT_MISS` that goes on either raises `E_BAD_CTX` or answers in `R0`. -/
theorem execRtMiss_cases {c : Nat} {s t : State} (h : execRtMiss c s = .next t) :
    (∃ e, e ≠ .ok ∧ t = { s with status := e }) ∨
    (c < s.params.nCtx ∧ t = { s with status := .ok, r0 := result (yesNo (!(s.ctx c).gaps.isEmpty)) }) := by
  simp only [execRtMiss, raise_eq, finish_eq] at h
  split at h
  · exact .inl ⟨.eBadCtx, by decide, by cases h; rfl⟩
  · exact .inr ⟨by omega, by cases h; rfl⟩

/-- An `RT_LIST` that goes on either raises `E_BAD_CTX` or lists the gaps. -/
theorem execRtList_cases {c : Nat} {s t : State} (h : execRtList c s = .next t) :
    (∃ e, e ≠ .ok ∧ t = { s with status := e }) ∨
    (c < s.params.nCtx ∧ (s.ctx c).gaps.length ≤ s.params.maxGaps ∧
      t = { s.writeGout ((s.ctx c).gaps.map Gap.pair) with
        status := .ok, r0 := result (s.ctx c).gaps.length }) := by
  simp only [execRtList, raise_eq, finish_eq] at h
  split at h
  · exact .inl ⟨.eBadCtx, by decide, by cases h; rfl⟩
  split at h
  · cases h
  · exact .inr ⟨by omega, by omega, by cases h; rfl⟩

end Sys2Proof.Machine
end

