-- ==== Sys2Proof/Tests/Slice0.lean ====
section
/-!
SUPPORT. The model's own tests: well-formedness, words written out bit by bit, single steps with results from
spec/95_test_vectors.md, and for every statement with hypotheses a state and operands that meet them.
-/

namespace Sys2Proof.Tests

open Sys2Proof Sys2Proof.Machine

/-! ### Helpers -/

/-- The outcome is a next state that passes the check. -/
def nextIs (o : Out) (p : State → Bool) : Bool :=
  match o with
  | .next t => p t
  | .fault _ => false
  | .refused _ => false

/-- The next state, where there is one. -/
def after (o : Out) : State :=
  match o with
  | .next t => t
  | .fault _ => State.reset
  | .refused _ => State.reset

theorem eq_next_after {o : Out} (h : nextIs o (fun _ => true) = true) : o = .next (after o) := by
  cases o with
  | next t => rfl
  | fault f => cases h
  | refused r => cases h

/-- The step answers a next state, one that passes the check. -/
theorem next_with {o : Out} {P : State → Prop} (h : nextIs o (fun _ => true) = true) (hp : P (after o)) :
    ∃ t, o = .next t ∧ P t :=
  ⟨after o, eq_next_after h, hp⟩

/-- A state with the first three argument registers loaded. -/
def args (s : State) (x y z : Nat) : State :=
  { s with a0 := BitVec.ofNat 32 x, a1 := BitVec.ofNat 32 y, a2 := BitVec.ofNat 32 z }

/-- A state with bytes in `IBUF` from address 0. -/
def input (s : State) (bs : List Byte) : State := { s with ibuf := s.ibuf.setList 0 bs }

/-- A state with entries in `NTAB` from index 0. -/
def table (s : State) (ts : List NackEntry) : State := { s with ntab := s.ntab.setList 0 ts }

/-- A state in which the host has one move to make. -/
def host (m : HostMove) : State := { State.reset with moves := [m] }

/-- The first bytes of `OBUF`. -/
def output (s : State) (n : Nat) : List Byte := (List.range n).map s.obufByte

/-- An entry without optional fields. -/
def plain (sn : Nat) : NackEntry :=
  { nackSn := BitVec.ofNat 18 sn, e2 := false, e3 := false, soStart := 0, soEnd := 0, range := 0 }

/-- A context that holds bytes 4 to 7 (95_test_vectors.md P2). -/
def partialCtx : Ctx :=
  { gaps := [⟨0, 4⟩, ⟨8, 65535⟩], lastSeen := false, totLen := 0, segCnt := 1, byteCnt := 4
    data := [(4, 0x45#8), (5, 0x46#8), (6, 0x47#8), (7, 0x48#8)] }

/-- A context that holds a whole SDU of one byte. -/
def completeCtx : Ctx := { gaps := [], lastSeen := true, totLen := 1, segCnt := 1, byteCnt := 1, data := [(0, 0x61#8)] }

/-- A block with three contexts: one in progress, one complete, one fresh. -/
def three : State :=
  { State.resetWith { Params.vectors with nCtx := 3 } with ctxs := [partialCtx, completeCtx, Ctx.fresh] }

/-! ### Well-formedness: a context index that does not fit its field is refused -/

theorem test_wf_rtSeg : WellFormed (.rtSeg 256 false) = false ∧ WellFormed (.rtSeg 255 false) = true := by decide
theorem test_wf_rtGet : WellFormed (.rtGet 256) = false ∧ WellFormed (.rtGet 255) = true := by decide
theorem test_wf_rtDrop : WellFormed (.rtDrop 256) = false ∧ WellFormed (.rtDrop 255) = true := by decide
theorem test_wf_rtMiss : WellFormed (.rtMiss 256) = false ∧ WellFormed (.rtMiss 255) = true := by decide
theorem test_wf_rtList : WellFormed (.rtList 256) = false ∧ WellFormed (.rtList 255) = true := by decide

/-! ### Words written out from 30_encoding.md R71 and R72: OP, CTX, RSV, LAST, POLL, SI, MODE, KSEL -/

theorem test_word_snAdd : decode 0b00010000_00000000_000000000_0_0_00_0_10#32 = .ok (.snAdd .k18) := by decide
theorem test_word_snDist : decode 0b00010001_00000000_000000000_0_0_00_0_00#32 = .ok (.snDist .k6) := by decide
theorem test_word_snCmp : decode 0b00010010_00000000_000000000_0_0_00_0_01#32 = .ok (.snCmp .k12) := by decide
theorem test_word_snInwin : decode 0b00010011_00000000_000000000_0_0_00_0_11#32 = .ok (.snInwin .reserved) := by decide
theorem test_word_rtSeg : decode 0b00100000_00000101_000000000_1_0_00_0_00#32 = .ok (.rtSeg 5 true) := by decide
theorem test_word_rtGet : decode 0b00100001_10000000_000000000_0_0_00_0_00#32 = .ok (.rtGet 128) := by decide
theorem test_word_rtDrop : decode 0b00100010_00000001_000000000_0_0_00_0_00#32 = .ok (.rtDrop 1) := by decide
theorem test_word_rtMiss : decode 0b00100011_11111111_000000000_0_0_00_0_00#32 = .ok (.rtMiss 255) := by decide
theorem test_word_rtList : decode 0b00100100_00000010_000000000_0_0_00_0_00#32 = .ok (.rtList 2) := by decide
theorem test_word_encData : decode 0b00110000_00000000_000000000_0_1_10_1_01#32 = .ok (.encData true .last .am .k12) := by
  decide
theorem test_word_decData : decode 0b00110001_00000000_000000000_0_0_00_1_10#32 = .ok (.decData .am .k18) := by decide
theorem test_word_encStatus : decode 0b01000000_00000000_000000000_0_0_00_1_01#32 = .ok (.encStatus .k12) := by decide
theorem test_word_decStatus : decode 0b01000001_00000000_000000000_0_0_00_1_10#32 = .ok (.decStatus .k18) := by decide

/-- 95_test_vectors.md V60-3: words that are no command. -/
theorem test_word_illegal :
    [0x00000000#32, 0x14000000#32, 0xFF000000#32, 0x20000080#32, 0x20000020#32, 0x21000040#32, 0x31000008#32,
      0x10010000#32, 0x41000001#32].all (fun w => (decode w).isOk == false) = true := by
  decide

/-! ### Single steps (expected results from spec/95_test_vectors.md) -/

/-- V40-5. -/
theorem test_snAdd_wraps : nextIs (exec (.snAdd .k18) (args .reset 200000 100000 0)) (fun t => t.r0 == 37856#32) = true := by
  decide

/-- V40-35: all 32 bits are compared. -/
theorem test_snAdd_whole_register :
    nextIs (exec (.snAdd .k6) (args .reset 0x00010005 0 0)) (fun t => t.status == .eBadArg && t.r0 == 0#32) = true := by
  decide

/-- V40-18. -/
theorem test_snDist_wraps : nextIs (exec (.snDist .k12) (args .reset 4000 100 0)) (fun t => t.r0 == 196#32) = true := by
  decide

/-- V40-12 and V40-9. -/
theorem test_snCmp_reference :
    nextIs (exec (.snCmp .k6) (args .reset 10 9 10)) (fun t => t.r0 == 2#32) = true ∧
    nextIs (exec (.snCmp .k6) (args .reset 60 62 1)) (fun t => t.r0 == 1#32) = true := by
  decide

/-- V40-23 and V40-24: the last SN inside the window and the first outside. -/
theorem test_snInwin_edge :
    nextIs (exec (.snInwin .k12) (args .reset 4000 1951 2048)) (fun t => t.r0 == 1#32) = true ∧
    nextIs (exec (.snInwin .k12) (args .reset 4000 1952 2048)) (fun t => t.r0 == 0#32 && t.status == .ok) = true := by
  decide

/-- V41-8, first two steps: a segment past the known end contradicts it. -/
theorem test_rtSeg_inconsistent :
    nextIs (exec (.rtSeg 0 true) (args .reset 4 4 0)) (fun t =>
      (t.ctx 0).gaps == [⟨0, 4⟩] && (t.ctx 0).totLen == 8 && t.r1 == 0#32 &&
      nextIs (exec (.rtSeg 0 false) (args t 6 4 0)) (fun u => u.status == .eSegInconsistent)) = true := by
  decide

/-- V41-4, last step: two duplicate bytes and two new ones. -/
theorem test_rtSeg_overlap :
    nextIs (exec (.rtSeg 0 false) (args .reset 0 4 0)) (fun t =>
      nextIs (exec (.rtSeg 0 false) (args t 2 4 0)) (fun u =>
        u.r0 == 2#32 && (u.ctx 0).gaps == [⟨6, 65535⟩] && (u.ctx 0).segCnt == 2 && (u.ctx 0).byteCnt == 6)) = true := by
  decide

/-- V41-14: a fresh context is not complete. A complete one is read out (41_reassembly_tracker.md R118). -/
theorem test_rtGet :
    nextIs (exec (.rtGet 0) .reset) (fun t => t.status == .eNotComplete) = true ∧
    nextIs (exec (.rtGet 1) three) (fun t => t.r0 == 1#32 && output t 1 == [0x61#8] && t.ctx 1 == Ctx.fresh) = true := by
  decide

/-- 41_reassembly_tracker.md R120. -/
theorem test_rtDrop :
    nextIs (exec (.rtDrop 0) three) (fun t => t.r0 == 1#32 && t.r1 == 4#32 && t.ctx 0 == Ctx.fresh) = true := by
  decide

/-- V41-14, and 0 for a complete context (41_reassembly_tracker.md R122). -/
theorem test_rtMiss :
    nextIs (exec (.rtMiss 0) .reset) (fun t => t.r0 == 1#32) = true ∧
    nextIs (exec (.rtMiss 1) three) (fun t => t.r0 == 0#32) = true := by
  decide

/-- P2: the gaps `(0, 4), (8, 0xFFFF)`. -/
theorem test_rtList :
    nextIs (exec (.rtList 0) three)
      (fun t => t.r0 == 2#32 && t.goutPair 0 == ⟨0, 4⟩ && t.goutPair 1 == ⟨8, 0xFFFF⟩) = true := by
  decide

/-- V42-1, UM 12 Last and AM 18 Middle. -/
theorem test_encData :
    nextIs (exec (.encData false .last .um .k12) (args .reset 0xABC 0x1234 0))
      (fun t => t.r0 == 4#32 && output t 4 == [0x8A#8, 0xBC#8, 0x12#8, 0x34#8]) = true ∧
    nextIs (exec (.encData true .middle .am .k18) (args .reset 0x2ABCD 0x1234 0))
      (fun t => t.r0 == 5#32 && output t 5 == [0xF2#8, 0xAB#8, 0xCD#8, 0x12#8, 0x34#8]) = true := by
  decide

/-- V42-3, AM 18 with reserved bits set. -/
theorem test_decData_ignores_reserved :
    nextIs (exec (.decData .am .k18) (args (input .reset [0xAE#8, 0xAB#8, 0xCD#8, 0x01#8, 0x2C#8, 0xFF#8]) 6 0 0))
      (fun t => t.r0 == 2#32 && t.r1 == 0#32 && t.r2 == 175053#32 && t.r3 == 300#32 && t.r4 == 5#32 && t.r5 == 1#32)
      = true := by
  decide

/-- V42-3: `D/C` is tested before the length. -/
theorem test_decData_order :
    nextIs (exec (.decData .am .k12) (args (input .reset [0x00#8]) 1 0 0)) (fun t => t.status == .eNotData) = true := by
  decide

/-- The table of 95_test_vectors.md V43-3. -/
def budgetTable : List NackEntry :=
  [plain 2,
   { plain 4 with e2 := true, soStart := 100, soEnd := 0xFFFF },
   { plain 7 with e3 := true, range := 3 },
   { plain 12 with e2 := true, e3 := true, soStart := 0, soEnd := 49, range := 2 }]

/-- V43-3, budget 11: equality includes, and the ACK SN is lowered. -/
theorem test_encStatus_truncates :
    nextIs (exec (.encStatus .k12) (args (table .reset budgetTable) 20 4 11))
      (fun t => t.r0 == 11#32 && t.r1 == 2#32 && t.r2 == 7#32 && t.r3 == 1#32 &&
        output t 11 == [0x00#8, 0x07#8, 0x80#8, 0x00#8, 0x28#8, 0x00#8, 0x44#8, 0x00#8, 0x64#8, 0xFF#8, 0xFF#8])
      = true := by
  decide

/-- V43-4, last row. -/
theorem test_encStatus_whole :
    nextIs (exec (.encStatus .k18) (args (table .reset budgetTable) 20 4 25))
      (fun t => t.r0 == 25#32 && t.r1 == 4#32 && t.r3 == 0#32 &&
        output t 25 == [0x00#8, 0x00#8, 0x52#8, 0x00#8, 0x00#8, 0xA0#8, 0x00#8, 0x01#8, 0x30#8, 0x00#8, 0x64#8, 0xFF#8,
          0xFF#8, 0x00#8, 0x01#8, 0xE8#8, 0x03#8, 0x00#8, 0x03#8, 0x18#8, 0x00#8, 0x00#8, 0x00#8, 0x31#8, 0x02#8])
      = true := by
  decide

/-- V43-9: reserved bits are ignored. -/
theorem test_decStatus_ignores_reserved :
    nextIs (exec (.decStatus .k12) (args (input .reset [0x00#8, 0x05#8, 0xFF#8, 0x00#8, 0x21#8]) 5 0 0))
      (fun t => t.r0 == 5#32 && t.r1 == 1#32 && t.r2 == 5#32 && t.ntabEntry 0 == plain 2) = true := by
  decide

/-- V43-9: a fifth entry announced. -/
theorem test_decStatus_overflow :
    nextIs (exec (.decStatus .k12) (args (input .reset
      [0x00#8, 0x09#8, 0x80#8, 0x00#8, 0x18#8, 0x00#8, 0x28#8, 0x00#8, 0x38#8, 0x00#8, 0x48#8, 0x00#8, 0x50#8]) 13 0 0))
      (fun t => t.status == .eNackOvf && t.ntab == []) = true := by
  decide

/-- V10-1. -/
theorem test_cap : State.reset.capWord = 0x00040402#32 := by decide

/-- The first step after reset runs the word placed next (V40-1). -/
theorem test_step_runs_word :
    nextIs (step ((args .reset 63 1 0).withFetchWord 32 0x10000000)) (fun t => t.status == .ok && t.r0 == 0#32) = true ∧
    nextIs (step (State.reset.withFetchWord 32 0xFF000000)) (fun t => t.status == .eIllegal) = true := by
  decide

/-- P1: `RD R0` and `RD OBUF[0..2]` after `ENC_DATA`, in one move. -/
theorem test_read_range :
    nextIs (exec (.encData false .last .um .k6) (args .reset 0 7 0)) (fun t =>
      nextIs (step { t with moves := [.rd [.place (.res .r0), .range .obuf 0 2]] }) (fun u =>
        u.reply == some [.word 3, .byte 0x80#8, .byte 0x00#8, .byte 0x07#8] && u.moves == [])) = true := by
  decide

/-! ### Witnesses: the hypotheses of each statement are met, clause by clause -/

theorem partialCtx_gapInv : partialCtx.GapInv 4 := by
  refine ⟨by decide, by decide, ?_, by decide, by decide, by decide, by decide⟩
  simp [partialCtx, Gap.isOpen, Config.endUnknown]

theorem completeCtx_gapInv : completeCtx.GapInv 4 := by
  refine ⟨by decide, by decide, ?_, by decide, by decide, by decide, by decide⟩
  simp [completeCtx]

theorem fresh_gapInv : Ctx.fresh.GapInv 4 := by
  refine ⟨by decide, by decide, ?_, by decide, by decide, by decide, by decide⟩
  simp [Ctx.fresh, Gap.isOpen]

theorem partialCtx_byteInv : partialCtx.ByteInv := by
  refine ⟨by decide, ?_, by decide, by decide, by decide, by decide, by decide⟩
  intro p
  by_cases hp : p < 8
  · have h : ∀ q < 8, (partialCtx.data.find? q).isSome = partialCtx.received q := by decide
    exact h p hp
  · have h1 : partialCtx.data.find? p = none := Memory.find?_eq_none_of_size_le (size := 8) _ (by decide) (by omega)
    have h2 : partialCtx.high = 8 := by decide
    simp [h1, Ctx.received, h2, hp]

theorem completeCtx_byteInv : completeCtx.ByteInv := by
  refine ⟨by decide, ?_, by decide, by decide, by decide, by decide, by decide⟩
  intro p
  have h2 : completeCtx.high = 1 := by decide
  by_cases hp : p = 0
  · subst hp
    decide
  · have h1 : completeCtx.data.find? p = none := Memory.find?_eq_none_of_size_le (size := 1) _ (by decide) (by omega)
    simp [h1, Ctx.received, h2, hp]

theorem fresh_byteInv : Ctx.fresh.ByteInv := by
  refine ⟨by decide, ?_, by decide, by decide, by decide, by decide, by decide⟩
  intro p
  have h2 : Ctx.fresh.high = 0 := by decide
  have h1 : Ctx.fresh.data.find? p = none := rfl
  simp [Ctx.received, h2, h1]

/-- The invariant holds of a block with a context in progress, a complete one and a fresh one. -/
theorem test_witness_inv : three.Inv := by
  refine ⟨⟨by decide, by decide, by decide, by decide⟩, ⟨by decide, by decide, ?_⟩, ?_⟩
  · intro x hx
    simp only [three, List.mem_cons, List.not_mem_nil, or_false] at hx
    rcases hx with rfl | rfl | rfl
    · exact partialCtx_gapInv
    · exact completeCtx_gapInv
    · exact fresh_gapInv
  · intro x hx
    simp only [three, List.mem_cons, List.not_mem_nil, or_false] at hx
    rcases hx with rfl | rfl | rfl
    · exact partialCtx_byteInv
    · exact completeCtx_byteInv
    · exact fresh_byteInv

/-- The invariant does not speak of the argument registers. -/
theorem inv_args {s : State} (h : s.Inv) (x y z : Nat) : (args s x y z).Inv :=
  ⟨⟨h.spaces.ibuf, h.spaces.obuf, h.spaces.ntab, h.spaces.gout⟩, ⟨h.gaps.params, h.gaps.ctxCount, h.gaps.gaps⟩, h.bytes⟩

/-- The invariant does not speak of the host's moves. -/
theorem inv_withCommand {s : State} (h : s.Inv) (w : Word) : (s.withCommand w).Inv :=
  ⟨⟨h.spaces.ibuf, h.spaces.obuf, h.spaces.ntab, h.spaces.gout⟩, ⟨h.gaps.params, h.gaps.ctxCount, h.gaps.gaps⟩, h.bytes⟩

/-! #### The command word -/

theorem test_witness_DecodeOfEncode : WellFormed (.rtSeg 255 true) = true ∧ WellFormed (.rtSeg 0 false) = true := by decide

theorem test_witness_EncodeOfDecode : decode 0x20FF0040#32 = .ok (.rtSeg 255 true) := by decide

theorem test_witness_StepRunsTheDecodedCommand :
    (host (.cmd 0x23010000#32)).moves = .cmd 0x23010000#32 :: [] ∧ decode 0x23010000#32 = .ok (.rtMiss 1) ∧
    decodeTableWord 32 0x23010000 = some (.rtMiss 1) := by
  decide

theorem test_witness_IllegalWordsRaise :
    (host (.cmd 0xFF000000#32)).moves = .cmd 0xFF000000#32 :: [] ∧
    (∀ r : Opcode, 0xFF000000#32 &&& r.mask ≠ r.pattern) ∧
    (∀ r : Opcode, (0x25000000#32).extractLsb 31 24 ≠ r.op) ∧
    (0x20000080#32).extractLsb 31 24 = Opcode.rtSeg.op ∧
      0x20000080#32 &&& Opcode.rtSeg.mask &&& ~~~Opcode.rtSeg.pattern ≠ 0#32 ∧
    (0x40000001#32).extractLsb 31 24 = 0x40#8 ∧ (0x40000001#32).getLsbD 2 = false := by
  refine ⟨rfl, ?_, ?_, by decide, by decide, by decide, by decide⟩ <;> intro r <;> cases r <;> decide

/-! #### Sequence numbers: each clause at the edge of its range -/

theorem test_witness_SnAddAdvancesOnTheRing :
    (KSel.k6, 64) ∈ [(KSel.k6, 64), (KSel.k12, 4096), (KSel.k18, 262144)] ∧
    64 ≤ (args .reset 0 64 0).a1.toNat ∧
    (args .reset 63 63 0).a0.toNat < 64 ∧ (args .reset 63 63 0).a1.toNat < 64 := by
  decide

theorem test_witness_SnDistMeasuresFromTheReference :
    (KSel.k12, 4096) ∈ [(KSel.k6, 64), (KSel.k12, 4096), (KSel.k18, 262144)] ∧
    4096 ≤ (args .reset 4096 0 0).a0.toNat ∧
    (args .reset 4095 0 0).a0.toNat < 4096 ∧ (args .reset 4095 0 0).a1.toNat < 4096 := by
  decide

theorem test_witness_SnCmpOrdersByDistance :
    (KSel.k18, 262144) ∈ [(KSel.k6, 64), (KSel.k12, 4096), (KSel.k18, 262144)] ∧
    262144 ≤ (args .reset 0 0 262144).a2.toNat ∧
    (args .reset 1 262143 0).a0.toNat < 262144 ∧ (args .reset 1 262143 0).a1.toNat < 262144 ∧
      (args .reset 1 262143 0).a2.toNat < 262144 := by
  decide

theorem test_witness_SnInwinTestsTheWindow :
    (KSel.k6, 64) ∈ [(KSel.k6, 64), (KSel.k12, 4096), (KSel.k18, 262144)] ∧
    64 / 2 < (args .reset 5 5 33).a2.toNat ∧
    (args .reset 63 0 32).a0.toNat < 64 ∧ (args .reset 63 0 32).a1.toNat < 64 ∧
      (args .reset 63 0 32).a2.toNat ≤ 64 / 2 := by
  decide

theorem test_witness_RingDistanceLaws : 63 < 2 ^ 6 ∧ 0 < 2 ^ 6 ∧ 0 ≠ 63 := by decide

theorem test_witness_WindowAndOrderLaws :
    (KSel.k6, 64) ∈ [(KSel.k6, 64), (KSel.k12, 4096), (KSel.k18, 262144)] ∧
    (args .reset 63 0 32).a0.toNat < 64 ∧ (args .reset 63 0 32).a1.toNat < 64 ∧
      (args .reset 63 0 32).a2.toNat = 64 / 2 ∧ (args .reset 63 0 32).a2.toNat < 64 := by
  decide

/-! #### Errors and frames -/

theorem test_witness_BadWidthsRaise :
    Instr.encStatus .k6 ∈ [.snAdd .reserved, .snDist .reserved, .snCmp .reserved, .snInwin .reserved,
      .encData true .whole .um .k18, .encData true .whole .um .reserved, .encData true .whole .am .k6,
      .encData true .whole .am .reserved, .decData .um .k18, .decData .um .reserved, .decData .am .k6,
      .decData .am .reserved, .encStatus .k6, .encStatus .reserved, .decStatus .k6, .decStatus .reserved] := by
  decide

theorem test_witness_BadContextsRaise :
    State.reset.params.nCtx ≤ 2 ∧ Instr.rtList 2 ∈ [Instr.rtSeg 2 true, .rtGet 2, .rtDrop 2, .rtMiss 2, .rtList 2] := by
  decide

theorem test_witness_ErrorsChangeOnlyStatus :
    (∃ t, exec (.rtGet 0) three = .next t ∧ t.status ≠ .ok) ∧
    ∃ t, command 0xFF000000#32 three = .next t ∧ t.status ≠ .ok :=
  ⟨next_with (by decide) (by decide), next_with (by decide) (by decide)⟩

theorem test_witness_CommandsLeaveInputsAlone : ∃ t, exec (.rtList 0) three = .next t ∧ t.status = .ok :=
  next_with (by decide) (by decide)

theorem test_witness_OutputsChangeOnlyWhereListed :
    (∃ t, exec (.rtMiss 0) three = .next t ∧ t.status = .ok) ∧
    (Instr.rtMiss 0).opcode ∉ [.rtSeg, .rtDrop, .decData, .encStatus, .decStatus] ∧
    (Instr.rtMiss 0).opcode ∉ [.encData, .encStatus, .rtGet] ∧ (Instr.rtMiss 0).opcode ∉ [.rtList] ∧
    (Instr.rtMiss 0).opcode ∉ [.rtSeg, .rtGet, .rtDrop] :=
  ⟨next_with (by decide) (by decide), by decide, by decide, by decide, by decide⟩

theorem test_witness_OtherContextsUntouched :
    2 ≠ 0 ∧ ∃ t, exec (.rtSeg 0 false) (args three 0 4 0) = .next t ∧ t.status = .ok :=
  ⟨by decide, next_with (by decide) (by decide)⟩

theorem test_witness_StatusAndSpareAreNeverRead : ∃ t, exec (.rtDrop 0) three = .next t ∧ t.status = .ok :=
  next_with (by decide) (by decide)

theorem test_witness_CodecsIgnoreContexts :
    (Instr.snAdd .k6).opcode ∉ [.rtSeg, .rtGet, .rtDrop, .rtMiss, .rtList] ∧
    ∃ t, exec (.snAdd .k6) (args three 1 1 0) = .next t ∧ t.status = .ok :=
  ⟨by decide, next_with (by decide) (by decide)⟩

/-! #### The tracker -/

theorem test_witness_RtSegErrorsInOrder :
    0 < three.params.nCtx ∧ (args three 0 0 0).a1.toNat = 0 ∧
    (args three 0 10 8996).a1.toNat ≠ 0 ∧
      three.params.ibufBytes < (args three 0 10 8996).a2.toNat + (args three 0 10 8996).a1.toNat ∧
    (args three 8999 2 9003).a2.toNat + (args three 8999 2 9003).a1.toNat ≤ three.params.ibufBytes ∧
      9000 < (args three 8999 2 9003).a0.toNat + (args three 8999 2 9003).a1.toNat ∧
    Contradicts (three.ctx 0) true 7 ∧ Contradicts (three.ctx 1) true 2 ∧ Contradicts (three.ctx 1) false 2 ∧
    ¬Contradicts (three.ctx 0) false 11 ∧ 1 < ((three.ctx 0).gapsAfter false 10 11).length ∧
    ({ three with params := { three.params with maxGaps := 2 } } : State).params.maxGaps <
      ((three.ctx 0).gapsAfter false 10 11).length := by
  unfold Contradicts
  decide

theorem test_witness_RtSegAcceptsASegment :
    (args three 8996 4 9001).GapsOk ∧ 0 < three.params.nCtx ∧
    (args three 8996 4 9001).a1.toNat ≠ 0 ∧
    (args three 8996 4 9001).a2.toNat + (args three 8996 4 9001).a1.toNat ≤ three.params.ibufBytes ∧
    (args three 8996 4 9001).a0.toNat + (args three 8996 4 9001).a1.toNat ≤ 9000 ∧
    ¬Contradicts (three.ctx 0) true 9000 ∧ ((three.ctx 0).gapsAfter true 8996 9000).length ≤ three.params.maxGaps :=
  ⟨(inv_args test_witness_inv _ _ _).gaps, by decide, by decide, by decide, by decide, by unfold Contradicts; decide, by decide⟩

theorem test_witness_SegmentsFillTheirOwnPositions :
    partialCtx.GapInv three.params.maxGaps ∧ 0 < 1 ∧ 7 + 1 ≤ 9000 ∧ ¬Contradicts partialCtx true (7 + 1) :=
  ⟨partialCtx_gapInv, by decide, by decide, by unfold Contradicts; decide⟩

theorem test_witness_SegmentBytesAreConserved :
    (args three 4 4 0).GapsOk ∧ ∃ t, exec (.rtSeg 0 true) (args three 4 4 0) = .next t ∧ t.status = .ok :=
  ⟨(inv_args test_witness_inv _ _ _).gaps, next_with (by decide) (by decide)⟩

theorem test_witness_ResubmissionChangesNothing :
    (args three 0 3 0).GapsOk ∧ ∃ t, exec (.rtSeg 2 false) (args three 0 3 0) = .next t ∧ t.status = .ok ∧
      (offerMany 2 [⟨2, 2, 0, true⟩, ⟨0, 9, 0, false⟩] t).isSome = true :=
  ⟨(inv_args test_witness_inv _ _ _).gaps, next_with (by decide) (by decide)⟩

theorem test_witness_CompleteContextStaysComplete :
    (args three 0 1 0).GapsOk ∧ ((args three 0 1 0).ctx 1).gaps = [] ∧
    ∃ t, exec (.rtSeg 1 true) (args three 0 1 0) = .next t ∧ t.status = .ok :=
  ⟨(inv_args test_witness_inv _ _ _).gaps, by decide, next_with (by decide) (by decide)⟩

theorem test_witness_AnyOrderReassemblesTheSdu :
    three.Inv ∧ 2 < three.params.nCtx ∧ three.ctx 2 = Ctx.fresh ∧
    (∀ sl ∈ [Slice.mk 1 2, Slice.mk 0 2], 1 ≤ sl.len ∧ sl.off + sl.len ≤ 3) ∧
    (∀ p, p < 3 → ∃ sl ∈ [Slice.mk 1 2, Slice.mk 0 2], sl.off ≤ p ∧ p < sl.off + sl.len) ∧
    (offerAll 2 (fun p => BitVec.ofNat 8 p) 3 [Slice.mk 1 2, Slice.mk 0 2] three).isSome = true :=
  ⟨test_witness_inv, by decide, by decide, by decide, by decide, by decide⟩

theorem test_witness_RtGetReadsOutTheSdu :
    three.Inv ∧ three.params.nCtx ≤ 3 ∧ 0 < three.params.nCtx ∧ (three.ctx 0).gaps ≠ [] ∧ 1 < three.params.nCtx ∧
    (three.ctx 1).gaps = [] :=
  ⟨test_witness_inv, by decide, by decide, by decide, by decide, by decide⟩

theorem test_witness_RtDropDiscardsTheContext : three.Inv ∧ three.params.nCtx ≤ 3 ∧ 2 < three.params.nCtx :=
  ⟨test_witness_inv, by decide, by decide⟩

theorem test_witness_RtMissReportsGaps :
    three.params.nCtx ≤ 3 ∧ 1 < three.params.nCtx ∧ (three.ctx 1).gaps = [] ∧ (three.ctx 2).gaps ≠ [] := by
  decide

theorem test_witness_RtListReportsGaps : three.GapsOk ∧ three.params.nCtx ≤ 3 ∧ 2 < three.params.nCtx :=
  ⟨test_witness_inv.gaps, by decide, by decide⟩

theorem test_witness_QueriesAgreeOnCompletion : three.Inv ∧ 2 < three.params.nCtx := ⟨test_witness_inv, by decide⟩

/-! #### The data-PDU codec -/

theorem test_witness_EncDataWritesTheHeader :
    State.reset.params.ok = true ∧ (args .reset 262143 65535 0).a0.toNat < 2 ^ 18 ∧
    (args .reset 262143 65535 0).a1.toNat < 2 ^ 16 ∧ ¬(Mode.am = .um ∧ true = true) ∧
    (args .reset 63 0 0).a0.toNat < 2 ^ 6 ∧ ¬(Mode.um = .um ∧ false = true) := by
  decide

theorem test_witness_EncDataRejectsOperands :
    2 ^ 6 ≤ (args .reset 64 0 0).a0.toNat ∧ 2 ^ 16 ≤ (args .reset 0 65536 0).a1.toNat ∧
    (Mode.um = .um ∧ true = true) := by
  decide

/-- A UM First header of one byte, and an AM Middle header of five, each without payload. -/
theorem test_witness_DecDataReadsTheHeader :
    (args (input .reset [0x45#8]) 1 0 0).a0.toNat ≤ State.reset.params.ibufBytes ∧
    siNumber .first = ((input .reset [0x45#8]).ibufByte 0).toNat / 64 ∧ hdrLen .um6 .first ≤ 1 ∧
    128 ≤ ((input .reset [0xF3#8]).ibufByte 0).toNat ∧
      siNumber .middle = ((input .reset [0xF3#8]).ibufByte 0).toNat / 16 % 4 ∧ hdrLen .am18 .middle ≤ 5 := by
  decide

theorem test_witness_DecDataErrorsInOrder :
    State.reset.params.ibufBytes < (args .reset 9006 0 0).a0.toNat ∧
    (args .reset 0 0 0).a0.toNat = 0 ∧ (args .reset 9005 0 0).a0.toNat ≤ State.reset.params.ibufBytes ∧
    ((input .reset [0x7F#8]).ibufByte 0).toNat < 128 ∧
    siNumber .last = ((input .reset [0x85#8]).ibufByte 0).toNat / 64 ∧ 2 < hdrLen .um6 .last ∧
    128 ≤ ((input .reset [0x80#8]).ibufByte 0).toNat ∧
      siNumber .whole = ((input .reset [0x80#8]).ibufByte 0).toNat / 16 % 4 ∧ 1 < hdrLen .am12 .whole := by
  decide

theorem test_witness_DataHeaderRoundTrip :
    (∃ t, exec (.encData true .last .am .k12) (args .reset 2 7 0) = .next t ∧
      t.status = .ok ∧ (args (input .reset [0xE0#8, 0x02#8, 0x00#8, 0x07#8]) 4 0 0).a0.toNat = t.r0.toNat + 0 ∧
      ∀ j, j < t.r0.toNat → (input .reset [0xE0#8, 0x02#8, 0x00#8, 0x07#8]).ibufByte j = t.obufByte j) :=
  next_with (by decide) (by decide)

theorem test_witness_DataHeaderReencodes :
    ∃ t, exec (.decData .um .k12) (args (input .reset [0x7A#8, 0xBC#8]) 2 0 0) = .next t ∧
      t.status = .ok ∧ t.r0.toNat = siNumber .first ∧ State.reset.params.ok = true ∧
      (args .reset 0xABC 0 0).a0 = t.r2 ∧ (args .reset 0xABC 0 0).a1 = t.r3 :=
  next_with (by decide) (by decide)

/-! #### The status-PDU codec -/

theorem test_witness_EncStatusErrorsInOrder :
    2 ^ 12 ≤ (args .reset 4096 0 0).a0.toNat ∧ State.reset.params.nNack < (args .reset 0 5 0).a1.toNat ∧
    (args .reset 4095 4 0).a0.toNat < 2 ^ 12 ∧ (args .reset 4095 4 0).a1.toNat ≤ State.reset.params.nNack ∧
    2 ^ 12 ≤ ((table .reset [plain 4096]).ntabEntry 0).nackSn.toNat ∧
    ((table .reset [{ plain 1 with e3 := true }]).ntabEntry 0).e3 = true ∧
      ((table .reset [{ plain 1 with e3 := true }]).ntabEntry 0).range = 0 ∧
    (∀ i, i < 4 → ((table .reset budgetTable).ntabEntry i).nackSn.toNat < 2 ^ 12 ∧
      ¬(((table .reset budgetTable).ntabEntry i).e3 = true ∧ ((table .reset budgetTable).ntabEntry i).range = 0)) ∧
    (args .reset 20 4 2).a2.toNat < 3 := by
  decide

theorem test_witness_EncStatusBuildsThePdu :
    State.reset.params.ok = true ∧ (args .reset 262143 4 3).a0.toNat < 2 ^ 18 ∧
    (args .reset 262143 4 3).a1.toNat ≤ State.reset.params.nNack ∧
    (∀ i, i < 4 → ((table .reset budgetTable).ntabEntry i).nackSn.toNat < 2 ^ 18 ∧
      ¬(((table .reset budgetTable).ntabEntry i).e3 = true ∧ ((table .reset budgetTable).ntabEntry i).range = 0)) ∧
    3 ≤ (args .reset 262143 4 3).a2.toNat := by
  decide

theorem test_witness_BudgetBoundaryIncludesEquality :
    ∃ t, exec (.encStatus .k12) (args (table .reset budgetTable) 20 4 14) = .next t ∧ t.status = .ok :=
  next_with (by decide) (by decide)

/-- Truncated by one byte, and not truncated. -/
theorem test_witness_TruncationLowersTheAckSn :
    (∃ t, exec (.encStatus .k12) (args (table .reset budgetTable) 20 4 20) = .next t ∧
      t.status = .ok ∧ t.r1.toNat < 4) ∧
    (∃ t, exec (.encStatus .k12) (args (table .reset budgetTable) 20 4 21) = .next t ∧
      t.status = .ok ∧ 4 ≤ t.r1.toNat) :=
  ⟨next_with (by decide) (by decide), next_with (by decide) (by decide)⟩

theorem test_witness_StatusPduRoundTrip :
    ∃ t, exec (.encStatus .k12) (args (table .reset [plain 2]) 5 1 5) = .next t ∧
      t.status = .ok ∧ (args (input .reset [0x00#8, 0x05#8, 0x80#8, 0x00#8, 0x20#8]) 5 0 0).a0 = t.r0 ∧
      t.r0.toNat ≤ State.reset.params.ibufBytes ∧ t.r1.toNat ≤ State.reset.params.nNack ∧
      ∀ j, j < t.r0.toNat → (input .reset [0x00#8, 0x05#8, 0x80#8, 0x00#8, 0x20#8]).ibufByte j = t.obufByte j :=
  next_with (by decide) (by decide)

theorem test_witness_StatusPduReencodes :
    ∃ t, exec (.decStatus .k12) (args (input .reset [0x00#8, 0x05#8, 0xFF#8, 0x00#8, 0x21#8]) 5 0 0) = .next t ∧
      t.status = .ok ∧ (args (table .reset [plain 2]) 5 1 5).a0 = t.r0 ∧
      (args (table .reset [plain 2]) 5 1 5).a1 = t.r1 ∧ (args (table .reset [plain 2]) 5 1 5).a2 = t.r2 ∧
      t.r1.toNat ≤ State.reset.params.nNack ∧
      ∀ i, i < t.r1.toNat → (table .reset [plain 2]).ntabEntry i = t.ntabEntry i ∧
        ¬((t.ntabEntry i).e3 = true ∧ (t.ntabEntry i).range = 0) :=
  next_with (by decide) (by decide)

theorem test_witness_LargerBudgetsExtendThePdu :
    (∃ t, exec (.encStatus .k12) (args (table .reset budgetTable) 20 4 13) = .next t ∧ t.status = .ok ∧ t.r1 = 2) ∧
    (∃ u, exec (.encStatus .k12) { args (table .reset budgetTable) 20 4 13 with a2 := 14 } = .next u ∧
      u.status = .ok ∧ u.r1 = 3) ∧
    (∃ u, exec (.encStatus .k12) { args (table .reset budgetTable) 20 4 12 with a2 := 13 } = .next u ∧
      u.status = .ok ∧ u.r1 = 2) :=
  ⟨next_with (by decide) (by decide), next_with (by decide) (by decide), next_with (by decide) (by decide)⟩

theorem test_witness_DecStatusErrorsInOrder :
    State.reset.params.ibufBytes < (args .reset 9006 0 0).a0.toNat ∧ (args .reset 0 0 0).a0.toNat = 0 ∧
    (args .reset 1 0 0).a0.toNat ≤ State.reset.params.ibufBytes ∧
    128 ≤ ((input .reset [0x80#8]).ibufByte 0).toNat ∧
    16 ≤ ((input .reset [0x10#8]).ibufByte 0).toNat ∧ ((input .reset [0x7F#8]).ibufByte 0).toNat < 128 ∧
    ((input .reset [0x0F#8]).ibufByte 0).toNat < 16 ∧ (args .reset 2 0 0).a0.toNat < 3 := by
  decide

/-- A PDU of three bytes with no entry, and the same with `E1` set. -/
theorem test_witness_DecStatusDeliversWholeLists :
    (args (input .reset [0x00#8, 0x05#8, 0x00#8]) 3 0 0).a0.toNat ≤ State.reset.params.ibufBytes ∧
    3 ≤ (args (input .reset [0x00#8, 0x05#8, 0x00#8]) 3 0 0).a0.toNat ∧
    ((input .reset [0x00#8, 0x05#8, 0x00#8]).ibufByte 0).toNat < 16 ∧
    readEntries (input .reset [0x00#8, 0x05#8, 0x00#8]) .sn12 3 4 3 (fixedE1 .sn12 0x00#8) = .ok ([], 3) ∧
    readEntries (input .reset [0x00#8, 0x05#8, 0x80#8]) .sn12 3 4 3 (fixedE1 .sn12 0x80#8) = .error .eShortPdu := by
  refine ⟨by decide, by decide, by decide, rfl, rfl⟩

/-- The number list is what `IBUF` holds in the bits of the masks, checked below the list's length. -/
theorem holds_of_all {s : State} {vs : List Nat} {masks : List Byte}
    (h : (List.range vs.length).all (fun j => vs[j]? == masks[j]?.map fun m => (s.ibufByte j &&& m).toNat) = true) :
    s.ibufHolds vs masks := by
  intro j v m hv hm
  have hj : j < vs.length := (List.getElem?_eq_some_iff.1 hv).1
  have := List.all_eq_true.1 h j (List.mem_range.2 hj)
  rw [hv, hm] at this
  simp only [Option.map_some, beq_iff_eq, Option.some.injEq] at this
  exact this.symm

/-- Every reserved bit set. -/
theorem test_witness_DecStatusReadsTheLayout :
    5 < 2 ^ 12 ∧ (∀ e ∈ [plain 4095], e.nackSn.toNat < 2 ^ 12) ∧ [plain 4095].length ≤ State.reset.params.nNack ∧
    (input .reset [0x00#8, 0x05#8, 0xFF#8, 0xFF#8, 0xF1#8]).ibufHolds
      (fixedFormula .sn12 5 1 ++ entriesFormula .sn12 [plain 4095]) (statusMask .sn12 [plain 4095]) ∧
    (fixedFormula .sn12 5 1 ++ entriesFormula .sn12 [plain 4095]).length ≤
      (args (input .reset [0x00#8, 0x05#8, 0xFF#8, 0xFF#8, 0xF1#8]) 5 0 0).a0.toNat :=
  ⟨by decide, by decide, by decide, holds_of_all (by decide), by decide⟩

/-- Four announced entries fill `NTAB`; one byte of a second entry; an entry cut before its range; with reserved bits
set. -/
theorem test_witness_DecStatusLoopErrors :
    ([plain 1, plain 2, plain 3, plain 4].length = State.reset.params.nNack ∧
      (input .reset [0x00#8, 0x09#8, 0x80#8, 0x00#8, 0x18#8, 0x00#8, 0x28#8, 0x00#8, 0x38#8, 0x00#8, 0x49#8]).ibufHolds
        (fixedFormula .sn12 9 1 ++ chainFormula .sn12 [plain 1, plain 2, plain 3, plain 4])
        (statusMask .sn12 [plain 1, plain 2, plain 3, plain 4])) ∧
    ([plain 1].length < State.reset.params.nNack ∧
      (input .reset [0x00#8, 0x09#8, 0xFF#8, 0x00#8, 0x19#8]).ibufHolds
        (fixedFormula .sn12 9 1 ++ chainFormula .sn12 [plain 1]) (statusMask .sn12 [plain 1]) ∧
      (args .reset 6 0 0).a0.toNat < (fixedFormula .sn12 9 1 ++ chainFormula .sn12 [plain 1]).length + 2) ∧
    ((input .reset [0x00#8, 0x09#8, 0xFF#8, 0x00#8, 0x13#8, 0x03#8]).ibufHolds
        ((fixedFormula .sn12 9 1 ++ chainFormula .sn12 []) ++
          entryFormula .sn12 0 { plain 1 with e3 := true, range := 3 })
        (statusMask .sn12 ([] ++ [{ plain 1 with e3 := true, range := 3 }])) ∧
      (args .reset 5 0 0).a0.toNat < (fixedFormula .sn12 9 1 ++ chainFormula .sn12 []).length +
        (entryFormula .sn12 0 { plain 1 with e3 := true, range := 3 }).length) :=
  ⟨⟨by decide, holds_of_all (by decide)⟩, ⟨by decide, holds_of_all (by decide), by decide⟩,
    holds_of_all (by decide), by decide⟩

theorem test_witness_DecodersReadOnlyThePdu :
    (Instr.decData .um .k6).opcode ∈ [Opcode.decData, .decStatus] ∧
    (∀ j, j < (args (input .reset [0x45#8]) 1 0 0).a0.toNat →
      (input .reset [0x45#8, 0x99#8]).ibufByte j = (input .reset [0x45#8]).ibufByte j) ∧
    ∃ t, exec (.decData .um .k6) (args (input .reset [0x45#8]) 1 0 0) = .next t ∧ t.status = .ok :=
  ⟨by decide, by decide, next_with (by decide) (by decide)⟩

/-! #### The host's moves and the invariants -/

theorem test_witness_CapReportsTheParameters :
    three.params.ok = true ∧ ∃ t, step (host .reset) = .next t ∧ t.params = Params.vectors :=
  ⟨by decide, next_with (by decide) (by decide)⟩

theorem test_witness_ResetLeavesTheResetState : (host .reset).moves = .reset :: [] := by decide

theorem test_witness_HostMovesTouchOnlyTheirPlace :
    State.reset.moves = [] ∧ (host (.wr .a3 7)).moves = .wr .a3 7 :: [] ∧
    (host (.wrb 9003 [1, 2])).moves = .wrb 9003 [1, 2] :: [] ∧ 9003 + [1, 2].length ≤ State.reset.params.ibufBytes ∧
    (host (.wrn 3 (plain 1))).moves = .wrn 3 (plain 1) :: [] ∧ 3 < State.reset.params.nNack ∧
    (host (.writeIgnored (.res .r5) 1)).moves = .writeIgnored (.res .r5) 1 :: [] ∧
    (host (.rd [.place .status])).moves = .rd [.place .status] :: [] := by
  decide

/-- The last byte of `OBUF` and the last entry of `GOUT` are read-only places, and so are `STATUS` and `CAP`. -/
theorem test_witness_ignored_writes :
    State.reset.hasReadOnly (.res .r5) ∧ State.reset.hasReadOnly .status ∧ State.reset.hasReadOnly .cap ∧
    State.reset.hasReadOnly (.obuf 8999) ∧ State.reset.hasReadOnly (.gout 3) ∧
    ¬State.reset.hasReadOnly (.obuf 9000) ∧ ¬State.reset.hasReadOnly (.gout 4) := by
  unfold State.hasReadOnly
  decide

/-- Places the host reads, the last of each space among them. -/
theorem test_witness_reads :
    State.reset.Reads (.arg .a3) (.word 0) ∧ State.reset.Reads (.res .r5) (.word 0) ∧
    State.reset.Reads .status (.word 0) ∧ State.reset.Reads .cap (.word 0x00040402#32) ∧
    State.reset.Reads (.ibuf 9004) (.byte (State.reset.ibufByte 9004)) ∧
    State.reset.Reads (.obuf 8999) (.byte (State.reset.obufByte 8999)) ∧
    State.reset.Reads (.ntab 3) (.nack (State.reset.ntabEntry 3)) ∧
    State.reset.Reads (.gout 3) (.pair (State.reset.goutPair 3)) :=
  ⟨.a3, .r5, .status, .cap, .ibuf (by decide), .obuf (by decide), .ntab (by decide), .gout (by decide)⟩

/-- A register and the last entries of each space, read in one move. -/
theorem test_witness_read_items :
    ∃ vss, List.Forall₂ State.reset.ReadsItem
      [.place (.res .r0), .range .ibuf 9003 (9003 + 1), .range .obuf 8998 (8998 + 1), .range .ntab 2 (2 + 1),
        .range .gout 0 (0 + 3)] vss :=
  ⟨_, .cons (.place .r0) (.cons (.ibuf (by decide)) (.cons (.obuf (by decide)) (.cons (.ntab (by decide))
    (.cons (.gout (by decide)) .nil))))⟩

/-- A step from a state that meets the invariant, which fills a gap. -/
theorem test_witness_StepKeepsTheInvariant :
    ((args three 0 4 0).withCommand 0x20000000#32).Inv ∧
    ∃ t, step ((args three 0 4 0).withCommand 0x20000000#32) = .next t ∧
      t.status = .ok ∧ (t.ctx 0).gaps = [⟨8, 65535⟩] :=
  ⟨inv_withCommand (inv_args test_witness_inv _ _ _) _, next_with (by decide) (by decide)⟩

theorem test_witness_NoCommandStopsTheMachine :
    (three.withCommand 0xFF000000#32).Inv ∧ (three.withCommand 0xFF000000#32).moves = .cmd 0xFF000000#32 :: [] :=
  ⟨inv_withCommand test_witness_inv _, by decide⟩

end Sys2Proof.Tests
end

/-!
SUPPORT. The state of the block (10_state.md): what a step can do to it, the invariants of 10_state.md R36, what no
command reads or writes, and the host's moves.
-/

/-! ### What a command and a step can do -/

namespace Sys2Proof.Machine

/-- A segment of `n` bytes at offset `o` passes the tests of 41_reassembly_tracker.md R114 that concern the context. -/
structure Ctx.Admits (maxGaps : Nat) (x : Ctx) (last : Bool) (o n : Nat) : Prop where
  nonempty : n ≠ 0
  inRange : o + n ≤ Config.maxSdu
  fits : x.conflicts last (o + n) = false
  room : (x.gapsAfter last o (o + n)).length ≤ maxGaps

/-- What a command can do to the contexts `xs`: leave them, free one, or let one accept a segment it admits. -/
inductive CommandOnContexts (p : Params) (xs : List Ctx) : List Ctx → Prop where
  | kept : CommandOnContexts p xs xs
  | freed (c : Nat) : CommandOnContexts p xs (xs.set c Ctx.fresh)
  | accepted (s : State) (c : Nat) (last : Bool) (o n src : Nat) (hctxs : s.ctxs = xs) (hc : c < p.nCtx)
      (hadm : (s.ctx c).Admits p.maxGaps last o n) :
      CommandOnContexts p xs (xs.set c (s.accept (s.ctx c) last o n src))

/-- What a command that goes on can do: write result registers, `STATUS`, buffers and tables the host may read, and the
contexts; nothing that is the host's (10_state.md R40). -/
structure CommandEffect (s t : State) : Prop where
  outputs : t = { s with
    r0 := t.r0, r1 := t.r1, r2 := t.r2, r3 := t.r3, r4 := t.r4, r5 := t.r5
    status := t.status, obuf := t.obuf, ntab := t.ntab, gout := t.gout, ctxs := t.ctxs }
  contexts : CommandOnContexts s.params s.ctxs t.ctxs

theorem CommandEffect.of_status (s : State) (e : Status) : CommandEffect s { s with status := e } := ⟨rfl, .kept⟩

theorem CommandEffect.of_snAnswers {s t : State} (h : snAnswers s t) : CommandEffect s t := by
  obtain ⟨e, -, rfl⟩ | ⟨v, rfl⟩ := h <;> exact ⟨rfl, .kept⟩

theorem CommandEffect.params {s t : State} (h : CommandEffect s t) : t.params = s.params :=
  (congrArg State.params h.outputs :)

theorem CommandEffect.a3 {s t : State} (h : CommandEffect s t) : t.a3 = s.a3 :=
  (congrArg State.a3 h.outputs :)

/-- What every command does, from what each one answers. -/
theorem exec_effect {i : Instr} {s t : State} (h : exec i s = .next t) : CommandEffect s t := by
  cases i with
  | snAdd k => exact .of_snAnswers (execSnAdd_cases h)
  | snDist k => exact .of_snAnswers (execSnDist_cases h)
  | snCmp k => exact .of_snAnswers (execSnCmp_cases h)
  | snInwin k => exact .of_snAnswers (execSnInwin_cases h)
  | rtSeg c last =>
    obtain ⟨e, -, rfl⟩ | ⟨hc, hn, -, hend, hfits, hroom, rfl⟩ := execRtSeg_cases h
    · exact .of_status s e
    · exact ⟨rfl, .accepted s c last _ _ _ rfl hc ⟨hn, hend, hfits, hroom⟩⟩
  | rtGet c =>
    obtain ⟨e, -, rfl⟩ | ⟨-, -, -, rfl⟩ := execRtGet_cases h
    · exact .of_status s e
    · exact ⟨rfl, .freed c⟩
  | rtDrop c =>
    obtain ⟨e, -, rfl⟩ | ⟨-, rfl⟩ := execRtDrop_cases h
    · exact .of_status s e
    · exact ⟨rfl, .freed c⟩
  | rtMiss c =>
    obtain ⟨e, -, rfl⟩ | ⟨-, rfl⟩ := execRtMiss_cases h
    · exact .of_status s e
    · exact ⟨rfl, .kept⟩
  | rtList c =>
    obtain ⟨e, -, rfl⟩ | ⟨-, -, rfl⟩ := execRtList_cases h
    · exact .of_status s e
    · exact ⟨rfl, .kept⟩
  | encData p si m k =>
    obtain ⟨e, -, rfl⟩ | ⟨f, -, -, -, -, -, rfl⟩ := execEncData_cases h
    · exact .of_status s e
    · exact ⟨rfl, .kept⟩
  | decData m k =>
    obtain ⟨e, -, rfl⟩ | ⟨f, si, -, -, -, -, -, rfl⟩ := execDecData_cases h
    · exact .of_status s e
    · exact ⟨rfl, .kept⟩
  | encStatus k =>
    obtain ⟨e, -, rfl⟩ | ⟨f, entries, emitted, -, -, -, -, -, -, -, -, rfl⟩ := execEncStatus_cases h
    · exact .of_status s e
    · exact ⟨rfl, .kept⟩
  | decStatus k =>
    obtain ⟨e, -, rfl⟩ | ⟨f, ts, pos, -, -, -, -, -, -, rfl⟩ := execDecStatus_cases h
    · exact .of_status s e
    · exact ⟨rfl, .kept⟩

/-- What a host move that goes on can do: leave parameters and contexts alone, run a command, or reset the block. -/
theorem hostMove_cases {m : HostMove} {s t : State} (h : hostMove m s = .next t) :
    (t.params = s.params ∧ t.ctxs = s.ctxs) ∨ (∃ i, exec i s = .next t) ∨ t = s.afterReset := by
  cases m with
  | wr i v =>
    cases h
    cases i <;> exact .inl ⟨rfl, rfl⟩
  | wrb a bs =>
    simp only [hostMove] at h
    split at h <;> cases h
    exact .inl ⟨rfl, rfl⟩
  | wrn i e =>
    simp only [hostMove] at h
    split at h <;> cases h
    exact .inl ⟨rfl, rfl⟩
  | writeIgnored l v =>
    simp only [hostMove] at h
    split at h <;> cases h
    exact .inl ⟨rfl, rfl⟩
  | cmd w =>
    simp only [hostMove, command] at h
    split at h
    · exact .inr (.inl ⟨_, h⟩)
    · cases h
      exact .inl ⟨rfl, rfl⟩
  | rd items =>
    simp only [hostMove] at h
    split at h <;> cases h
    exact .inl ⟨rfl, rfl⟩
  | reset =>
    cases h
    exact .inr (.inr rfl)

/-- What a step can do to parameters and contexts: what a command can do, or a reset. -/
theorem step_effect {s t : State} (h : step s = .next t) :
    t.params = s.params ∧
      (CommandOnContexts s.params s.ctxs t.ctxs ∨ t.ctxs = List.replicate s.params.nCtx Ctx.fresh) := by
  simp only [step, hostStep] at h
  split at h
  · cases h
    exact ⟨rfl, .inl .kept⟩
  · obtain ⟨hp, hx⟩ | ⟨i, hi⟩ | rfl := hostMove_cases h
    · exact ⟨hp, .inl (hx ▸ .kept)⟩
    · exact ⟨(exec_effect hi).params, .inl (exec_effect hi).contexts⟩
    · exact ⟨rfl, .inr rfl⟩

theorem step_params {s t : State} (h : step s = .next t) : t.params = s.params := (step_effect h).1

theorem step_ctxs_length {s t : State} (hlen : s.ctxs.length = s.params.nCtx) (h : step s = .next t) :
    t.ctxs.length = s.params.nCtx := by
  obtain ⟨-, hx | hx⟩ := step_effect h
  · generalize t.ctxs = ys at hx
    cases hx <;> simp [hlen]
  · simp [hx]

/-- A property of contexts is kept by every step if the fresh context has it and a context that accepts a segment keeps
it. -/
theorem step_keeps_of_accept {P : Ctx → Prop} {s t : State} (hlen : s.ctxs.length = s.params.nCtx)
    (hfresh : P Ctx.fresh)
    (haccept : ∀ (u : State) (x : Ctx) (last : Bool) (o n src : Nat), x ∈ s.ctxs → P x →
      x.Admits s.params.maxGaps last o n → P (u.accept x last o n src))
    (hall : ∀ x ∈ s.ctxs, P x) (h : step s = .next t) : ∀ x ∈ t.ctxs, P x := by
  obtain ⟨-, hx | hx⟩ := step_effect h
  · generalize t.ctxs = ys at hx ⊢
    cases hx with
    | kept => exact hall
    | freed c => exact State.forall_mem_setCtx hall hfresh
    | accepted u c last o n src hctxs hc hadm =>
      have hmem : u.ctx c ∈ s.ctxs := hctxs ▸ State.ctx_mem (by rwa [hctxs, hlen])
      exact State.forall_mem_setCtx hall (haccept u _ last o n src hmem (hall _ hmem) hadm)
  · intro x hmem
    rw [hx] at hmem
    rwa [List.eq_of_mem_replicate hmem]

end Sys2Proof.Machine

/-! ### The gap list of a context that accepts a segment -/

namespace Sys2Proof.Machine

section GapLists

variable {gs : List Gap} {g k : Gap} {o e maxGaps : Nat}

theorem Gap.isOpen_iff : g.isOpen = true ↔ g.stop = 65535 := by simp [Gap.isOpen, Config.endUnknown]

/-- What the loop of 41_reassembly_tracker.md R114 leaves of one gap. -/
def Gap.pieces (g : Gap) (o e : Nat) : List Gap := if g.overlap o e = 0 then [g] else g.cut o e

theorem remaining_eq_flatMap (o e : Nat) (gs : List Gap) : remaining o e gs = gs.flatMap (·.pieces o e) := by
  induction gs with
  | nil => rfl
  | cons g gs ih => simp [remaining, Gap.pieces, ih]

theorem mem_remaining : k ∈ remaining o e gs ↔ ∃ g ∈ gs, k ∈ g.pieces o e := by
  simp [remaining_eq_flatMap]

/-- A piece is the gap itself, its part before the segment or its part after it. -/
theorem mem_pieces : k ∈ g.pieces o e ↔
    (g.overlap o e = 0 ∧ k = g) ∨
    (g.overlap o e ≠ 0 ∧ ((g.start < o ∧ k = ⟨g.start, o⟩) ∨ (e < g.stop ∧ k = ⟨e, g.stop⟩))) := by
  by_cases h : g.overlap o e = 0 <;> simp [Gap.pieces, Gap.cut, h]

/-- A piece lies inside its gap, and each of its ends is the gap's or the segment's. -/
theorem piece_bounds (hk : k ∈ g.pieces o e) (hg : g.start < g.stop) :
    k.start < k.stop ∧ g.start ≤ k.start ∧ k.stop ≤ g.stop ∧ (k.start = g.start ∨ k.start = e) ∧
      (k.stop = g.stop ∨ k.stop = o) := by
  rw [mem_pieces] at hk
  simp only [Gap.overlap] at hk
  obtain ⟨-, rfl⟩ | ⟨h, ⟨ho, rfl⟩ | ⟨he, rfl⟩⟩ := hk
  · exact ⟨hg, le_rfl, le_rfl, .inl rfl, .inl rfl⟩
  · exact ⟨ho, le_rfl, show o ≤ g.stop by omega, .inl rfl, .inr rfl⟩
  · exact ⟨he, show g.start ≤ e by omega, le_rfl, .inr rfl, .inl rfl⟩

theorem pieces_separated (hoe : o < e) : (g.pieces o e).Pairwise fun a b => a.stop < b.start := by
  unfold Gap.pieces Gap.cut
  split_ifs <;> simp [hoe]

/-- Of an open gap an open piece is left: the segment ends before `END_UNKNOWN`. -/
theorem exists_open_piece (hg : g.isOpen = true) (he : e ≤ Config.maxSdu) : ∃ k ∈ g.pieces o e, k.isOpen = true := by
  simp only [Config.maxSdu] at he
  by_cases h : g.overlap o e = 0
  · exact ⟨g, mem_pieces.2 (.inl ⟨h, rfl⟩), hg⟩
  · have hstop := Gap.isOpen_iff.1 hg
    exact ⟨⟨e, g.stop⟩, mem_pieces.2 (.inr ⟨h, .inr ⟨by omega, rfl⟩⟩), hg⟩

/-- A segment neither opens nor closes a gap list. -/
theorem exists_open_remaining (hne : ∀ g ∈ gs, g.start < g.stop) (ho : o ≤ Config.maxSdu) (he : e ≤ Config.maxSdu) :
    (∃ k ∈ remaining o e gs, k.isOpen = true) ↔ ∃ g ∈ gs, g.isOpen = true := by
  simp only [Config.maxSdu] at ho
  constructor
  · rintro ⟨k, hk, hopen⟩
    obtain ⟨g, hg, hkg⟩ := mem_remaining.1 hk
    obtain ⟨-, -, -, -, hstop⟩ := piece_bounds hkg (hne g hg)
    rw [Gap.isOpen_iff] at hopen
    exact ⟨g, hg, Gap.isOpen_iff.2 (by omega)⟩
  · rintro ⟨g, hg, hopen⟩
    obtain ⟨k, hk, hopen'⟩ := exists_open_piece (o := o) hopen he
    exact ⟨k, mem_remaining.2 ⟨g, hg, hk⟩, hopen'⟩

theorem remaining_separated (hne : ∀ g ∈ gs, g.start < g.stop) (hsep : gs.Pairwise fun a b => a.stop < b.start)
    (hoe : o < e) : (remaining o e gs).Pairwise fun a b => a.stop < b.start := by
  rw [remaining_eq_flatMap, List.pairwise_flatMap]
  refine ⟨fun g _ => pieces_separated hoe, hsep.imp_of_mem fun {a b} ha hb hab k hk l hl => ?_⟩
  obtain ⟨-, -, hstop, -, -⟩ := piece_bounds hk (hne a ha)
  obtain ⟨-, hstart, -, -, -⟩ := piece_bounds hl (hne b hb)
  omega

/-! ### Open gaps -/

/-- In a separated list a gap is the last one or ends below the start of the last one. -/
theorem stop_lt_of_mem_dropLast (hsep : gs.Pairwise fun a b => a.stop < b.start) (hg : g ∈ gs.dropLast)
    (hk : k ∈ gs.getLast?) : g.stop < k.start := by
  rw [← List.dropLast_append_getLast? k hk, List.pairwise_append] at hsep
  obtain ⟨-, -, hlast⟩ := hsep
  exact hlast g hg k (by simp)

theorem mem_dropLast_or_getLast? (hg : g ∈ gs) : g ∈ gs.dropLast ∨ g ∈ gs.getLast? := by
  obtain ⟨l, a, rfl⟩ := (List.eq_nil_or_concat' gs).resolve_left (List.ne_nil_of_mem hg)
  simpa [eq_comm] using hg

/-- Since every gap starts at or below `MAX_SDU`, only the last gap of a separated list can be open. -/
theorem isOpen_eq_false_of_mem_dropLast (hsep : gs.Pairwise fun a b => a.stop < b.start)
    (hstart : ∀ g ∈ gs, g.start ≤ Config.maxSdu) (hg : g ∈ gs.dropLast) : g.isOpen = false := by
  obtain ⟨k, hk⟩ : ∃ k, k ∈ gs.getLast? := by
    cases h : gs.getLast? with
    | none => simp_all
    | some k => exact ⟨k, rfl⟩
  have hlt := stop_lt_of_mem_dropLast hsep hg hk
  have hle := hstart k (List.mem_of_getLast? hk)
  rw [Bool.eq_false_iff, Ne, Gap.isOpen_iff]
  simp only [Config.maxSdu] at hle
  omega

theorem getLast?_isOpen_iff (honce : ∀ g ∈ gs.dropLast, g.isOpen = false) :
    (∃ g, gs.getLast? = some g ∧ g.isOpen = true) ↔ ∃ g ∈ gs, g.isOpen = true := by
  constructor
  · rintro ⟨g, hg, hopen⟩
    exact ⟨g, List.mem_of_getLast? hg, hopen⟩
  · rintro ⟨g, hg, hopen⟩
    obtain hd | hl := mem_dropLast_or_getLast? hg
    · rw [honce g hd] at hopen
      cases hopen
    · exact ⟨g, hl, hopen⟩

/-! ### A segment and the SDU's length -/

theorem Ctx.fixesLength_iff {x : Ctx} {last : Bool} :
    x.fixesLength last = true ↔ last = true ∧ x.lastSeen = false := by
  simp [Ctx.fixesLength]

theorem Ctx.lastSeen_or_of_not_fixesLength {x : Ctx} {last : Bool} (h : ¬x.fixesLength last = true) :
    (x.lastSeen || last) = x.lastSeen := by
  rw [Ctx.fixesLength_iff, not_and, Bool.not_eq_false] at h
  cases last with
  | false => simp
  | true => simp [h rfl]

namespace Ctx.GapInv

variable {x : Ctx} {last : Bool}

/-- (I3): the length is unknown exactly when there is an open gap. -/
theorem lastSeen_eq_false_iff (hx : x.GapInv maxGaps) : x.lastSeen = false ↔ ∃ g ∈ x.gaps, g.isOpen = true :=
  hx.openLast.trans (getLast?_isOpen_iff hx.openOnce)

/-- Every gap that is not open ends below the start of the open one. -/
theorem stop_lt_open (hx : x.GapInv maxGaps) {q : Gap} (hq : q ∈ x.gaps) (hopen : q.isOpen = true) (hg : g ∈ x.gaps)
    (hfin : g.isOpen = false) : g.stop < q.start := by
  obtain hd | hl := mem_dropLast_or_getLast? hq
  · simp [hx.openOnce q hd] at hopen
  · obtain hd' | hl' := mem_dropLast_or_getLast? hg
    · exact stop_lt_of_mem_dropLast hx.separated hd' hl
    · cases Option.mem_unique hl hl'
      simp [hopen] at hfin

/-- A gap left by a segment that does not contradict the context's length. -/
theorem of_mem_gapsAfter (h : k ∈ x.gapsAfter last o e) :
    ∃ g ∈ x.gaps, k ∈ g.pieces o e ∧ (x.fixesLength last = true → k.isOpen = false) := by
  unfold Ctx.gapsAfter at h
  split_ifs at h with hfix
  · obtain ⟨hk, hfin⟩ := mem_closeEnd.1 h
    obtain ⟨g, hg, hkg⟩ := mem_remaining.1 hk
    exact ⟨g, hg, hkg, fun _ => hfin⟩
  · obtain ⟨g, hg, hkg⟩ := mem_remaining.1 h
    exact ⟨g, hg, hkg, fun h => absurd h hfix⟩

/-- A first last-flagged segment that does not contradict the context ends at or beyond the open gap's start. -/
theorem open_start_le (hfits : x.conflicts last e = false) (hfix : x.fixesLength last = true) {q : Gap}
    (hq : q ∈ x.gaps) (hopen : q.isOpen = true) : q.start ≤ e := by
  rw [Ctx.fixesLength_iff] at hfix
  simp only [Ctx.conflicts, hfix, Bool.false_eq_true, if_false, Bool.true_and, List.any_eq_false] at hfits
  have := hfits q hq
  simp only [hopen, Bool.true_and, decide_eq_true_eq] at this
  omega

/-- A segment that does not contradict a known length ends within it. -/
theorem end_le_totLen (hfits : x.conflicts last e = false) (hseen : x.lastSeen = true) : e ≤ x.totLen := by
  simp only [Ctx.conflicts, hseen, if_true] at hfits
  cases last with
  | true => simpa using (by simpa using hfits : e = x.totLen).le
  | false => simpa using hfits

/-- (I3) after a segment: the list holds an open gap exactly while the length is unknown. -/
theorem gapsAfter_open_iff (hx : x.GapInv maxGaps) (ho : o ≤ Config.maxSdu) (he : e ≤ Config.maxSdu) :
    (x.lastSeen || last) = false ↔ ∃ g ∈ x.gapsAfter last o e, g.isOpen = true := by
  by_cases hfix : x.fixesLength last = true
  · have hnone : ¬∃ g ∈ x.gapsAfter last o e, g.isOpen = true := by
      rintro ⟨g, hg, hopen⟩
      obtain ⟨-, -, -, hclosed⟩ := of_mem_gapsAfter hg
      simp [hclosed hfix] at hopen
    exact iff_of_false (by simp [(Ctx.fixesLength_iff.1 hfix).1]) hnone
  · rw [Ctx.lastSeen_or_of_not_fixesLength hfix, Ctx.gapsAfter, if_neg hfix,
      exists_open_remaining hx.nonempty ho he, hx.lastSeen_eq_false_iff]

/-- (I4) after a segment: no gap ends beyond the length it fixes. -/
theorem stop_le_of_fixesLength (hx : x.GapInv maxGaps) (hoe : o ≤ e) (hfits : x.conflicts last e = false)
    (hfix : x.fixesLength last = true) (hk : k ∈ x.gapsAfter last o e) : k.stop ≤ e := by
  obtain ⟨g, hg, hkg, hclosed⟩ := of_mem_gapsAfter hk
  obtain ⟨-, -, -, -, hstop⟩ := piece_bounds hkg (hx.nonempty g hg)
  rcases hstop with hstop | hstop
  · obtain ⟨q, hq, hopen⟩ := hx.lastSeen_eq_false_iff.1 (Ctx.fixesLength_iff.1 hfix).2
    have hfin : g.isOpen = false := by
      rw [← hclosed hfix, Gap.isOpen, Gap.isOpen, hstop]
    have hlt := hx.stop_lt_open hq hopen hg hfin
    have hle := open_start_le hfits hfix hq hopen
    omega
  · omega

/-- A context that accepts a segment keeps (I1) to (I4) and (I7). -/
theorem accept (hx : x.GapInv maxGaps) (s : State) {n src : Nat} (hadm : x.Admits maxGaps last o n) :
    (s.accept x last o n src).GapInv maxGaps := by
  obtain ⟨hn, hend, hfits, hroom⟩ := hadm
  have hsep : (x.gapsAfter last o (o + n)).Pairwise fun a b => a.stop < b.start := by
    have hrem := remaining_separated (o := o) (e := o + n) hx.nonempty hx.separated (by omega)
    unfold Ctx.gapsAfter
    split_ifs
    · exact hrem.sublist List.filter_sublist
    · exact hrem
  have hstart : ∀ k ∈ x.gapsAfter last o (o + n), k.start ≤ Config.maxSdu := by
    intro k hk
    obtain ⟨g, hg, hkg, -⟩ := of_mem_gapsAfter hk
    obtain ⟨-, -, -, hstart, -⟩ := piece_bounds hkg (hx.nonempty g hg)
    have := (hx.bounded g hg).1
    omega
  have honce : ∀ k ∈ (x.gapsAfter last o (o + n)).dropLast, k.isOpen = false :=
    fun k hk => isOpen_eq_false_of_mem_dropLast hsep hstart hk
  constructor
  case nonempty =>
    intro k hk
    obtain ⟨g, hg, hkg, -⟩ := of_mem_gapsAfter hk
    exact (piece_bounds hkg (hx.nonempty g hg)).1
  case separated => exact hsep
  case openLast => exact (hx.gapsAfter_open_iff (by omega) hend).trans (getLast?_isOpen_iff honce).symm
  case openOnce => exact honce
  case bounded =>
    intro k hk
    refine ⟨hstart k hk, fun hfin => ?_⟩
    obtain ⟨g, hg, hkg, -⟩ := of_mem_gapsAfter hk
    obtain ⟨-, -, -, -, hstop | hstop⟩ := piece_bounds hkg (hx.nonempty g hg)
    · rw [hstop]
      exact (hx.bounded g hg).2 (by rw [← hfin, Gap.isOpen, Gap.isOpen, hstop])
    · omega
  case lengthKnown =>
    intro hseen
    by_cases hfix : x.fixesLength last = true
    · simp only [State.accept, if_pos hfix]
      exact ⟨by omega, hend, fun k hk => hx.stop_le_of_fixesLength (by omega) hfits hfix hk⟩
    · obtain ⟨h1, h2, hle⟩ := hx.lengthKnown ((Ctx.lastSeen_or_of_not_fixesLength hfix).symm.trans hseen)
      simp only [State.accept, if_neg hfix]
      refine ⟨h1, h2, fun k hk => ?_⟩
      obtain ⟨g, hg, hkg, -⟩ := of_mem_gapsAfter hk
      obtain ⟨-, -, hstop, -, -⟩ := piece_bounds hkg (hx.nonempty g hg)
      exact hstop.trans (hle g hg)
  case capacity => exact hroom

/-- The fresh context meets (I1) to (I4) and (I7) wherever there is room for one gap. -/
theorem fresh (hroom : 1 ≤ maxGaps) : Ctx.fresh.GapInv maxGaps where
  nonempty := by decide
  separated := by decide
  openLast := by simp [Ctx.fresh, Gap.isOpen]
  openOnce := by decide
  bounded := by decide
  lengthKnown := by decide
  capacity := hroom

end Ctx.GapInv

end GapLists

theorem Params.one_le_maxGaps_of_ok {p : Params} (h : p.ok = true) : 1 ≤ p.maxGaps := by
  simp only [Params.ok, Bool.and_eq_true, decide_eq_true_eq] at h
  omega

/-- Settles O58: the fresh context meets the gap-list invariants, and a context that accepts a segment keeps them. -/
theorem stepKeepsTheGapLists : Obligations.StepKeepsTheGapLists := by
  rintro s t ⟨hok, hlen, hgaps⟩ h
  have hparams := step_params h
  refine ⟨hparams ▸ hok, hparams ▸ step_ctxs_length hlen h, hparams ▸ ?_⟩
  exact step_keeps_of_accept hlen (.fresh (Params.one_le_maxGaps_of_ok hok))
    (fun u x last o n src _ hx hadm => hx.accept u hadm) hgaps h

end Sys2Proof.Machine

/-! ### Counting positions -/

namespace Sys2Proof.Machine

section ByteAccount

variable {gs : List Gap} {g k : Gap} {o e p maxGaps : Nat}

/-- Filtering by one of two tests that never both hold. -/
theorem length_filter_or {α : Type} (l : List α) {f g h : α → Bool} (hf : ∀ a, f a = (g a || h a))
    (hdisj : ∀ a, g a = true → h a = false) : (l.filter f).length = (l.filter g).length + (l.filter h).length := by
  induction l with
  | nil => rfl
  | cons a l ih =>
    cases hg : g a with
    | true => simp [hf, hg, hdisj a hg, ih, Nat.add_right_comm]
    | false => cases hh : h a <;> simp [hf, hg, hh, ih, Nat.add_assoc]

/-- A test that holds only in `[o, o + n)` is counted there. -/
theorem length_filter_range_of_support {f : Nat → Bool} {o n N : Nat} (hf : ∀ p, f p = true → o ≤ p ∧ p < o + n)
    (hN : o + n ≤ N) : ((List.range N).filter f).length = ((List.range n).filter fun j => f (o + j)).length := by
  obtain ⟨m, rfl⟩ := Nat.exists_eq_add_of_le hN
  have hlow : (List.range o).filter f = [] := by
    simp only [List.filter_eq_nil_iff, List.mem_range]
    intro p hp htrue
    have := hf p htrue
    omega
  have hhigh : ((List.range m).map (o + n + ·)).filter f = [] := by
    simp only [List.filter_eq_nil_iff, List.mem_map]
    rintro _ ⟨j, -, rfl⟩ htrue
    have := hf _ htrue
    omega
  rw [List.range_add, List.filter_append, hhigh, List.range_add, List.filter_append, hlow, List.filter_map]
  simp [Function.comp_def]

/-- One more position of the segment is newly filled exactly if it lies in a gap: the gaps share no position. -/
theorem newlyFilled_succ (hsep : gs.Pairwise fun a b => a.stop < b.start) (hoe : o ≤ e) :
    newlyFilled o (e + 1) gs = newlyFilled o e gs + yesNo (inGaps gs e) := by
  induction gs with
  | nil => rfl
  | cons g gs ih =>
    rw [List.pairwise_cons] at hsep
    obtain ⟨hg, hsep⟩ := hsep
    have hov : g.overlap o (e + 1) = g.overlap o e + yesNo (decide (g.start ≤ e) && decide (e < g.stop)) := by
      simp only [Gap.overlap, yesNo, Bool.and_eq_true, decide_eq_true_eq]
      split_ifs <;> omega
    simp only [newlyFilled, hov, ih hsep, inGaps_cons]
    cases hin : decide (g.start ≤ e) && decide (e < g.stop) with
    | false => simp [yesNo, Nat.add_assoc]
    | true =>
      have hout : inGaps gs e = false := by
        rw [Bool.eq_false_iff, Ne, inGaps_eq_true]
        rintro ⟨h, hh, hstart, -⟩
        have := hg h hh
        simp only [Bool.and_eq_true, decide_eq_true_eq] at hin
        omega
      simp only [hout, yesNo, Bool.or_false, if_true, Bool.false_eq_true, if_false]
      omega

/-- 41_reassembly_tracker.md R115: the loop's `new` is the number of the segment's positions that lie in a gap. -/
theorem newlyFilled_eq_newPositions (hsep : gs.Pairwise fun a b => a.stop < b.start) (o n : Nat) :
    newlyFilled o (o + n) gs = newPositions gs o n := by
  induction n with
  | zero =>
    have hnone : ∀ g ∈ gs, g.overlap o (o + 0) = 0 := by
      intro g _
      simp only [Gap.overlap]
      omega
    rw [(remaining_of_no_overlap hnone).2]
    rfl
  | succ n ih =>
    rw [← Nat.add_assoc, newlyFilled_succ hsep (by omega), ih]
    simp only [newPositions, List.range_succ, List.filter_append, List.length_append]
    cases h : inGaps gs (o + n) <;> simp [h, yesNo]

/-! ### The positions received -/

/-- An open piece of a gap starts at or beyond the segment's end. -/
theorem le_start_of_open_piece (hk : k ∈ g.pieces o e) (hopen : k.isOpen = true) (hoe : o < e)
    (he : e ≤ Config.maxSdu) : e ≤ k.start := by
  rw [Gap.isOpen_iff] at hopen
  rw [mem_pieces] at hk
  simp only [Gap.overlap, Config.maxSdu] at hk he
  obtain ⟨h, rfl⟩ | ⟨h, ⟨ho, rfl⟩ | ⟨-, rfl⟩⟩ := hk
  · omega
  · simp only at hopen
    omega
  · exact le_rfl

/-- The end of everything that can still be missing or received. -/
def Ctx.limit (x : Ctx) : Nat := if x.lastSeen then x.totLen else Config.endUnknown

theorem limit_accept_of_fixesLength {x : Ctx} {last : Bool} {n src : Nat} (s : State)
    (hfix : x.fixesLength last = true) : (s.accept x last o n src).limit = o + n := by
  obtain ⟨rfl, -⟩ := Ctx.fixesLength_iff.1 hfix
  simp [Ctx.limit, State.accept, hfix]

theorem limit_accept_of_not_fixesLength {x : Ctx} {last : Bool} {n src : Nat} (s : State)
    (hfix : ¬x.fixesLength last = true) : (s.accept x last o n src).limit = x.limit := by
  simp [Ctx.limit, State.accept, hfix, Ctx.lastSeen_or_of_not_fixesLength hfix]

namespace Ctx.GapInv

variable {x : Ctx} {last : Bool}

/-- What a segment does to the missing positions (41_reassembly_tracker.md R112, R114): it takes its own out, and the one
that fixes the length everything from its end upward. -/
theorem inGaps_gapsAfter (hx : x.GapInv maxGaps) (hoe : o < e) (he : e ≤ Config.maxSdu)
    (hfits : x.conflicts last e = false) (p : Nat) :
    inGaps (x.gapsAfter last o e) p = true ↔
      inGaps x.gaps p = true ∧ ¬(o ≤ p ∧ p < e) ∧ (x.fixesLength last = true → p < e) := by
  have hrem : inGaps (remaining o e x.gaps) p = true ↔ inGaps x.gaps p = true ∧ ¬(o ≤ p ∧ p < e) := by
    simp [inGaps_remaining, imp_iff_not_or]
  by_cases hfix : x.fixesLength last = true
  · have hclose : inGaps (x.gapsAfter last o e) p = true ↔ inGaps (remaining o e x.gaps) p = true ∧ p < e := by
      simp only [inGaps_eq_true]
      constructor
      · rintro ⟨k, hk, hstart, hstop⟩
        have hle := hx.stop_le_of_fixesLength hoe.le hfits hfix hk
        rw [Ctx.gapsAfter, if_pos hfix] at hk
        exact ⟨⟨k, (mem_closeEnd.1 hk).1, hstart, hstop⟩, by omega⟩
      · rintro ⟨⟨k, hk, hstart, hstop⟩, hp⟩
        refine ⟨k, ?_, hstart, hstop⟩
        rw [Ctx.gapsAfter, if_pos hfix, mem_closeEnd, Bool.eq_false_iff]
        refine ⟨hk, fun hopen => ?_⟩
        obtain ⟨g, -, hkg⟩ := mem_remaining.1 hk
        have := le_start_of_open_piece hkg hopen hoe he
        omega
    rw [hclose, hrem]
    simp [hfix, and_assoc]
  · rw [Ctx.gapsAfter, if_neg hfix, hrem]
    simp [hfix]

/-- While the length is unknown, `hi` of (I5) is the start of the open gap. -/
theorem high_eq_open_start (hx : x.GapInv maxGaps) (hseen : x.lastSeen = false) :
    ∃ q ∈ x.gaps, q.isOpen = true ∧ x.high = q.start := by
  obtain ⟨g, hg, hopen⟩ := hx.lastSeen_eq_false_iff.1 hseen
  cases hfind : x.gaps.find? Gap.isOpen with
  | none => simp [List.find?_eq_none.1 hfind g hg] at hopen
  | some q => exact ⟨q, List.mem_of_find?_eq_some hfind, List.find?_some hfind, by simp [Ctx.high, hseen, hfind]⟩

theorem high_le_maxSdu (hx : x.GapInv maxGaps) : x.high ≤ Config.maxSdu := by
  cases hseen : x.lastSeen with
  | true =>
    rw [Ctx.high, if_pos hseen]
    exact (hx.lengthKnown hseen).2.1
  | false =>
    obtain ⟨q, hq, -, hhigh⟩ := hx.high_eq_open_start hseen
    exact hhigh ▸ (hx.bounded q hq).1

/-- (I5): received means below the SDU's end, or below `END_UNKNOWN` while that is unknown, and in no gap. -/
theorem received_iff (hx : x.GapInv maxGaps) :
    x.received p = true ↔ p < x.limit ∧ ¬inGaps x.gaps p = true := by
  simp only [Ctx.received, Bool.and_eq_true, decide_eq_true_eq, Bool.not_eq_true', Bool.not_eq_true]
  refine and_congr_left fun hout => ?_
  cases hseen : x.lastSeen with
  | true => simp [Ctx.high, Ctx.limit, hseen]
  | false =>
    obtain ⟨q, hq, hopen, hhigh⟩ := hx.high_eq_open_start hseen
    have hstart := (hx.bounded q hq).1
    rw [Bool.eq_false_iff, Ne, inGaps_eq_true] at hout
    have hq' : ¬(q.start ≤ p ∧ p < q.stop) := fun h => hout ⟨q, hq, h⟩
    rw [Gap.isOpen_iff] at hopen
    simp only [Ctx.limit, hseen, hhigh, Config.maxSdu, Config.endUnknown, Bool.false_eq_true, if_false] at hstart ⊢
    omega

/-- A context that accepts a segment has received what it had received and what the segment newly fills. -/
theorem received_accept (hx : x.GapInv maxGaps) (s : State) {n src : Nat} (hadm : x.Admits maxGaps last o n) :
    (s.accept x last o n src).received p = true ↔
      x.received p = true ∨ ((o ≤ p ∧ p < o + n) ∧ inGaps x.gaps p = true) := by
  rw [(hx.accept s (src := src) hadm).received_iff, hx.received_iff]
  obtain ⟨hn, hend, hfits, -⟩ := hadm
  change p < _ ∧ ¬inGaps (x.gapsAfter last o (o + n)) p = true ↔ _
  rw [hx.inGaps_gapsAfter (by omega) hend hfits]
  simp only [Config.maxSdu] at hend
  by_cases hfix : x.fixesLength last = true
  · obtain ⟨rfl, hseen⟩ := Ctx.fixesLength_iff.1 hfix
    obtain ⟨q, hq, hopen⟩ := hx.lastSeen_eq_false_iff.1 hseen
    have hle := open_start_le hfits hfix hq hopen
    have hlim : x.limit = 65535 := by simp [Ctx.limit, hseen, Config.endUnknown]
    have hcover : ¬inGaps x.gaps p = true → p < 65535 → p < o + n := by
      intro hout hp
      rw [inGaps_eq_true] at hout
      by_contra hge
      exact hout ⟨q, hq, by omega, by rw [Gap.isOpen_iff.1 hopen]; exact hp⟩
    rw [hlim, limit_accept_of_fixesLength s hfix]
    grind
  · have hle : o + n ≤ x.limit := by
      cases hseen : x.lastSeen with
      | true => simpa [Ctx.limit, hseen] using end_le_totLen hfits hseen
      | false =>
        simp only [Ctx.limit, hseen, Config.endUnknown, Bool.false_eq_true, if_false]
        omega
    rw [limit_accept_of_not_fixesLength s hfix]
    grind

end Ctx.GapInv

/-! ### The byte account of a context that accepts a segment -/

namespace Ctx.ByteInv

variable {x : Ctx} {last : Bool} {n : Nat}

/-- A segment offered to a fresh context fills something. -/
theorem newlyFilled_fresh_pos (hn : n ≠ 0) (hend : o + n ≤ Config.maxSdu) :
    0 < newlyFilled o (o + n) Ctx.fresh.gaps := by
  simp only [newlyFilled, Ctx.fresh, Gap.overlap, Config.maxSdu, Config.endUnknown] at hend ⊢
  omega

/-- A context holds a byte after it accepts a segment. -/
theorem byteCnt_accept_pos (hb : x.ByteInv) (hn : n ≠ 0) (hend : o + n ≤ Config.maxSdu) :
    0 < x.byteCnt + newlyFilled o (o + n) x.gaps := by
  by_cases hzero : x.byteCnt = 0
  · rw [hb.emptyIsFresh.1 hzero]
    exact Nat.add_pos_right _ (newlyFilled_fresh_pos hn hend)
  · omega

/-- (I5) for the count. -/
theorem counted_accept (hb : x.ByteInv) (hx : x.GapInv maxGaps) (s : State) {src : Nat}
    (hadm : x.Admits maxGaps last o n) :
    x.byteCnt + newlyFilled o (o + n) x.gaps =
      ((List.range (s.accept x last o n src).high).filter (s.accept x last o n src).received).length := by
  have hx' := hx.accept s (src := src) hadm
  have hcount : ∀ {y : Ctx}, y.GapInv maxGaps → ((List.range Config.maxSdu).filter y.received).length =
      ((List.range y.high).filter y.received).length := by
    intro y hy
    have := length_filter_range_of_support (f := y.received) (o := 0) (n := y.high) (N := Config.maxSdu)
      (fun p hp => by simp [Ctx.received] at hp; omega) (by simpa using hy.high_le_maxSdu)
    simpa using this
  have hnew : newPositions x.gaps o n = ((List.range Config.maxSdu).filter
      fun p => (decide (o ≤ p) && decide (p < o + n)) && inGaps x.gaps p).length := by
    rw [length_filter_range_of_support (o := o) (n := n) (fun p hp => by simp at hp; omega) hadm.inRange,
      newPositions]
    congr 1
    refine List.filter_congr fun j hj => ?_
    simp [List.mem_range.1 hj]
  rw [hb.counted, newlyFilled_eq_newPositions hx.separated, hnew, ← hcount hx, ← hcount hx']
  refine (length_filter_or _ (fun p => ?_) fun p hp => ?_).symm
  · rw [Bool.eq_iff_iff, hx.received_accept s hadm]
    simp
  · have := (hx.received_iff.1 hp).2
    simp [this]

/-- A context that accepts a segment keeps (I5) and (I6). -/
theorem accept (hb : x.ByteInv) (hx : x.GapInv maxGaps) (s : State) {src : Nat}
    (hadm : x.Admits maxGaps last o n) : (s.accept x last o n src).ByteInv := by
  have hpos := hb.byteCnt_accept_pos hadm.nonempty hadm.inRange
  have hsegs := hb.segmentsBounded
  have hagree := hb.countersAgree
  constructor
  case counted => exact hb.counted_accept hx s hadm
  case stored =>
    intro p
    rw [Bool.eq_iff_iff, hx.received_accept s hadm, ← hb.stored p]
    simp only [State.accept, find?_storeSegment]
    split_ifs with h
    · simp [h]
    · simp [h]
  case dataForm => exact wf_storeSegment s x.gaps o src n hadm.inRange hb.dataForm
  case countersAgree =>
    refine iff_of_false hpos.ne' ?_
    change (if 0 < newlyFilled o (o + n) x.gaps then x.segCnt + 1 else x.segCnt) ≠ 0
    split_ifs <;> omega
  case emptyIsFresh =>
    refine ⟨fun hzero => absurd hzero hpos.ne', fun hfresh => ?_⟩
    rw [hfresh]
    rfl
  case segmentsBounded =>
    simp only [State.accept]
    split_ifs <;> omega
  case lengthUnset =>
    intro hseen
    simp only [State.accept, Bool.or_eq_false_iff] at hseen
    obtain ⟨hseen, rfl⟩ := hseen
    simpa [State.accept, Ctx.fixesLength] using hb.lengthUnset hseen

/-- The fresh context has received nothing. -/
theorem fresh : Ctx.fresh.ByteInv where
  counted := by decide
  stored p := by
    have hhigh : Ctx.fresh.high = 0 := by decide
    rw [Ctx.received, hhigh]
    rfl
  dataForm := by decide
  countersAgree := by decide
  emptyIsFresh := by decide
  segmentsBounded := by decide
  lengthUnset := by decide

end Ctx.ByteInv

end ByteAccount

/-- Settles O59: the fresh context meets the byte account, and a context that accepts a segment keeps it. -/
theorem stepKeepsTheByteAccount : Obligations.StepKeepsTheByteAccount := by
  rintro s t ⟨-, hlen, hgaps⟩ hbytes h
  exact step_keeps_of_accept hlen .fresh
    (fun u x last o n src hmem hb hadm => hb.accept (hgaps x hmem) u hadm) hbytes h

end Sys2Proof.Machine

/-! ### What no command writes -/

namespace Sys2Proof.Machine

/-- Settles O16: no output of a command is one of these fields. -/
theorem commandsLeaveInputsAlone : Obligations.CommandsLeaveInputsAlone := by
  intro i s t h
  have hout := (exec_effect h).outputs
  rw [hout]
  exact ⟨rfl, rfl, rfl, rfl, rfl, rfl, rfl, rfl, rfl⟩

/-! ### What no command reads -/

/-- The outcome with its next state, if it has one, seen through `f`. -/
def mapNext (f : State → State) : Out → Out
  | .next t => .next (f t)
  | .fault r => .fault r
  | .refused r => .refused r

@[simp] theorem mapNext_next (f : State → State) (t : State) : mapNext f (.next t) = .next (f t) := rfl

@[simp] theorem mapNext_fault (f : State → State) (r : Fault) : mapNext f (.fault r) = .fault r := rfl

theorem mapNext_ite (f : State → State) (c : Prop) [Decidable c] (a b : Out) :
    mapNext f (if c then a else b) = if c then mapNext f a else mapNext f b :=
  apply_ite _ _ _ _

/-- Other values in `STATUS` and `A3`, which no command reads (10_state.md R22, R24). -/
def State.mask (s : State) (e : Status) (v : Word) : State := { s with status := e, a3 := v }

/-- Other values in `STATUS`, `A3` and the contexts, which no SN or codec command reads (10_state.md R37). -/
def State.veil (s : State) (e : Status) (v : Word) (xs : List Ctx) : State :=
  { s with status := e, a3 := v, ctxs := xs }

section Veil

variable (s : State) (e : Status) (v : Word) (xs : List Ctx)

@[simp] theorem State.veil_a0 : (s.veil e v xs).a0 = s.a0 := rfl
@[simp] theorem State.veil_params : (s.veil e v xs).params = s.params := rfl
@[simp] theorem State.veil_ibufByte (a : Nat) : (s.veil e v xs).ibufByte a = s.ibufByte a := rfl

/-! #### Reading lists of places -/

theorem State.ntabFrom_veil (i n : Nat) : (s.veil e v xs).ntabFrom i n = s.ntabFrom i n := by
  induction n generalizing i with
  | zero => rfl
  | succ n ih => exact congrArg _ (ih (i + 1))

theorem State.dataFrom_mask (c p n : Nat) : (s.mask e v).dataFrom c p n = s.dataFrom c p n := by
  induction n generalizing p with
  | zero => rfl
  | succ n ih => exact congrArg _ (ih (p + 1))

theorem State.storeSegment_mask (gs : List Gap) (o src n : Nat) (d : Memory Byte) :
    (s.mask e v).storeSegment gs o src n d = s.storeSegment gs o src n d := by
  induction n with
  | zero => rfl
  | succ n ih =>
    simp only [State.storeSegment, ih]
    rfl

theorem readEntries_veil (f : StatusFormat) (pduLen room pos : Nat) (e1 : Bool) :
    readEntries (s.veil e v xs) f pduLen room pos e1 = readEntries s f pduLen room pos e1 := by
  induction room generalizing pos e1 with
  | zero => cases e1 <;> rfl
  | succ room ih =>
    cases e1 with
    | false => rfl
    | true =>
      have hentry : readEntry (s.veil e v xs) f pduLen pos = readEntry s f pduLen pos := rfl
      simp only [readEntries, ih, hentry]

/-! #### SN and codec commands -/

theorem withRing_veil {ksel : KSel} {body body' : Nat → Out}
    (hbody : ∀ m, body' m = mapNext (fun t => t.veil t.status v xs) (body m)) :
    withRing ksel (s.veil e v xs) body' = mapNext (fun t => t.veil t.status v xs) (withRing ksel s body) := by
  unfold withRing
  cases snBits ksel with
  | none => rfl
  | some k => exact hbody _

end Veil

/-- A command that neither reads nor writes what the veil changes, but for `STATUS`, which it sets. -/
def IgnoresVeil (i : Instr) : Prop :=
  ∀ (s : State) (e : Status) (v : Word) (xs : List Ctx),
    exec i (s.veil e v xs) = mapNext (fun t => t.veil t.status v xs) (exec i s)

theorem ignoresVeil_snAdd (k : KSel) : IgnoresVeil (.snAdd k) := by
  intro s e v xs
  simp only [exec, execSnAdd]
  refine withRing_veil s e v xs fun m => ?_
  rw [mapNext_ite]
  rfl

theorem ignoresVeil_snDist (k : KSel) : IgnoresVeil (.snDist k) := by
  intro s e v xs
  simp only [exec, execSnDist]
  refine withRing_veil s e v xs fun m => ?_
  rw [mapNext_ite]
  rfl

theorem ignoresVeil_snCmp (k : KSel) : IgnoresVeil (.snCmp k) := by
  intro s e v xs
  simp only [exec, execSnCmp]
  refine withRing_veil s e v xs fun m => ?_
  rw [mapNext_ite]
  rfl

theorem ignoresVeil_snInwin (k : KSel) : IgnoresVeil (.snInwin k) := by
  intro s e v xs
  simp only [exec, execSnInwin]
  refine withRing_veil s e v xs fun m => ?_
  rw [mapNext_ite]
  rfl

theorem ignoresVeil_encData (p : Bool) (si : SegInfo) (m : Mode) (k : KSel) : IgnoresVeil (.encData p si m k) := by
  intro s e v xs
  simp only [exec, execEncData]
  cases dataFormat m k with
  | none => rfl
  | some f =>
    simp only [mapNext_ite]
    rfl

theorem ignoresVeil_decData (m : Mode) (k : KSel) : IgnoresVeil (.decData m k) := by
  intro s e v xs
  simp only [exec, execDecData]
  cases dataFormat m k with
  | none => rfl
  | some f =>
    simp only [mapNext_ite]
    rfl

theorem ignoresVeil_encStatus (k : KSel) : IgnoresVeil (.encStatus k) := by
  intro s e v xs
  simp only [exec, execEncStatus]
  cases statusFormat k with
  | none => rfl
  | some f =>
    simp only [mapNext_ite, State.ntabFrom_veil]
    rfl

theorem ignoresVeil_decStatus (k : KSel) : IgnoresVeil (.decStatus k) := by
  intro s e v xs
  simp only [exec, execDecStatus]
  cases statusFormat k with
  | none => rfl
  | some f =>
    simp only [mapNext_ite, readEntries_veil, State.veil_a0, State.veil_params, State.veil_ibufByte]
    cases readEntries s f s.a0.toNat s.params.nNack fixedPart (fixedE1 f (s.ibufByte 2)) with
    | error e' => rfl
    | ok r => rfl

theorem ignoresVeil_of_not_tracker {i : Instr} (hi : i.opcode ∉ [.rtSeg, .rtGet, .rtDrop, .rtMiss, .rtList]) :
    IgnoresVeil i := by
  cases i with
  | snAdd k => exact ignoresVeil_snAdd k
  | snDist k => exact ignoresVeil_snDist k
  | snCmp k => exact ignoresVeil_snCmp k
  | snInwin k => exact ignoresVeil_snInwin k
  | rtSeg c last => exact absurd hi (by simp [Instr.opcode])
  | rtGet c => exact absurd hi (by simp [Instr.opcode])
  | rtDrop c => exact absurd hi (by simp [Instr.opcode])
  | rtMiss c => exact absurd hi (by simp [Instr.opcode])
  | rtList c => exact absurd hi (by simp [Instr.opcode])
  | encData p si m k => exact ignoresVeil_encData p si m k
  | decData m k => exact ignoresVeil_decData m k
  | encStatus k => exact ignoresVeil_encStatus k
  | decStatus k => exact ignoresVeil_decStatus k

/-- Settles O20: the SN and codec commands ignore the veil. -/
theorem codecsIgnoreContexts : Obligations.CodecsIgnoreContexts := by
  intro i s t xs hi h
  have hveil : exec i { s with ctxs := xs } = _ := ignoresVeil_of_not_tracker hi s s.status s.a3 xs
  rw [hveil, h, mapNext_next, ← (exec_effect h).a3]
  rfl

/-! #### Every command -/

/-- A command that neither reads nor writes what the mask changes, but for `STATUS`, which it sets. -/
def IgnoresMask (i : Instr) : Prop :=
  ∀ (s : State) (e : Status) (v : Word), exec i (s.mask e v) = mapNext (fun t => t.mask t.status v) (exec i s)

theorem IgnoresVeil.ignoresMask {i : Instr} (hi : IgnoresVeil i) : IgnoresMask i := by
  intro s e v
  have hveil : exec i (s.mask e v) = _ := hi s e v s.ctxs
  have hself : exec i s = _ := hi s s.status s.a3 s.ctxs
  rw [hveil]
  cases h : exec i s with
  | fault r => rfl
  | refused r => rfl
  | next t =>
    rw [h, mapNext_next, Host.Outcome.next.injEq] at hself
    have hctxs : t.ctxs = s.ctxs := by rw [hself]; rfl
    rw [mapNext_next, ← hctxs]
    rfl

theorem ignoresMask_rtSeg (c : Nat) (last : Bool) : IgnoresMask (.rtSeg c last) := by
  intro s e v
  simp only [exec, execRtSeg, State.accept, State.storeSegment_mask, mapNext_ite]
  rfl

theorem ignoresMask_rtGet (c : Nat) : IgnoresMask (.rtGet c) := by
  intro s e v
  simp only [exec, execRtGet, State.dataFrom_mask, mapNext_ite]
  rfl

theorem ignoresMask_rtDrop (c : Nat) : IgnoresMask (.rtDrop c) := by
  intro s e v
  simp only [exec, execRtDrop, mapNext_ite]
  rfl

theorem ignoresMask_rtMiss (c : Nat) : IgnoresMask (.rtMiss c) := by
  intro s e v
  simp only [exec, execRtMiss, mapNext_ite]
  rfl

theorem ignoresMask_rtList (c : Nat) : IgnoresMask (.rtList c) := by
  intro s e v
  simp only [exec, execRtList, mapNext_ite]
  rfl

theorem ignoresMask (i : Instr) : IgnoresMask i := by
  by_cases hi : i.opcode ∉ [.rtSeg, .rtGet, .rtDrop, .rtMiss, .rtList]
  · exact (ignoresVeil_of_not_tracker hi).ignoresMask
  · cases i with
    | rtSeg c last => exact ignoresMask_rtSeg c last
    | rtGet c => exact ignoresMask_rtGet c
    | rtDrop c => exact ignoresMask_rtDrop c
    | rtMiss c => exact ignoresMask_rtMiss c
    | rtList c => exact ignoresMask_rtList c
    | _ => exact absurd hi (by simp [Instr.opcode])

/-- Settles O19: every command ignores the mask. -/
theorem statusAndSpareAreNeverRead : Obligations.StatusAndSpareAreNeverRead := by
  intro i s t e v
  constructor
  · have hmask : exec i { s with status := e } = _ := ignoresMask i s e s.a3
    rw [hmask]
    cases h : exec i s with
    | fault r => rfl
    | refused r => rfl
    | next t =>
      rw [mapNext_next, ← (exec_effect h).a3]
      rfl
  · intro h
    have hmask : exec i { s with a3 := v } = _ := ignoresMask i s s.status v
    rw [hmask, h]
    rfl

end Sys2Proof.Machine

/-! ### Host moves, `CAP`, table images, and the reset state -/

namespace Sys2Proof.Machine

/-! #### The next move of the host -/

theorem step_of_no_moves {s : State} (h : s.moves = []) : step s = .next s := by
  simp [step, hostStep, h]

theorem step_of_moves {s : State} {m : HostMove} {rest : List HostMove} (h : s.moves = m :: rest) :
    step s = hostMove m { s with moves := rest } := by
  simp [step, hostStep, h]

theorem command_of_decode {w : Word} {i : Instr} (h : decode w = .ok i) (s : State) : command w s = exec i s := by
  simp [command, h]

theorem decodeTableWord_eq_some {nbits w : Nat} {i : Instr} (h : decodeTableWord nbits w = some i) :
    decode (tableWord nbits w) = .ok i := by
  unfold decodeTableWord at h
  split at h
  · rename_i j hj
    cases h
    exact hj
  · cases h

/-- Settles O5: the step takes the command word off the list of moves and runs it. -/
theorem stepRunsTheDecodedCommand : Obligations.StepRunsTheDecodedCommand := by
  constructor
  · intro s w rest i hmoves hdec
    rw [step_of_moves hmoves]
    exact command_of_decode hdec _
  · intro s nbits w i hdec
    rw [State.withFetchWord, step_of_moves (State.withCommand_moves s (tableWord nbits w))]
    exact command_of_decode (decodeTableWord_eq_some hdec) s

/-! #### `CAP` and the table images -/

/-- The three counts `CAP` reports fit their 8 bits (00_scope.md R8). -/
theorem Params.counts_lt_of_ok {p : Params} (h : p.ok = true) : p.nCtx < 256 ∧ p.maxGaps < 256 ∧ p.nNack < 256 := by
  simp only [Params.ok, Bool.and_eq_true, decide_eq_true_eq] at h
  omega

theorem State.capWord_congr {s t : State} (h : t.params = s.params) : t.capWord = s.capWord := by
  simp only [State.capWord, h]

/-- The four bytes of a word. -/
theorem extractLsb_bytes (a b c d : BitVec 8) :
    (a ++ b ++ c ++ d).extractLsb 7 0 = d ∧ (a ++ b ++ c ++ d).extractLsb 15 8 = c ∧
      (a ++ b ++ c ++ d).extractLsb 23 16 = b ∧ (a ++ b ++ c ++ d).extractLsb 31 24 = a := by
  refine ⟨?_, ?_, ?_, ?_⟩ <;> ext i hi <;> grind

/-- Settles O52: the counts of legal parameters fit their bytes, and no step changes the parameters. -/
theorem capReportsTheParameters : Obligations.CapReportsTheParameters := by
  refine ⟨fun s hok => ?_, fun s t h => State.capWord_congr (step_params h)⟩
  obtain ⟨hctx, hgaps, hnack⟩ := Params.counts_lt_of_ok hok
  obtain ⟨h0, h8, h16, h24⟩ := extractLsb_bytes 0#8 (BitVec.ofNat 8 s.params.nNack)
    (BitVec.ofNat 8 s.params.maxGaps) (BitVec.ofNat 8 s.params.nCtx)
  have hnat : ∀ {n : Nat}, n < 256 → (BitVec.ofNat 8 n).toNat = n := fun h => Nat.mod_eq_of_lt h
  exact ⟨rfl, (congrArg BitVec.toNat h0).trans (hnat hctx), (congrArg BitVec.toNat h8).trans (hnat hgaps),
    (congrArg BitVec.toNat h16).trans (hnat hnack), h24⟩

/-- The halves of a word. -/
theorem extractLsb_halves (a b : BitVec 16) : (a ++ b).extractLsb 31 16 = a ∧ (a ++ b).extractLsb 15 0 = b := by
  constructor <;> ext i hi <;> grind

theorem GapPair.ofImage_image (g : GapPair) : GapPair.ofImage g.image = g := by
  obtain ⟨hstart, hstop⟩ := extractLsb_halves g.start g.stop
  exact congrArg₂ GapPair.mk hstart hstop

section Word0

variable (t : NackEntry)

theorem NackEntry.word0_nackSn : t.word0.extractLsb 17 0 = t.nackSn := by
  ext i hi
  grind [NackEntry.word0]

theorem NackEntry.word0_e2 : t.word0.getLsbD 18 = t.e2 := by grind [NackEntry.word0]

theorem NackEntry.word0_e3 : t.word0.getLsbD 19 = t.e3 := by grind [NackEntry.word0]

theorem NackEntry.word0_range : t.word0.extractLsb 27 20 = t.range := by
  ext i hi
  grind [NackEntry.word0]

theorem NackEntry.word0_zero : t.word0.extractLsb 31 28 = 0#4 := by
  ext i hi
  grind [NackEntry.word0]

end Word0

/-- The fields of an entry, each read from its own word of the image (10_state.md R30). -/
theorem NackEntry.ofImage_append (w0 w1 : Word) : NackEntry.ofImage (w0 ++ w1) =
    { nackSn := w0.extractLsb 17 0, e2 := w0.getLsbD 18, e3 := w0.getLsbD 19, range := w0.extractLsb 27 20
      soStart := w1.extractLsb 31 16, soEnd := w1.extractLsb 15 0 } := by
  simp only [NackEntry.ofImage, NackEntry.mk.injEq]
  refine ⟨?_, ?_, ?_, ?_, ?_, ?_⟩
  · ext i hi
    grind
  · grind
  · grind
  · ext i hi
    grind
  · ext i hi
    grind
  · ext i hi
    grind

theorem NackEntry.ofImage_words (t : NackEntry) : NackEntry.ofImage (t.word0 ++ t.word1) = t := by
  obtain ⟨hstart, hend⟩ := extractLsb_halves t.soStart t.soEnd
  rw [NackEntry.ofImage_append, t.word0_nackSn, t.word0_e2, t.word0_e3, t.word0_range]
  exact congrArg₂ (fun a b => { t with soStart := a, soEnd := b }) hstart hend

/-- Settles O53: each field is read from its own bits of the image. -/
theorem tableImagesHoldEveryField : Obligations.TableImagesHoldEveryField :=
  ⟨fun t => ⟨t.ofImage_words, t.word0_zero, t.word0_nackSn, t.word0_range, t.word0_e2, t.word0_e3⟩,
    fun g => ⟨g.ofImage_image, (extractLsb_halves g.start g.stop).1⟩⟩

/-! #### Reset -/

theorem State.ctx_afterReset (s : State) (c : Nat) : s.afterReset.ctx c = Ctx.fresh := by
  change (List.replicate s.params.nCtx Ctx.fresh).getD c Ctx.fresh = Ctx.fresh
  rw [List.getD_eq_getElem?_getD, List.getElem?_replicate]
  split <;> rfl

/-- Settles O54: the state after the move is `State.afterReset`. -/
theorem resetLeavesTheResetState : Obligations.ResetLeavesTheResetState := by
  intro s rest h
  refine ⟨State.afterReset { s with moves := rest }, step_of_moves h, rfl, rfl, ?_, ?_, rfl,
    List.length_replicate, fun c _ => State.ctx_afterReset _ c, rfl, rfl, rfl, rfl⟩
  · rintro (_ | _) <;> rfl
  · rintro (_ | _) <;> rfl

theorem State.inv_resetWith {p : Params} (hp : p.ok = true) : (State.resetWith p).Inv where
  spaces := ⟨Memory.wf_nil _, Memory.wf_nil _, Memory.wf_nil _, Memory.wf_nil _⟩
  gaps := by
    refine ⟨hp, List.length_replicate, fun x hx => ?_⟩
    rw [List.eq_of_mem_replicate hx]
    exact .fresh (Params.one_le_maxGaps_of_ok hp)
  bytes := by
    intro x hx
    rw [List.eq_of_mem_replicate hx]
    exact .fresh

/-- Settles O56: the reset state meets the invariant for all legal parameters. -/
theorem resetMeetsTheInvariant : Obligations.ResetMeetsTheInvariant := State.inv_resetWith (by decide)

/-! #### Where the host writes and reads -/

theorem State.arg_setArg_same (s : State) (i : ArgReg) (v : Word) : (s.setArg i v).arg i = v := by
  cases i <;> rfl

theorem State.arg_setArg_other (s : State) {i j : ArgReg} (v : Word) (h : j ≠ i) : (s.setArg i v).arg j = s.arg j := by
  cases i <;> cases j <;> simp [State.arg] at h ⊢

theorem State.setArg_eq (s : State) (i : ArgReg) (v : Word) : s.setArg i v =
    { s with a0 := (s.setArg i v).a0, a1 := (s.setArg i v).a1, a2 := (s.setArg i v).a2, a3 := (s.setArg i v).a3 } := by
  cases i <;> rfl

theorem ReadOnlyLoc.outside_eq_none {s : State} {l : ReadOnlyLoc} (h : s.hasReadOnly l) :
    l.outside s.params = none := by
  cases l with
  | res i => rfl
  | status => rfl
  | cap => rfl
  | obuf a => exact if_pos h
  | gout i => exact if_pos h

/-- A read goes through exactly at the places of 10_state.md R40, and gives what the place holds. -/
theorem State.hostRead_eq_ok {s : State} {l : Loc} {v : HostValue} : s.hostRead l = .ok v ↔ s.Reads l v := by
  constructor
  · intro h
    cases l with
    | arg i => cases i <;> cases h <;> constructor
    | res i => cases i <;> cases h <;> constructor
    | status => cases h; exact .status
    | cap => cases h; exact .cap
    | cmd => cases h
    | ibuf a => simp only [State.hostRead] at h; split at h <;> cases h; exact .ibuf ‹_›
    | obuf a => simp only [State.hostRead] at h; split at h <;> cases h; exact .obuf ‹_›
    | ntab i => simp only [State.hostRead] at h; split at h <;> cases h; exact .ntab ‹_›
    | gout i => simp only [State.hostRead] at h; split at h <;> cases h; exact .gout ‹_›
  · intro h
    cases h with
    | ibuf h => exact if_pos h
    | obuf h => exact if_pos h
    | ntab h => exact if_pos h
    | gout h => exact if_pos h
    | _ => rfl

/-- A range reads as the values of its places, from the first index to the last. -/
theorem State.hostReads_range {s : State} {sp : Space} {first n : Nat} {val : Nat → HostValue}
    (h : ∀ j, j ≤ n → s.Reads (sp.place (first + j)) (val j)) :
    s.hostReads (ReadItem.range sp first (first + n)).places = .ok ((List.range (n + 1)).map val) := by
  have hlen : first + n + 1 - first = n + 1 := by omega
  rw [State.hostReads_eq_ok, ReadItem.places, hlen, List.forall₂_map_left_iff, List.forall₂_map_right_iff,
    List.forall₂_same]
  intro j hj
  exact State.hostRead_eq_ok.2 (h j (Nat.lt_succ_iff.1 (List.mem_range.1 hj)))

theorem State.ReadsItem.hostReads {s : State} {item : ReadItem} {vs : List HostValue} (h : s.ReadsItem item vs) :
    s.hostReads item.places = .ok vs := by
  cases h with
  | place h => exact State.hostReads_eq_ok.2 (.cons (State.hostRead_eq_ok.2 h) .nil)
  | ibuf h => exact State.hostReads_range fun j hj => .ibuf (by omega)
  | obuf h => exact State.hostReads_range fun j hj => .obuf (by omega)
  | ntab h => exact State.hostReads_range fun j hj => .ntab (by omega)
  | gout h => exact State.hostReads_range fun j hj => .gout (by omega)

/-- An `RD` line reads as its items, one after the other (30_encoding.md R82). -/
theorem State.hostReads_items {s : State} {items : List ReadItem} {vss : List (List HostValue)}
    (h : List.Forall₂ s.ReadsItem items vss) : s.hostReads (items.flatMap ReadItem.places) = .ok vss.flatten := by
  induction h with
  | nil => rfl
  | cons hitem _ ih => exact State.hostReads_append hitem.hostReads ih

theorem State.hostReads_moves (s : State) (rest : List HostMove) (ls : List Loc) :
    ({ s with moves := rest } : State).hostReads ls = s.hostReads ls := by
  have hread : ∀ l, ({ s with moves := rest } : State).hostRead l = s.hostRead l := fun l => by cases l <;> rfl
  induction ls with
  | nil => rfl
  | cons l ls ih => simp only [State.hostReads, ih, hread]

/-- Settles O55: a clause per move, from the laws of what it writes or reads. -/
theorem hostMovesTouchOnlyTheirPlace : Obligations.HostMovesTouchOnlyTheirPlace := by
  intro s rest
  refine ⟨step_of_no_moves, fun i v h => ?wr, fun a bs h hfit => ?wrb, fun i e h hi => ?wrn, fun l v h hl => ?ignored,
    fun items vss h hitems => ?rd, fun l v => State.hostRead_eq_ok⟩
  case wr =>
    exact ⟨_, step_of_moves h, State.arg_setArg_same _ i v, fun j hj => State.arg_setArg_other _ v hj,
      State.setArg_eq _ i v⟩
  case wrb =>
    refine ⟨{ s with moves := rest, ibuf := s.ibuf.setList a bs }, ?_, rfl, fun j b hb => ?_, fun j hj => ?_⟩
    · rw [step_of_moves h]
      exact if_pos hfit
    · obtain ⟨hj, rfl⟩ := List.getElem?_eq_some_iff.1 hb
      simp [State.ibufByte, Memory.find?_setList, hj]
    · simp only [State.ibufByte, Memory.find?_setList]
      rw [if_neg (by omega)]
  case wrn =>
    refine ⟨{ s with moves := rest, ntab := s.ntab.set i e }, ?_, rfl, ?_, fun j hj => ?_⟩
    · rw [step_of_moves h]
      exact if_pos hi
    · simp [State.ntabEntry]
    · simp [State.ntabEntry, Memory.find?_set_other _ _ hj]
  case ignored =>
    rw [step_of_moves h]
    simp only [hostMove, ReadOnlyLoc.outside_eq_none hl]
  case rd =>
    rw [step_of_moves h]
    simp only [hostMove, State.hostReads_moves, State.hostReads_items hitems]

end Sys2Proof.Machine

/-! ### Every space stays in canonical form inside its bounds -/

namespace Sys2Proof.Machine

/-- What `State.SpacesOk` speaks of: the sizes of the spaces and their contents (20_memory.md R50). -/
def State.spaces (s : State) : Params × Memory Byte × Memory Byte × Memory NackEntry × Memory GapPair :=
  (s.params, s.ibuf, s.obuf, s.ntab, s.gout)

namespace State.SpacesOk

variable {s t : State}

theorem congr (hs : s.SpacesOk) (heq : t.spaces = s.spaces) : t.SpacesOk := by
  simp only [State.spaces, Prod.mk.injEq] at heq
  obtain ⟨hparams, hibuf, hobuf, hntab, hgout⟩ := heq
  constructor
  · rw [hparams, hibuf]; exact hs.ibuf
  · rw [hparams, hobuf]; exact hs.obuf
  · rw [hparams, hntab]; exact hs.ntab
  · rw [hparams, hgout]; exact hs.gout

theorem writeObuf (hs : s.SpacesOk) {bs : List Byte} (hlen : bs.length ≤ s.params.obufBytes) :
    (s.writeObuf bs).SpacesOk :=
  { hs with obuf := Memory.wf_setList _ bs (by rwa [Nat.zero_add]) hs.obuf }

theorem writeNtab (hs : s.SpacesOk) {ts : List NackEntry} (hlen : ts.length ≤ s.params.nNack) :
    (s.writeNtab ts).SpacesOk :=
  { hs with ntab := Memory.wf_setList _ ts (by rwa [Nat.zero_add]) hs.ntab }

theorem writeGout (hs : s.SpacesOk) {gs : List GapPair} (hlen : gs.length ≤ s.params.maxGaps) :
    (s.writeGout gs).SpacesOk :=
  { hs with gout := Memory.wf_setList _ gs (by rwa [Nat.zero_add]) hs.gout }

theorem afterReset (s : State) : s.afterReset.SpacesOk :=
  ⟨Memory.wf_nil _, Memory.wf_nil _, Memory.wf_nil _, Memory.wf_nil _⟩

theorem of_snAnswers (hs : s.SpacesOk) (h : snAnswers s t) : t.SpacesOk := by
  obtain ⟨e, -, rfl⟩ | ⟨v, rfl⟩ := h <;> exact hs.congr rfl

/-- A command writes each space from index 0 and at most as many places as the space has (20_memory.md R59). -/
theorem of_exec {i : Instr} (hs : s.SpacesOk) (h : exec i s = .next t) : t.SpacesOk := by
  cases i with
  | snAdd k => exact hs.of_snAnswers (execSnAdd_cases h)
  | snDist k => exact hs.of_snAnswers (execSnDist_cases h)
  | snCmp k => exact hs.of_snAnswers (execSnCmp_cases h)
  | snInwin k => exact hs.of_snAnswers (execSnInwin_cases h)
  | rtSeg c last =>
    obtain ⟨e, -, rfl⟩ | ⟨-, -, -, -, -, -, rfl⟩ := execRtSeg_cases h <;> exact hs.congr rfl
  | rtGet c =>
    obtain ⟨e, -, rfl⟩ | ⟨-, -, hfit, rfl⟩ := execRtGet_cases h
    · exact hs.congr rfl
    · exact (hs.writeObuf (by rwa [State.dataFrom_length])).congr rfl
  | rtDrop c =>
    obtain ⟨e, -, rfl⟩ | ⟨-, rfl⟩ := execRtDrop_cases h <;> exact hs.congr rfl
  | rtMiss c =>
    obtain ⟨e, -, rfl⟩ | ⟨-, rfl⟩ := execRtMiss_cases h <;> exact hs.congr rfl
  | rtList c =>
    obtain ⟨e, -, rfl⟩ | ⟨-, hfit, rfl⟩ := execRtList_cases h
    · exact hs.congr rfl
    · exact (hs.writeGout (by rwa [List.length_map])).congr rfl
  | encData p si m k =>
    obtain ⟨e, -, rfl⟩ | ⟨f, -, -, -, -, hfit, rfl⟩ := execEncData_cases h
    · exact hs.congr rfl
    · exact (hs.writeObuf (by rwa [headerBytes_length])).congr rfl
  | decData m k =>
    obtain ⟨e, -, rfl⟩ | ⟨f, si, -, -, -, -, -, rfl⟩ := execDecData_cases h <;> exact hs.congr rfl
  | encStatus k =>
    obtain ⟨e, -, rfl⟩ | ⟨f, entries, emitted, -, -, -, -, -, -, -, hfit, rfl⟩ := execEncStatus_cases h
    · exact hs.congr rfl
    · exact (hs.writeObuf (by rwa [statusBytes_length])).congr rfl
  | decStatus k =>
    obtain ⟨e, -, rfl⟩ | ⟨f, ts, pos, -, -, -, -, -, hread, rfl⟩ := execDecStatus_cases h
    · exact hs.congr rfl
    · exact (hs.writeNtab (readEntries_ok hread).1).congr rfl

/-- A host move writes inside the space it names, or faults (10_state.md R40, log 6). -/
theorem of_hostMove {m : HostMove} (hs : s.SpacesOk) (h : hostMove m s = .next t) : t.SpacesOk := by
  cases m with
  | wr i v =>
    cases h
    cases i <;> exact hs.congr rfl
  | wrb a bs =>
    simp only [hostMove] at h
    split at h <;> cases h
    rename_i hfit
    exact { hs with ibuf := Memory.wf_setList _ bs hfit hs.ibuf }
  | wrn i e =>
    simp only [hostMove] at h
    split at h <;> cases h
    rename_i hi
    exact { hs with ntab := Memory.wf_set _ e hi hs.ntab }
  | writeIgnored l v =>
    simp only [hostMove] at h
    split at h <;> cases h
    exact hs
  | cmd w =>
    simp only [hostMove, command] at h
    split at h
    · exact hs.of_exec h
    · cases h
      exact hs.congr rfl
  | rd items =>
    simp only [hostMove] at h
    split at h <;> cases h
    exact hs.congr rfl
  | reset =>
    cases h
    exact .afterReset s

end State.SpacesOk

/-- Settles O57: without a move the state stays, and every move keeps the spaces. -/
theorem stepKeepsTheSpaces : Obligations.StepKeepsTheSpaces := by
  intro s t hs h
  cases hmoves : s.moves with
  | nil =>
    rw [step_of_no_moves hmoves] at h
    cases h
    exact hs
  | cons m rest =>
    rw [step_of_moves hmoves] at h
    have hnext : ({ s with moves := rest } : State).SpacesOk := hs.congr rfl
    exact hnext.of_hostMove h

end Sys2Proof.Machine

/-! ### No command stops the machine -/

namespace Sys2Proof.Machine

/-- The outcome is a next state: the block takes its next command from there (60_exceptions.md R219). -/
def GoesOn (o : Out) : Prop := ∃ t, o = .next t

namespace GoesOn

theorem raise (e : Status) (s : State) : GoesOn (raise e s) := ⟨_, rfl⟩

theorem finish (s : State) : GoesOn (finish s) := ⟨_, rfl⟩

/-- A check that goes on whether it fails or not. -/
theorem check {c : Prop} [Decidable c] {a b : Out} (ha : GoesOn a) (hb : ¬c → GoesOn b) :
    GoesOn (if c then a else b) := by
  split
  · exact ha
  · exact hb ‹_›

/-- A guard that is never taken. -/
theorem guard {c : Prop} [Decidable c] {a b : Out} (hc : ¬c) (hb : GoesOn b) : GoesOn (if c then a else b) := by
  rwa [if_neg hc]

theorem withRing {ksel : KSel} {s : State} {body : Nat → Out} (hbody : ∀ m, GoesOn (body m)) :
    GoesOn (withRing ksel s body) := by
  unfold Machine.withRing
  split
  · exact .raise _ s
  · exact hbody _

end GoesOn

/-! #### What the guards of 20_memory.md R59 compare with a space fits into it -/

/-- `OBUF` holds an SDU of `MAX_SDU` bytes and a status PDU of `N_NACK` entries (00_scope.md R8). -/
theorem Params.obufBytes_of_ok {p : Params} (h : p.ok = true) :
    Config.maxSdu ≤ p.obufBytes ∧ fixedPart + 8 * p.nNack ≤ p.obufBytes := by
  simp only [Params.ok, Bool.and_eq_true, decide_eq_true_eq] at h
  simp only [Config.maxSdu, fixedPart]
  omega

theorem takeFitting_size_le (f : StatusFormat) (budget used : Nat) (ts : List NackEntry) :
    entriesSize f (takeFitting f budget used ts) ≤ 8 * ts.length :=
  (entriesSize_le f _).trans (Nat.mul_le_mul_left 8 (takeFitting_length_le f budget used ts))

/-- The length of a context without gaps is known, so it is the length of an SDU. -/
theorem Ctx.GapInv.totLen_le_of_no_gaps {maxGaps : Nat} {x : Ctx} (hx : x.GapInv maxGaps) (h : x.gaps = []) :
    x.totLen ≤ Config.maxSdu := by
  have hseen : x.lastSeen = true := by
    rw [← Bool.not_eq_false, hx.lastSeen_eq_false_iff, h]
    simp
  exact (hx.lengthKnown hseen).2.1

section Commands

variable {s : State}

theorem State.GapsOk.ctx (hs : s.GapsOk) {c : Nat} (hc : ¬s.params.nCtx ≤ c) : (s.ctx c).GapInv s.params.maxGaps :=
  hs.gaps _ (State.ctx_mem (by rw [hs.ctxCount]; omega))

theorem execSnAdd_goesOn (k : KSel) (s : State) : GoesOn (execSnAdd k s) :=
  .withRing fun _ => .check (.raise _ s) fun _ => .finish _

theorem execSnDist_goesOn (k : KSel) (s : State) : GoesOn (execSnDist k s) :=
  .withRing fun _ => .check (.raise _ s) fun _ => .finish _

theorem execSnCmp_goesOn (k : KSel) (s : State) : GoesOn (execSnCmp k s) :=
  .withRing fun _ => .check (.raise _ s) fun _ => .finish _

theorem execSnInwin_goesOn (k : KSel) (s : State) : GoesOn (execSnInwin k s) :=
  .withRing fun _ => .check (.raise _ s) fun _ => .finish _

theorem execRtSeg_goesOn (c : Nat) (last : Bool) (s : State) : GoesOn (execRtSeg c last s) :=
  .check (.raise _ s) fun _ => .check (.raise _ s) fun _ => .check (.raise _ s) fun _ => .check (.raise _ s) fun _ =>
    .check (.raise _ s) fun _ => .check (.raise _ s) fun _ => .finish _

theorem execRtGet_goesOn (hs : s.GapsOk) (c : Nat) : GoesOn (execRtGet c s) := by
  refine .check (.raise _ s) fun hc => .check (.raise _ s) fun hgaps => .guard (not_lt.2 ?_) (.finish _)
  exact ((hs.ctx hc).totLen_le_of_no_gaps (not_not.1 hgaps)).trans (Params.obufBytes_of_ok hs.params).1

theorem execRtDrop_goesOn (c : Nat) (s : State) : GoesOn (execRtDrop c s) := .check (.raise _ s) fun _ => .finish _

theorem execRtMiss_goesOn (c : Nat) (s : State) : GoesOn (execRtMiss c s) := .check (.raise _ s) fun _ => .finish _

theorem execRtList_goesOn (hs : s.GapsOk) (c : Nat) : GoesOn (execRtList c s) :=
  .check (.raise _ s) fun hc => .guard (not_lt.2 (hs.ctx hc).capacity) (.finish _)

theorem execEncData_goesOn (hok : s.params.ok = true) (p : Bool) (si : SegInfo) (m : Mode) (k : KSel) :
    GoesOn (execEncData p si m k s) := by
  unfold execEncData
  split
  · exact .raise _ s
  · rename_i f _
    refine .check (.raise _ s) fun _ => .guard (not_lt.2 ?_) (.finish _)
    calc hdrLen f si ≤ 5 := (hdrLen_bounds f si).2
      _ ≤ Config.maxSdu := by decide
      _ ≤ s.params.obufBytes := (Params.obufBytes_of_ok hok).1

theorem execDecData_goesOn (m : Mode) (k : KSel) (s : State) : GoesOn (execDecData m k s) := by
  unfold execDecData
  split
  · exact .raise _ s
  · exact .check (.raise _ s) fun _ => .check (.raise _ s) fun _ => .check (.raise _ s) fun _ =>
      .check (.raise _ s) fun _ => .finish _

theorem execEncStatus_goesOn (hok : s.params.ok = true) (k : KSel) : GoesOn (execEncStatus k s) := by
  unfold execEncStatus
  split
  · exact .raise _ s
  · rename_i f _
    refine .check (.raise _ s) fun hargs => .check (.raise _ s) fun _ => .check (.raise _ s) fun _ =>
      .guard (not_lt.2 ?_) (.finish _)
    have hsize := takeFitting_size_le f s.a2.toNat fixedPart (s.ntabFrom 0 s.a1.toNat)
    have hroom := (Params.obufBytes_of_ok hok).2
    rw [State.ntabFrom_length] at hsize
    omega

theorem execDecStatus_goesOn (k : KSel) (s : State) : GoesOn (execDecStatus k s) := by
  unfold execDecStatus
  split
  · exact .raise _ s
  · refine .check (.raise _ s) fun _ => .check (.raise _ s) fun _ => .check (.raise _ s) fun _ =>
      .check (.raise _ s) fun _ => .check (.raise _ s) fun _ => ?_
    split
    · exact .raise _ s
    · exact .finish _

theorem exec_goesOn (hs : s.GapsOk) (i : Instr) : GoesOn (exec i s) := by
  cases i with
  | snAdd k => exact execSnAdd_goesOn k s
  | snDist k => exact execSnDist_goesOn k s
  | snCmp k => exact execSnCmp_goesOn k s
  | snInwin k => exact execSnInwin_goesOn k s
  | rtSeg c last => exact execRtSeg_goesOn c last s
  | rtGet c => exact execRtGet_goesOn hs c
  | rtDrop c => exact execRtDrop_goesOn c s
  | rtMiss c => exact execRtMiss_goesOn c s
  | rtList c => exact execRtList_goesOn hs c
  | encData p si m k => exact execEncData_goesOn hs.params p si m k
  | decData m k => exact execDecData_goesOn m k s
  | encStatus k => exact execEncStatus_goesOn hs.params k
  | decStatus k => exact execDecStatus_goesOn k s

theorem command_goesOn (hs : s.GapsOk) (w : Word) : GoesOn (command w s) := by
  unfold command
  split
  · exact exec_goesOn hs _
  · exact .raise _ s

end Commands

/-- Settles O60: the parameters and the gap lists of the invariant shut out every guard's fault. -/
theorem noCommandStopsTheMachine : Obligations.NoCommandStopsTheMachine := by
  refine ⟨fun s i hs => exec_goesOn hs.gaps i, fun s w rest hs hmoves => ?_⟩
  obtain ⟨hparams, hcount, hgaps⟩ := hs.gaps
  have hnext : ({ s with moves := rest } : State).GapsOk := ⟨hparams, hcount, hgaps⟩
  rw [step_of_moves hmoves]
  exact command_goesOn hnext w

end Sys2Proof.Machine

/-! ### The command word: each row against the decoder and the encoder (30_encoding.md) -/

namespace Sys2Proof

/-! #### Two words that agree on some of their bits -/

/-- The words have the same bits at the places that `m` sets. -/
def AgreeOn (m w w' : Word) : Prop := w &&& m = w' &&& m

section Agree

variable {m n w w' : Word}

theorem AgreeOn.of_bits (h : ∀ i < 32, m.getLsbD i = true → w.getLsbD i = w'.getLsbD i) : AgreeOn m w w' := by
  refine BitVec.eq_of_getLsbD_eq fun i hi => ?_
  rw [BitVec.getLsbD_and, BitVec.getLsbD_and]
  cases hm : m.getLsbD i with
  | false => rw [Bool.and_false, Bool.and_false]
  | true => rw [h i hi hm]

theorem AgreeOn.of_bit {j : Nat} (h : w.getLsbD j = w'.getLsbD j) (hm : ∀ i < 32, m.getLsbD i = true → i = j) :
    AgreeOn m w w' :=
  .of_bits fun i hi hset => hm i hi hset ▸ h

/-- A field of a word is all there is to the word at the field's places. -/
theorem AgreeOn.of_extractLsb {hi lo : Nat} (h : w.extractLsb hi lo = w'.extractLsb hi lo)
    (hm : ∀ i < 32, m.getLsbD i = true → lo ≤ i ∧ i ≤ hi) : AgreeOn m w w' := by
  refine .of_bits fun i hi32 hset => ?_
  obtain ⟨hlo, hhi⟩ := hm i hi32 hset
  have hbit := congrArg (·.getLsbD (i - lo)) h
  simpa [BitVec.getLsbD_extract, Nat.add_sub_cancel' hlo, Nat.sub_le_sub_right hhi lo] using hbit

theorem AgreeOn.or (hm : AgreeOn m w w') (hn : AgreeOn n w w') : AgreeOn (m ||| n) w w' := by
  rw [AgreeOn, BitVec.and_or_distrib_left, BitVec.and_or_distrib_left, hm, hn]

theorem AgreeOn.eq_of_allOnes (h : AgreeOn m w w') (hm : m = BitVec.allOnes 32) : w = w' := by
  rwa [AgreeOn, hm, BitVec.and_allOnes, BitVec.and_allOnes] at h

end Agree

/-! #### The codes of the fields (30_encoding.md R74 to R76) -/

@[simp] theorem KSel.ofCode_code (k : KSel) : KSel.ofCode k.code = k := by cases k <;> rfl

theorem KSel.ofCode_injective : Function.Injective KSel.ofCode := by
  unfold Function.Injective
  decide

theorem SegInfo.ofCode_injective : Function.Injective SegInfo.ofCode := by
  unfold Function.Injective
  decide

/-! #### The fields of a word (30_encoding.md R71) -/

section Fields

variable {w w' : Word}

theorem ctxField_lt (w : Word) : ctxField w < 256 := (w.extractLsb 23 16).isLt

theorem agreeOn_of_ctxField (h : ctxField w = ctxField w') : AgreeOn 0x00FF0000#32 w w' :=
  .of_extractLsb (BitVec.eq_of_toNat_eq h) (by decide)

theorem agreeOn_of_lastField (h : lastField w = lastField w') : AgreeOn 0x00000040#32 w w' := .of_bit h (by decide)

theorem agreeOn_of_pollField (h : pollField w = pollField w') : AgreeOn 0x00000020#32 w w' := .of_bit h (by decide)

theorem agreeOn_of_siField (h : siField w = siField w') : AgreeOn 0x00000018#32 w w' :=
  .of_extractLsb (SegInfo.ofCode_injective h) (by decide)

theorem agreeOn_of_modeField (h : modeField w = modeField w') : AgreeOn 0x00000004#32 w w' := by
  refine .of_bit (j := 2) ?_ (by decide)
  unfold modeField at h
  grind

theorem agreeOn_of_kselField (h : kselField w = kselField w') : AgreeOn 0x00000003#32 w w' :=
  .of_extractLsb (KSel.ofCode_injective h) (by decide)

end Fields

section Assemble

variable (op ctx : BitVec 8) (last poll : Bool) (si : BitVec 2) (mode : BitVec 1) (ksel : BitVec 2)

/-- The bits of an assembled word, lowest field first. -/
theorem getLsbD_assemble (i : Nat) : (assemble op ctx last poll si mode ksel).getLsbD i =
    if i < 2 then ksel.getLsbD i
    else if i < 3 then mode.getLsbD (i - 2)
    else if i < 5 then si.getLsbD (i - 3)
    else if i < 6 then (BitVec.ofBool poll).getLsbD (i - 5)
    else if i < 7 then (BitVec.ofBool last).getLsbD (i - 6)
    else if i < 16 then false
    else if i < 24 then ctx.getLsbD (i - 16)
    else op.getLsbD (i - 24) := by
  change BitVec.getLsbD (w := 8 + 8 + 9 + 1 + 1 + 2 + 1 + 2) (_ ++ ksel) i = _
  simp only [BitVec.getLsbD_append, BitVec.getLsbD_zero]
  grind

@[simp] theorem ctxField_assemble : ctxField (assemble op ctx last poll si mode ksel) = ctx.toNat := by
  refine congrArg BitVec.toNat (a₂ := ctx) (BitVec.eq_of_getLsbD_eq fun i hi => ?_)
  rw [BitVec.getLsbD_extract, getLsbD_assemble]
  grind

@[simp] theorem lastField_assemble : lastField (assemble op ctx last poll si mode ksel) = last := by
  rw [lastField, getLsbD_assemble]
  cases last <;> rfl

@[simp] theorem pollField_assemble : pollField (assemble op ctx last poll si mode ksel) = poll := by
  rw [pollField, getLsbD_assemble]
  cases poll <;> rfl

@[simp] theorem siField_assemble : siField (assemble op ctx last poll si mode ksel) = .ofCode si := by
  refine congrArg SegInfo.ofCode (BitVec.eq_of_getLsbD_eq fun i hi => ?_)
  rw [BitVec.getLsbD_extract, getLsbD_assemble]
  grind

@[simp] theorem modeField_assemble (m : Mode) : modeField (assemble op ctx last poll si m.code ksel) = m := by
  rw [modeField, getLsbD_assemble]
  cases m <;> rfl

@[simp] theorem kselField_assemble : kselField (assemble op ctx last poll si mode ksel) = .ofCode ksel := by
  refine congrArg KSel.ofCode (BitVec.eq_of_getLsbD_eq fun i hi => ?_)
  rw [BitVec.getLsbD_extract, getLsbD_assemble]
  grind

end Assemble

/-! #### The rows (30_encoding.md R72) -/

theorem Opcode.matchesWord_iff {r : Opcode} {w : Word} : r.matchesWord w = true ↔ w &&& r.mask = r.pattern := by
  rw [Opcode.matchesWord, beq_iff_eq]

theorem mem_opcodes (r : Opcode) : r ∈ opcodes := by cases r <;> decide

theorem Opcode.eq_of_op_eq {r r' : Opcode} (h : r.op = r'.op) : r = r' :=
  (by decide : ∀ r ∈ opcodes, ∀ r' ∈ opcodes, r.op = r'.op → r = r') r (mem_opcodes r) r' (mem_opcodes r') h

/-- The `OP` field lies under every row's mask, so a word of a row has the row's `OP`. -/
theorem Opcode.opField_of_matchesWord {r : Opcode} {w : Word} (h : r.matchesWord w = true) : opField w = r.op := by
  have hmask : r.mask.extractLsb 31 24 = BitVec.allOnes 8 := by cases r <;> decide
  have hop : r.pattern.extractLsb 31 24 = r.op := by cases r <;> decide
  rw [← hop, ← Opcode.matchesWord_iff.mp h, BitVec.extractLsb_and, hmask, BitVec.and_allOnes]
  rfl

/-- A word matches one row at most. -/
theorem Opcode.eq_of_matchesWord {r r' : Opcode} {w : Word} (h : r.matchesWord w = true)
    (h' : r'.matchesWord w = true) : r = r' :=
  eq_of_op_eq ((opField_of_matchesWord h).symm.trans (opField_of_matchesWord h'))

@[simp] theorem Opcode.opcode_command (r : Opcode) (w : Word) : (r.command w).opcode = r := by cases r <;> rfl

/-- The `CTX` field of a word holds 8 bits, and it is the only field that bounds a command. -/
theorem Opcode.wellFormed_command (r : Opcode) (w : Word) : WellFormed (r.command w) = true := by
  have hctx : ctxFits (ctxField w) = true := decide_eq_true (ctxField_lt w)
  cases r <;> simp [Opcode.command, WellFormed, hctx]

/-- The mask of a row and the fields its command uses cover the word: two words of a row with one command are the same
word. -/
theorem Opcode.eq_of_command_eq {r : Opcode} {w w' : Word} (hw : r.matchesWord w = true)
    (hw' : r.matchesWord w' = true) (h : r.command w = r.command w') : w = w' := by
  have hrow : AgreeOn r.mask w w' := (matchesWord_iff.mp hw).trans (matchesWord_iff.mp hw').symm
  cases r with
  | snAdd => exact (hrow.or (agreeOn_of_kselField (Instr.snAdd.inj h))).eq_of_allOnes (by decide)
  | snDist => exact (hrow.or (agreeOn_of_kselField (Instr.snDist.inj h))).eq_of_allOnes (by decide)
  | snCmp => exact (hrow.or (agreeOn_of_kselField (Instr.snCmp.inj h))).eq_of_allOnes (by decide)
  | snInwin => exact (hrow.or (agreeOn_of_kselField (Instr.snInwin.inj h))).eq_of_allOnes (by decide)
  | rtSeg =>
    obtain ⟨hctx, hlast⟩ := Instr.rtSeg.inj h
    exact ((hrow.or (agreeOn_of_ctxField hctx)).or (agreeOn_of_lastField hlast)).eq_of_allOnes (by decide)
  | rtGet => exact (hrow.or (agreeOn_of_ctxField (Instr.rtGet.inj h))).eq_of_allOnes (by decide)
  | rtDrop => exact (hrow.or (agreeOn_of_ctxField (Instr.rtDrop.inj h))).eq_of_allOnes (by decide)
  | rtMiss => exact (hrow.or (agreeOn_of_ctxField (Instr.rtMiss.inj h))).eq_of_allOnes (by decide)
  | rtList => exact (hrow.or (agreeOn_of_ctxField (Instr.rtList.inj h))).eq_of_allOnes (by decide)
  | encData =>
    obtain ⟨hpoll, hsi, hmode, hksel⟩ := Instr.encData.inj h
    have hdata := (agreeOn_of_pollField hpoll).or (agreeOn_of_siField hsi)
    have hform := (agreeOn_of_modeField hmode).or (agreeOn_of_kselField hksel)
    exact (hrow.or (hdata.or hform)).eq_of_allOnes (by decide)
  | decData =>
    obtain ⟨hmode, hksel⟩ := Instr.decData.inj h
    exact (hrow.or ((agreeOn_of_modeField hmode).or (agreeOn_of_kselField hksel))).eq_of_allOnes (by decide)
  | encStatus => exact (hrow.or (agreeOn_of_kselField (Instr.encStatus.inj h))).eq_of_allOnes (by decide)
  | decStatus => exact (hrow.or (agreeOn_of_kselField (Instr.decStatus.inj h))).eq_of_allOnes (by decide)

/-! #### The decoder looks up the row (30_encoding.md R79) -/

theorem decode_of_matchesWord {r : Opcode} {w : Word} (h : r.matchesWord w = true) : decode w = .ok (r.command w) := by
  have hfind : opcodes.find? (fun r => r.matchesWord w) = some r := by
    obtain ⟨r', hr'⟩ := Option.isSome_iff_exists.mp
      (List.find?_isSome.mpr ⟨r, mem_opcodes r, h⟩ : (opcodes.find? fun r => r.matchesWord w).isSome)
    rw [hr', Opcode.eq_of_matchesWord h (List.find?_some hr' :)]
  simp only [decode, hfind]

theorem decode_of_no_match {w : Word} (h : ∀ r : Opcode, r.matchesWord w ≠ true) :
    decode w = .error (illegalReason w) := by
  simp only [decode, List.find?_eq_none.mpr fun r _ => h r]

theorem exists_row_of_decode {w : Word} {i : Instr} (h : decode w = .ok i) :
    ∃ r : Opcode, r.matchesWord w = true ∧ r.command w = i := by
  by_cases hrow : ∃ r : Opcode, r.matchesWord w = true
  · obtain ⟨r, hr⟩ := hrow
    exact ⟨r, hr, Except.ok.inj ((decode_of_matchesWord hr).symm.trans h)⟩
  · rw [decode_of_no_match (not_exists.mp hrow)] at h
    cases h

/-! #### The encoder writes the command's row (30_encoding.md R71, R72) -/

theorem encodesOwnRow (i : Instr) : Laws.EncodesOwnRow.Statement i := by
  cases i with
  | snAdd k => exact Laws.EncodesOwnRow.snAdd k
  | snDist k => exact Laws.EncodesOwnRow.snDist k
  | snCmp k => exact Laws.EncodesOwnRow.snCmp k
  | snInwin k => exact Laws.EncodesOwnRow.snInwin k
  | rtSeg c last => exact Laws.EncodesOwnRow.rtSeg c last
  | rtGet c => exact Laws.EncodesOwnRow.rtGet c
  | rtDrop c => exact Laws.EncodesOwnRow.rtDrop c
  | rtMiss c => exact Laws.EncodesOwnRow.rtMiss c
  | rtList c => exact Laws.EncodesOwnRow.rtList c
  | encData p si m k => exact Laws.EncodesOwnRow.encData p si m k
  | decData m k => exact Laws.EncodesOwnRow.decData m k
  | encStatus k => exact Laws.EncodesOwnRow.encStatus k
  | decStatus k => exact Laws.EncodesOwnRow.decStatus k

theorem matchesWord_encode (i : Instr) : i.opcode.matchesWord (encode i) = true := (encodesOwnRow i).1

/-- Every field of a command is read back from the place the encoder wrote it to. -/
theorem command_encode {i : Instr} (h : WellFormed i = true) : i.opcode.command (encode i) = i := by
  have hctx : ∀ {c : Nat}, ctxFits c = true → (BitVec.ofNat 8 c).toNat = c := fun hc =>
    Nat.mod_eq_of_lt (of_decide_eq_true hc)
  cases i with
  | snAdd k => simp [Instr.opcode, Opcode.command, encode]
  | snDist k => simp [Instr.opcode, Opcode.command, encode]
  | snCmp k => simp [Instr.opcode, Opcode.command, encode]
  | snInwin k => simp [Instr.opcode, Opcode.command, encode]
  | rtSeg c last => simp only [Instr.opcode, Opcode.command, encode, ctxField_assemble, lastField_assemble, hctx h]
  | rtGet c => simp only [Instr.opcode, Opcode.command, encode, ctxField_assemble, hctx h]
  | rtDrop c => simp only [Instr.opcode, Opcode.command, encode, ctxField_assemble, hctx h]
  | rtMiss c => simp only [Instr.opcode, Opcode.command, encode, ctxField_assemble, hctx h]
  | rtList c => simp only [Instr.opcode, Opcode.command, encode, ctxField_assemble, hctx h]
  | encData p si m k => simp [Instr.opcode, Opcode.command, encode]
  | decData m k => simp [Instr.opcode, Opcode.command, encode]
  | encStatus k => simp [Instr.opcode, Opcode.command, encode]
  | decStatus k => simp [Instr.opcode, Opcode.command, encode]

/-! #### The statements -/

/-- Settles O1: the word lies in the command's row, and the row reads the fields back. -/
theorem decodeOfEncode : Obligations.DecodeOfEncode := by
  intro i hi
  rw [decode_of_matchesWord (matchesWord_encode i), command_encode hi]

/-- Settles O2: the word and the word encoded afresh lie in one row and have one command. -/
theorem encodeOfDecode : Obligations.EncodeOfDecode := by
  intro w i h
  obtain ⟨r, hr, rfl⟩ := exists_row_of_decode h
  have hwf := r.wellFormed_command w
  have hrow := matchesWord_encode (r.command w)
  have hcommand := command_encode hwf
  rw [Opcode.opcode_command] at hrow hcommand
  exact ⟨hwf, Opcode.eq_of_command_eq hrow hr hcommand⟩

/-- Settles O3: the rows differ in `OP`, so a word that matches a row matches no other. -/
theorem everyWordHasOneReading : Obligations.EveryWordHasOneReading := by
  intro w
  simp only [← Opcode.matchesWord_iff]
  by_cases hrow : ∃ r : Opcode, r.matchesWord w = true
  · obtain ⟨r, hr⟩ := hrow
    exact .inl ⟨r, hr, fun r' hr' => Opcode.eq_of_matchesWord hr' hr, decode_of_matchesWord hr⟩
  · have hnone := not_exists.mp hrow
    exact .inr ⟨fun r hr => hnone r (Opcode.matchesWord_iff.mpr hr), _, decode_of_no_match hnone⟩

/-- Settles O4, by running the decoder on the seven words. -/
theorem writtenWordsDecode : Obligations.WrittenWordsDecode := by
  unfold Obligations.WrittenWordsDecode
  decide

end Sys2Proof

/-! ### The outputs each command writes (30_encoding.md R81) -/

namespace Sys2Proof.Machine

/-- From `s` to `t` no output has changed that 30_encoding.md R81 does not list for the row. -/
structure KeepsUnlisted (r : Opcode) (s t : State) : Prop where
  r1 : r ∉ [.rtSeg, .rtDrop, .decData, .encStatus, .decStatus] → t.r1 = s.r1
  r2 : r ∉ [.decData, .encStatus, .decStatus] → t.r2 = s.r2
  r3 : r ∉ [.decData, .encStatus] → t.r3 = s.r3
  r4r5 : r ∉ [.decData] → t.r4 = s.r4 ∧ t.r5 = s.r5
  obuf : r ∉ [.encData, .encStatus, .rtGet] → t.obuf = s.obuf
  ntab : r ∉ [.decStatus] → t.ntab = s.ntab
  gout : r ∉ [.rtList] → t.gout = s.gout
  ctxs : r ∉ [.rtSeg, .rtGet, .rtDrop] → t.ctxs = s.ctxs

namespace KeepsUnlisted

theorem of_status (r : Opcode) (s : State) (e : Status) : KeepsUnlisted r s { s with status := e } := by
  constructor <;> simp

/-- Every command writes `STATUS` and may write `R0`. -/
theorem of_r0 (r : Opcode) (s : State) (e : Status) (v : Word) : KeepsUnlisted r s { s with status := e, r0 := v } := by
  constructor <;> simp

theorem of_snAnswers (r : Opcode) {s t : State} (h : snAnswers s t) : KeepsUnlisted r s t := by
  obtain ⟨e, -, rfl⟩ | ⟨v, rfl⟩ := h
  · exact of_status r s e
  · exact of_r0 r s .ok v

/-- The fields each command's answer writes are fields listed for its row. -/
theorem of_exec {i : Instr} {s t : State} (h : exec i s = .next t) : KeepsUnlisted i.opcode s t := by
  cases i with
  | snAdd k => exact of_snAnswers _ (execSnAdd_cases h)
  | snDist k => exact of_snAnswers _ (execSnDist_cases h)
  | snCmp k => exact of_snAnswers _ (execSnCmp_cases h)
  | snInwin k => exact of_snAnswers _ (execSnInwin_cases h)
  | rtSeg c last =>
    obtain ⟨e, -, rfl⟩ | ⟨-, -, -, -, -, -, rfl⟩ := execRtSeg_cases h
    · exact of_status _ s e
    · constructor <;> simp [Instr.opcode]
  | rtGet c =>
    obtain ⟨e, -, rfl⟩ | ⟨-, -, -, rfl⟩ := execRtGet_cases h
    · exact of_status _ s e
    · constructor <;> simp [Instr.opcode]
  | rtDrop c =>
    obtain ⟨e, -, rfl⟩ | ⟨-, rfl⟩ := execRtDrop_cases h
    · exact of_status _ s e
    · constructor <;> simp [Instr.opcode]
  | rtMiss c =>
    obtain ⟨e, -, rfl⟩ | ⟨-, rfl⟩ := execRtMiss_cases h
    · exact of_status _ s e
    · exact of_r0 _ s .ok _
  | rtList c =>
    obtain ⟨e, -, rfl⟩ | ⟨-, -, rfl⟩ := execRtList_cases h
    · exact of_status _ s e
    · constructor <;> simp [Instr.opcode]
  | encData p si m k =>
    obtain ⟨e, -, rfl⟩ | ⟨f, -, -, -, -, -, rfl⟩ := execEncData_cases h
    · exact of_status _ s e
    · constructor <;> simp [Instr.opcode]
  | decData m k =>
    obtain ⟨e, -, rfl⟩ | ⟨f, si, -, -, -, -, -, rfl⟩ := execDecData_cases h
    · exact of_status _ s e
    · constructor <;> simp [Instr.opcode]
  | encStatus k =>
    obtain ⟨e, -, rfl⟩ | ⟨f, entries, emitted, -, -, -, -, -, -, -, -, rfl⟩ := execEncStatus_cases h
    · exact of_status _ s e
    · constructor <;> simp [Instr.opcode]
  | decStatus k =>
    obtain ⟨e, -, rfl⟩ | ⟨f, ts, pos, -, -, -, -, -, -, rfl⟩ := execDecStatus_cases h
    · exact of_status _ s e
    · constructor <;> simp [Instr.opcode]

end KeepsUnlisted

/-- Settles O17: what each command answers writes only fields listed for it. -/
theorem outputsChangeOnlyWhereListed : Obligations.OutputsChangeOnlyWhereListed := by
  intro i s t h
  obtain ⟨hr1, hr2, hr3, hr4r5, hobuf, hntab, hgout, hctxs⟩ := KeepsUnlisted.of_exec h
  exact ⟨hr1, hr2, hr3, hr4r5, hobuf, hntab, hgout, hctxs⟩

end Sys2Proof.Machine

/-! ### The sequence-number family (40_sn_space.md) -/

namespace Sys2Proof.Machine

section RingDistance

/-! #### The distance on a ring (40_sn_space.md R91, R98) -/

variable {m ref x d : Nat}

/-- R98 (b): the distance to the SN `d` steps on is `d`. -/
theorem snDistance_add_mod (href : ref ≤ m) (hd : d < m) : snDistance m ref ((ref + d) % m) = d :=
  calc ((ref + d) % m + m - ref) % m
      = ((ref + d) % m + (m - ref)) % m := by rw [Nat.add_sub_assoc href]
    _ = (ref + d + (m - ref)) % m := Nat.mod_add_mod ..
    _ = (d + m) % m := by congr 1; omega
    _ = d := by rw [Nat.add_mod_right, Nat.mod_eq_of_lt hd]

/-- R98 (c): as many steps as the distance to `x` lead to `x`. -/
theorem add_snDistance_mod (href : ref ≤ m) (hx : x < m) : (ref + snDistance m ref x) % m = x :=
  calc (ref + (x + m - ref) % m) % m
      = (ref + (x + m - ref)) % m := Nat.add_mod_mod ..
    _ = (x + m) % m := by congr 1; omega
    _ = x := by rw [Nat.add_mod_right, Nat.mod_eq_of_lt hx]

/-- The distance is the one number below `m` that leads from `ref` to `x`. -/
theorem snDistance_eq_of_add_mod (href : ref ≤ m) (hd : d < m) (h : (ref + d) % m = x) : snDistance m ref x = d :=
  h ▸ snDistance_add_mod href hd

/-- R98 (a). -/
theorem snDistance_self (m ref : Nat) : snDistance m ref ref = 0 := by
  rw [snDistance, Nat.add_sub_cancel_left, Nat.mod_self]

theorem snDistance_inj {y : Nat} (href : ref ≤ m) (hx : x < m) (hy : y < m) :
    snDistance m ref x = snDistance m ref y ↔ x = y := by
  refine ⟨fun h => ?_, fun h => h ▸ rfl⟩
  rw [← add_snDistance_mod href hx, h, add_snDistance_mod href hy]

/-- R98 (c): the way there and the way back are one turn. -/
theorem snDistance_add_snDistance_swap (href : ref < m) (hx : x < m) (hne : x ≠ ref) :
    snDistance m ref x + snDistance m x ref = m := by
  have hlt : snDistance m ref x < m := snDistance_lt ref x (by omega)
  have hpos : snDistance m ref x ≠ 0 := by
    rwa [← snDistance_self m ref, Ne, snDistance_inj href.le hx href]
  have hback : (x + (m - snDistance m ref x)) % m = ref :=
    calc (x + (m - snDistance m ref x)) % m
        = (ref + snDistance m ref x + (m - snDistance m ref x)) % m := by
          conv_rhs => rw [← Nat.mod_add_mod, add_snDistance_mod href.le hx]
      _ = (ref + m) % m := by congr 1; omega
      _ = ref := by rw [Nat.add_mod_right, Nat.mod_eq_of_lt href]
  rw [snDistance_eq_of_add_mod hx.le (by omega) hback]
  omega

/-- R98 (d): a rotation of both SNs keeps the distance. -/
theorem snDistance_rotate (t : Nat) (href : ref < m) (hx : x < m) :
    snDistance m ((ref + t) % m) ((x + t) % m) = snDistance m ref x := by
  have hm : 0 < m := by omega
  refine snDistance_eq_of_add_mod (Nat.mod_lt _ hm).le (snDistance_lt ref x hm) ?_
  calc ((ref + t) % m + snDistance m ref x) % m
      = (ref + snDistance m ref x + t) % m := by rw [Nat.mod_add_mod, Nat.add_right_comm]
    _ = (x + t) % m := by rw [← Nat.mod_add_mod, add_snDistance_mod href.le hx]

/-- R98 (e): seen from the opposite reference, the SNs of the other half of the ring are near. -/
theorem snDistance_opposite_lt_iff {half : Nat} (hhalf : half + half = m) (href : ref < m) (hx : x < m) :
    snDistance m ((ref + half) % m) x < half ↔ half ≤ snDistance m ref x := by
  have hm : 0 < m := by omega
  have hopp : (ref + half) % m ≤ m := (Nat.mod_lt _ hm).le
  have hlt : snDistance m ref x < m := snDistance_lt ref x hm
  have hto : (ref + snDistance m ref x) % m = x := add_snDistance_mod href.le hx
  rcases Nat.lt_or_ge (snDistance m ref x) half with hnear | hfar
  · have hway : ((ref + half) % m + (snDistance m ref x + half)) % m = x := by
      rw [Nat.mod_add_mod, show ref + half + (snDistance m ref x + half) = ref + snDistance m ref x + m by omega,
        Nat.add_mod_right, hto]
    rw [snDistance_eq_of_add_mod hopp (by omega) hway]
    omega
  · have hway : ((ref + half) % m + (snDistance m ref x - half)) % m = x := by
      rw [Nat.mod_add_mod, show ref + half + (snDistance m ref x - half) = ref + snDistance m ref x by omega, hto]
    rw [snDistance_eq_of_add_mod hopp (by omega) hway]
    omega

end RingDistance

/-- Settles O11: the laws one by one, each from what leads from one SN to the other. -/
theorem ringDistanceLaws : Obligations.RingDistanceLaws := by
  intro k ref x d t href hx hd _
  exact ⟨snDistance_self _ ref, snDistance_add_mod href.le hd, add_snDistance_mod href.le hx,
    snDistance_add_snDistance_swap href hx, snDistance_rotate t href hx⟩

/-! #### The answers of the commands (40_sn_space.md R93 to R96) -/

theorem compareCode_of_eq {da db : Nat} (h : da = db) : compareCode da db = 0 := if_pos h

theorem compareCode_of_lt {da db : Nat} (h : da < db) : compareCode da db = 1 := by
  rw [compareCode, if_neg h.ne, if_pos h]

theorem compareCode_of_gt {da db : Nat} (h : db < da) : compareCode da db = 2 := by
  rw [compareCode, if_neg h.ne', if_neg h.not_gt]

theorem compareCode_le (da db : Nat) : compareCode da db ≤ 2 := by
  unfold compareCode
  split_ifs <;> decide

theorem result_compareCode_toNat (da db : Nat) : (result (compareCode da db)).toNat = compareCode da db :=
  result_toNat ((compareCode_le da db).trans_lt (by decide))

section LegalWidths

variable {k : KSel} {m : Nat} (hk : (k, m) ∈ [(KSel.k6, 64), (KSel.k12, 4096), (KSel.k18, 262144)])
include hk

theorem legalWidth_cases : (k = .k6 ∧ m = 64) ∨ (k = .k12 ∧ m = 4096) ∨ (k = .k18 ∧ m = 262144) := by
  simpa using hk

theorem withRing_of_legal (s : State) (body : Nat → Out) : withRing k s body = body m := by
  obtain ⟨rfl, rfl⟩ | ⟨rfl, rfl⟩ | ⟨rfl, rfl⟩ := legalWidth_cases hk <;> rfl

theorem ringSize_lt_and_even : m < 2 ^ 32 ∧ m / 2 + m / 2 = m := by
  obtain ⟨-, rfl⟩ | ⟨-, rfl⟩ | ⟨-, rfl⟩ := legalWidth_cases hk <;> decide

/-- A number below the ring size fits a register, so `R0` holds it whole. -/
theorem finish_answer (s : State) {n : Nat} (hn : n < m) :
    ∃ v : Word, v.toNat = n ∧ finish { s with r0 := result n } = .next { s with r0 := v, status := .ok } := by
  obtain ⟨hword, -⟩ := ringSize_lt_and_even hk
  exact ⟨_, result_toNat (hn.trans hword), rfl⟩

end LegalWidths

/-- Settles O7: on a legal width the command is its range test, and a sum on the ring fits `R0`. -/
theorem snAddAdvancesOnTheRing : Obligations.SnAddAdvancesOnTheRing := by
  refine fun s => ⟨rfl, fun k m hk => ?_⟩
  simp only [exec, execSnAdd, withRing_of_legal hk, raise_eq]
  refine ⟨fun hbad => if_pos hbad, fun h0 h1 => ?_⟩
  rw [if_neg (not_or.mpr ⟨h0.not_ge, h1.not_ge⟩)]
  exact finish_answer hk s (Nat.mod_lt _ (Nat.zero_lt_of_lt h0))

/-- Settles O8: likewise, and a distance on the ring fits `R0`. -/
theorem snDistMeasuresFromTheReference : Obligations.SnDistMeasuresFromTheReference := by
  refine fun s => ⟨rfl, fun k m hk => ?_⟩
  simp only [exec, execSnDist, withRing_of_legal hk, raise_eq]
  refine ⟨fun hbad => if_pos hbad, fun h0 h1 => ?_⟩
  rw [if_neg (not_or.mpr ⟨h0.not_ge, h1.not_ge⟩)]
  exact finish_answer hk s (snDistance_lt _ _ (Nat.zero_lt_of_lt h0))

/-- Settles O9: the answer is `compareCode` of the two distances. -/
theorem snCmpOrdersByDistance : Obligations.SnCmpOrdersByDistance := by
  refine fun s => ⟨rfl, fun k m hk => ?_⟩
  simp only [exec, execSnCmp, withRing_of_legal hk, raise_eq]
  refine ⟨fun hbad => if_pos hbad, fun h0 h1 h2 => ?_⟩
  rw [if_neg (not_or.mpr ⟨h0.not_ge, not_or.mpr ⟨h1.not_ge, h2.not_ge⟩⟩)]
  refine ⟨_, _, _, rfl, rfl, fun h => ?_, fun h => ?_, fun h => ?_, finish_eq _⟩
  · exact (result_compareCode_toNat _ _).trans (compareCode_of_eq h)
  · exact (result_compareCode_toNat _ _).trans (compareCode_of_lt h)
  · exact (result_compareCode_toNat _ _).trans (compareCode_of_gt h)

/-- Settles O10: the answer is `yesNo` of the window test. -/
theorem snInwinTestsTheWindow : Obligations.SnInwinTestsTheWindow := by
  refine fun s => ⟨rfl, fun k m hk => ?_⟩
  simp only [exec, execSnInwin, withRing_of_legal hk, raise_eq]
  refine ⟨fun hbad => if_pos hbad, fun h0 h1 h2 => ?_⟩
  rw [if_neg (not_or.mpr ⟨h0.not_ge, not_or.mpr ⟨h1.not_ge, h2.not_gt⟩⟩)]
  refine ⟨_, fun h => ?_, fun h => ?_, finish_eq _⟩
  · exact (result_yesNo_toNat _).trans (congrArg yesNo (decide_eq_true h))
  · exact (result_yesNo_toNat _).trans (congrArg yesNo (decide_eq_false h.not_gt))

section WindowAndOrder

variable {s : State} {k : KSel} {m : Nat} (hk : (k, m) ∈ [(KSel.k6, 64), (KSel.k12, 4096), (KSel.k18, 262144)])
include hk

/-- R98 (e) through the command: of the two windows of half the ring exactly one holds the SN. -/
theorem halfWindows_partition (h0 : s.a0.toNat < m) (h1 : s.a1.toNat < m) (h2 : s.a2.toNat = m / 2) :
    ∃ t u : State, exec (.snInwin k) s = .next t ∧
      exec (.snInwin k) { s with a0 := BitVec.ofNat 32 ((s.a0.toNat + m / 2) % m) } = .next u ∧
      t.status = .ok ∧ u.status = .ok ∧ t.r0.toNat + u.r0.toNat = 1 := by
  obtain ⟨hword, hhalf⟩ := ringSize_lt_and_even hk
  have hopp : (s.a0.toNat + m / 2) % m < m := Nat.mod_lt _ (Nat.zero_lt_of_lt h0)
  have hopp' : (BitVec.ofNat 32 ((s.a0.toNat + m / 2) % m)).toNat = (s.a0.toNat + m / 2) % m :=
    result_toNat (hopp.trans hword)
  obtain ⟨v, hv1, hv0, hv⟩ := ((snInwinTestsTheWindow s).2 k m hk).2 h0 h1 h2.le
  obtain ⟨w, hw1, hw0, hw⟩ :=
    ((snInwinTestsTheWindow { s with a0 := BitVec.ofNat 32 ((s.a0.toNat + m / 2) % m) }).2 k m hk).2
      (hopp'.trans_lt hopp) h1 h2.le
  refine ⟨_, _, hv, hw, rfl, rfl, ?_⟩
  simp only [hopp', h2] at hv1 hv0 hw1 hw0
  have hiff := snDistance_opposite_lt_iff hhalf h0 h1
  show v.toNat + w.toNat = 1
  rcases Nat.lt_or_ge (snDistance m s.a0.toNat s.a1.toNat) (m / 2) with hnear | hfar
  · rw [hv1 hnear, hw0 (not_lt.mp (mt hiff.mp hnear.not_ge))]
  · rw [hv0 hfar, hw1 (hiff.mpr hfar)]

/-- R98 (f) through the command. -/
theorem snCmp_swap (h0 : s.a0.toNat < m) (h1 : s.a1.toNat < m) (h2 : s.a2.toNat < m) :
    ∃ t u : State, exec (.snCmp k) s = .next t ∧ exec (.snCmp k) { s with a1 := s.a2, a2 := s.a1 } = .next u ∧
      t.status = .ok ∧ u.status = .ok ∧ (t.r0 = 1 ↔ u.r0 = 2) ∧ (t.r0 = 0 ↔ s.a1 = s.a2) := by
  obtain ⟨da, db, v, hda, hdb, hv0, hv1, hv2, hv⟩ := ((snCmpOrdersByDistance s).2 k m hk).2 h0 h1 h2
  obtain ⟨da', db', w, hda', hdb', hw0, hw1, hw2, hw⟩ :=
    ((snCmpOrdersByDistance { s with a1 := s.a2, a2 := s.a1 }).2 k m hk).2 h0 h2 h1
  obtain rfl : db = da' := hdb.trans hda'.symm
  obtain rfl : da = db' := hda.trans hdb'.symm
  have heq : da = db ↔ s.a1 = s.a2 := by
    rw [hda, hdb, ← BitVec.toNat_inj]
    exact snDistance_inj h0.le h1 h2
  refine ⟨_, _, hv, hw, rfl, rfl, ?_⟩
  show (v = 1 ↔ w = 2) ∧ (v = 0 ↔ s.a1 = s.a2)
  rw [← heq, ← BitVec.toNat_inj, ← BitVec.toNat_inj, ← BitVec.toNat_inj]
  rcases Nat.lt_trichotomy da db with hlt | rfl | hgt
  · simp [hv1 hlt, hw2 hlt, hlt.ne]
  · simp [hv0 rfl, hw0 rfl]
  · simp [hv2 hgt, hw1 hgt, hgt.ne']

end WindowAndOrder

/-- Settles O12: `SN_INWIN` from opposite references, and `SN_CMP` with its operands swapped. -/
theorem windowAndOrderLaws : Obligations.WindowAndOrderLaws :=
  fun _ _ _ hk h0 h1 => ⟨halfWindows_partition hk h0 h1, snCmp_swap hk h0 h1⟩

end Sys2Proof.Machine

/-! ### The reassembly tracker (41_reassembly_tracker.md): what a segment does -/

namespace Sys2Proof.Machine

section AcceptedSegment

variable {s t : State} {x : Ctx} {c o n e src maxGaps : Nat} {last : Bool}

/-- The test of `RT_SEG` is the three cases of 60_exceptions.md R214. -/
theorem Ctx.conflicts_iff_contradicts : x.conflicts last e = true ↔ Contradicts x last e := by
  unfold Ctx.conflicts Contradicts
  cases x.lastSeen <;> cases last <;> simp [Gap.isOpen_iff]

theorem Ctx.conflicts_eq_false_iff : x.conflicts last e = false ↔ ¬Contradicts x last e := by
  rw [← Ctx.conflicts_iff_contradicts, Bool.not_eq_true]

/-- A position in no gap lies outside each gap of the list. -/
theorem not_in_gap {gs : List Gap} {p : Nat} (hout : inGaps gs p = false) {g : Gap} (hg : g ∈ gs) :
    ¬(g.start ≤ p ∧ p < g.stop) := fun hp =>
  Bool.eq_false_iff.1 hout (inGaps_eq_true.2 ⟨g, hg, hp⟩)

theorem newPositions_le (gs : List Gap) (o n : Nat) : newPositions gs o n ≤ n := by
  simpa [newPositions] using List.length_filter_le (fun j => inGaps gs (o + j)) (List.range n)

/-! #### The context after a segment -/

@[simp] theorem State.accept_gaps : (s.accept x last o n src).gaps = x.gapsAfter last o (o + n) := rfl

@[simp] theorem State.accept_lastSeen : (s.accept x last o n src).lastSeen = (x.lastSeen || last) := rfl

@[simp] theorem State.accept_data : (s.accept x last o n src).data = s.storeSegment x.gaps o src n x.data := rfl

theorem State.accept_totLen_of_fixesLength (h : x.fixesLength last = true) :
    (s.accept x last o n src).totLen = o + n := if_pos h

theorem State.accept_totLen_of_not_fixesLength (h : ¬x.fixesLength last = true) :
    (s.accept x last o n src).totLen = x.totLen := if_neg h

/-- 41_reassembly_tracker.md R115: the counters in terms of the positions newly filled. -/
theorem Ctx.GapInv.accept_counters (hx : x.GapInv maxGaps) (s : State) (last : Bool) (o n src : Nat) :
    (s.accept x last o n src).byteCnt = x.byteCnt + newPositions x.gaps o n ∧
      (s.accept x last o n src).segCnt = if 0 < newPositions x.gaps o n then x.segCnt + 1 else x.segCnt := by
  rw [← newlyFilled_eq_newPositions hx.separated]
  exact ⟨rfl, rfl⟩

/-! #### When a segment is accepted -/

/-- An `RT_SEG` inside its ranges whose segment the context admits accepts it. -/
theorem execRtSeg_of_admits (hc : c < s.params.nCtx) (hbuf : s.a2.toNat + s.a1.toNat ≤ s.params.ibufBytes)
    (hadm : (s.ctx c).Admits s.params.maxGaps last s.a0.toNat s.a1.toNat) :
    execRtSeg c last s = .next
      { s.setCtx c (s.accept (s.ctx c) last s.a0.toNat s.a1.toNat s.a2.toNat) with
        status := .ok
        r0 := result (s.a1.toNat - newlyFilled s.a0.toNat (s.a0.toNat + s.a1.toNat) (s.ctx c).gaps)
        r1 := result (yesNo ((s.ctx c).gapsAfter last s.a0.toNat (s.a0.toNat + s.a1.toNat)).isEmpty) } := by
  obtain ⟨hn, hend, hfits, hroom⟩ := hadm
  simp [execRtSeg, hc.not_ge, hn, hbuf.not_gt, hend.not_gt, hfits, hroom.not_gt]

/-- An `RT_SEG` that ends with `STATUS` `OK` has accepted its segment. -/
theorem execRtSeg_ok (h : execRtSeg c last s = .next t) (hok : t.status = .ok) :
    c < s.params.nCtx ∧ s.a2.toNat + s.a1.toNat ≤ s.params.ibufBytes ∧
      (s.ctx c).Admits s.params.maxGaps last s.a0.toNat s.a1.toNat := by
  obtain ⟨e, he, rfl⟩ | ⟨hc, hn, hbuf, hend, hfits, hroom, -⟩ := execRtSeg_cases h
  · exact absurd hok he
  · exact ⟨hc, hbuf, hn, hend, hfits, hroom⟩

end AcceptedSegment

/-! #### The errors and the results of `RT_SEG` -/

/-- Settles O21: each clause fails one test and passes those before it. -/
theorem rtSegErrorsInOrder : Obligations.RtSegErrorsInOrder := by
  intro s c last
  refine ⟨fun hc hn => ?_, fun hc hn hbuf => ?_, fun hc hn hbuf hend => ?_, fun hc hn hbuf hend hcon => ?_,
    fun hc hn hbuf hend hcon hroom => ?_⟩
  · simp [exec, execRtSeg, hc.not_ge, hn]
  · simp [exec, execRtSeg, hc.not_ge, hn, hbuf]
  · simp [exec, execRtSeg, hc.not_ge, hn, hbuf.not_gt, Config.maxSdu, hend]
  · have hconf := Ctx.conflicts_iff_contradicts.2 hcon
    simp [exec, execRtSeg, hc.not_ge, hn, hbuf.not_gt, Config.maxSdu, hend.not_gt, hconf]
  · have hfits := Ctx.conflicts_eq_false_iff.2 hcon
    simp [exec, execRtSeg, hc.not_ge, hn, hbuf.not_gt, Config.maxSdu, hend.not_gt, hfits, hroom]

/-- Settles O22: the accepted context field by field, with `new` counted by position. -/
theorem rtSegAcceptsASegment : Obligations.RtSegAcceptsASegment := by
  intro s c last hs hc hn hbuf hend hcon hroom
  have hx := hs.ctx hc.not_ge
  have hnew := newlyFilled_eq_newPositions hx.separated s.a0.toNat s.a1.toNat
  have hle := newPositions_le (s.ctx c).gaps s.a0.toNat s.a1.toNat
  have hword := s.a1.isLt
  obtain ⟨hbytes, hsegs⟩ := hx.accept_counters s last s.a0.toNat s.a1.toNat s.a2.toNat
  refine ⟨_, s.accept (s.ctx c) last s.a0.toNat s.a1.toNat s.a2.toNat,
    execRtSeg_of_admits hc hbuf ⟨hn, hend, Ctx.conflicts_eq_false_iff.2 hcon, hroom⟩, rfl,
    State.ctx_setCtx_same s _ (by rwa [hs.ctxCount]), ?_, fun hnil => ?_, fun hne => ?_, rfl, rfl,
    fun hkeep => ?_, fun hseen hlast => ?_, hbytes, fun hpos => ?_, fun hzero => ?_,
    find?_storeSegment s (s.ctx c).gaps s.a0.toNat s.a2.toNat s.a1.toNat (s.ctx c).data⟩
  · rw [← hnew] at hle ⊢
    exact result_toNat (by omega)
  · rw [State.accept_gaps] at hnil
    simp only [hnil, result_yesNo_toNat]
    rfl
  · rw [State.accept_gaps, ← List.isEmpty_eq_false_iff] at hne
    simp only [hne, result_yesNo_toNat]
    rfl
  · refine State.accept_totLen_of_not_fixesLength fun hfix => ?_
    obtain ⟨hlast, hseen⟩ := Ctx.fixesLength_iff.1 hfix
    simp [hlast, hseen] at hkeep
  · exact State.accept_totLen_of_fixesLength (Ctx.fixesLength_iff.2 ⟨hlast, hseen⟩)
  · rw [hsegs, if_pos hpos]
  · rw [hsegs, if_neg (by omega)]

/-- Settles O23, from what a segment that does not contradict the context does to its gaps. -/
theorem segmentsFillTheirOwnPositions : Obligations.SegmentsFillTheirOwnPositions := by
  intro s x last o n p hx hn hend hcon
  rw [hx.inGaps_gapsAfter (by omega) hend (Ctx.conflicts_eq_false_iff.2 hcon), Ctx.fixesLength_iff]
  tauto

/-- Settles O24: at most all of the segment's positions are new, and the count grows by those. -/
theorem segmentBytesAreConserved : Obligations.SegmentBytesAreConserved := by
  intro s t c last hs h hok
  obtain ⟨hc, hbuf, hn, hend, hfits, hroom⟩ := execRtSeg_ok h hok
  obtain ⟨u, x, hu, -, rfl, hr0, -, -, -, -, -, -, hbytes, -⟩ :=
    rtSegAcceptsASegment s c last hs hc hn hbuf hend (Ctx.conflicts_eq_false_iff.1 hfits) hroom
  obtain rfl : t = u := by simpa [h] using hu
  have hle := newPositions_le (s.ctx c).gaps s.a0.toNat s.a1.toNat
  omega

/-! #### A segment offered again -/

/-- The context has the segment: its positions are filled, and its end is in keeping with the length the context knows. -/
structure Ctx.Holds (x : Ctx) (last : Bool) (o n : Nat) : Prop where
  filled : ∀ p, o ≤ p → p < o + n → inGaps x.gaps p = false
  lengthKnown : last = true → x.lastSeen = true
  within : x.lastSeen = true → o + n ≤ x.totLen ∧ (last = true → o + n = x.totLen)

section Holds

variable {s : State} {x : Ctx} {c o n o' n' e maxGaps : Nat} {last last' : Bool}

/-- A segment whose positions are filled stores no byte. -/
theorem storeSegment_of_filled {gs : List Gap} (hfilled : ∀ p, o ≤ p → p < o + n → inGaps gs p = false) (s : State)
    (src : Nat) (d : Memory Byte) : s.storeSegment gs o src n d = d := by
  induction n with
  | zero => rfl
  | succ n ih =>
    have hlast := hfilled (o + n) (by omega) (by omega)
    simp only [State.storeSegment, hlast, Bool.false_eq_true, if_false]
    exact ih fun p ho hp => hfilled p ho (by omega)

/-- No gap overlaps a segment whose positions are filled. -/
theorem overlap_eq_zero_of_filled {gs : List Gap} (hfilled : ∀ p, o ≤ p → p < o + n → inGaps gs p = false) {g : Gap}
    (hg : g ∈ gs) : g.overlap o (o + n) = 0 := by
  by_contra hne
  simp only [Gap.overlap] at hne
  exact not_in_gap (hfilled (max g.start o) (by omega) (by omega)) hg ⟨by omega, by omega⟩

/-- A segment is in keeping with a known length if it ends within it, and at it when it is last-flagged. -/
theorem Ctx.conflicts_of_lastSeen (hseen : x.lastSeen = true) :
    x.conflicts last e = false ↔ e ≤ x.totLen ∧ (last = true → e = x.totLen) := by
  cases last with
  | true => simpa [Ctx.conflicts, hseen] using fun h => h.le
  | false => simp [Ctx.conflicts, hseen]

namespace Ctx.Holds

theorem fits (hx : x.Holds last o n) : x.conflicts last (o + n) = false := by
  cases hseen : x.lastSeen with
  | true => exact (Ctx.conflicts_of_lastSeen hseen).2 (hx.within hseen)
  | false =>
    have hlast : last = false := by
      by_contra h
      simp [hx.lengthKnown (by simpa using h)] at hseen
    simp [Ctx.conflicts, hseen, hlast]

theorem not_fixesLength (hx : x.Holds last o n) : ¬x.fixesLength last = true := fun hfix => by
  obtain ⟨hlast, hseen⟩ := Ctx.fixesLength_iff.1 hfix
  simp [hx.lengthKnown hlast] at hseen

theorem gapsAfter_eq (hx : x.Holds last o n) : x.gapsAfter last o (o + n) = x.gaps := by
  rw [Ctx.gapsAfter, if_neg hx.not_fixesLength]
  exact (remaining_of_no_overlap fun _ hg => overlap_eq_zero_of_filled hx.filled hg).1

theorem newlyFilled_eq (hx : x.Holds last o n) : newlyFilled o (o + n) x.gaps = 0 :=
  (remaining_of_no_overlap fun _ hg => overlap_eq_zero_of_filled hx.filled hg).2

/-- A segment the context has leaves the context as it is. -/
theorem accept_eq (hx : x.Holds last o n) (s : State) (src : Nat) : s.accept x last o n src = x := by
  simp [State.accept, hx.gapsAfter_eq, hx.newlyFilled_eq, hx.not_fixesLength,
    Ctx.lastSeen_or_of_not_fixesLength hx.not_fixesLength, storeSegment_of_filled hx.filled]

/-- A segment the context has is all duplicate. -/
theorem execRtSeg_eq (hx : (s.ctx c).Holds last s.a0.toNat s.a1.toNat) (hs : s.GapsOk) (hc : c < s.params.nCtx)
    (hbuf : s.a2.toNat + s.a1.toNat ≤ s.params.ibufBytes) (hn : s.a1.toNat ≠ 0)
    (hend : s.a0.toNat + s.a1.toNat ≤ Config.maxSdu) :
    execRtSeg c last s = .next { s with
      status := .ok, r0 := s.a1, r1 := result (yesNo (s.ctx c).gaps.isEmpty) } := by
  have hlen : c < s.ctxs.length := by rwa [hs.ctxCount]
  have hroom := hx.gapsAfter_eq ▸ (hs.ctx hc.not_ge).capacity
  rw [execRtSeg_of_admits hc hbuf ⟨hn, hend, hx.fits, hroom⟩, hx.accept_eq, hx.gapsAfter_eq, hx.newlyFilled_eq]
  simp [State.setCtx, State.ctx_eq_getElem hlen, result]

/-- While the length is unknown, a segment the context has ends at or before the open gap. -/
theorem end_le_open_start (hx : x.Holds last o n) (hn : n ≠ 0) (hend : o + n ≤ Config.maxSdu) {q : Gap}
    (hq : q ∈ x.gaps) (hopen : q.isOpen = true) : o + n ≤ q.start := by
  have hout := not_in_gap (hx.filled (o + n - 1) (by omega) (by omega)) hq
  rw [Gap.isOpen_iff] at hopen
  simp only [Config.maxSdu] at hend
  omega

/-- A segment the context admits is one it has once it is accepted. -/
theorem of_admits (hx : x.GapInv maxGaps) (hadm : x.Admits maxGaps last o n) (s : State) (src : Nat) :
    (s.accept x last o n src).Holds last o n := by
  obtain ⟨hn, hend, hfits, -⟩ := hadm
  constructor
  case filled =>
    intro p ho hp
    rw [State.accept_gaps, Bool.eq_false_iff, Ne, hx.inGaps_gapsAfter (by omega) hend hfits]
    tauto
  case lengthKnown =>
    rintro rfl
    simp
  case within =>
    intro hseen
    by_cases hfix : x.fixesLength last = true
    · simp [State.accept_totLen_of_fixesLength hfix]
    · rw [State.accept_lastSeen, Ctx.lastSeen_or_of_not_fixesLength hfix] at hseen
      rw [State.accept_totLen_of_not_fixesLength hfix]
      exact (Ctx.conflicts_of_lastSeen hseen).1 hfits

/-- A context keeps the segments it has when it accepts another one. -/
theorem accept (h : x.Holds last o n) (hx : x.GapInv maxGaps) (hn : n ≠ 0) (hend : o + n ≤ Config.maxSdu)
    (hadm : x.Admits maxGaps last' o' n') (s : State) (src : Nat) :
    (s.accept x last' o' n' src).Holds last o n := by
  obtain ⟨hn', hend', hfits', -⟩ := hadm
  constructor
  case filled =>
    intro p ho hp
    rw [State.accept_gaps, Bool.eq_false_iff, Ne, hx.inGaps_gapsAfter (by omega) hend' hfits']
    simp [h.filled p ho hp]
  case lengthKnown =>
    intro hlast
    simp [h.lengthKnown hlast]
  case within =>
    intro hseen
    by_cases hfix : x.fixesLength last' = true
    · have hopen := (Ctx.fixesLength_iff.1 hfix).2
      obtain ⟨q, hq, hq'⟩ := hx.lastSeen_eq_false_iff.1 hopen
      have hstart := h.end_le_open_start hn hend hq hq'
      have hstop := Ctx.GapInv.open_start_le hfits' hfix hq hq'
      rw [State.accept_totLen_of_fixesLength hfix]
      refine ⟨by omega, fun hlast => ?_⟩
      simp [h.lengthKnown hlast] at hopen
    · rw [State.accept_lastSeen, Ctx.lastSeen_or_of_not_fixesLength hfix] at hseen
      rw [State.accept_totLen_of_not_fixesLength hfix]
      exact h.within hseen

end Ctx.Holds

end Holds

/-! #### What `RT_SEG` keeps of the invariant -/

section Offers

variable {s t u : State} {c : Nat} {last : Bool}

theorem State.GapsOk.of_execRtSeg (hs : s.GapsOk) (h : execRtSeg c last s = .next t) : t.GapsOk := by
  obtain ⟨e, -, rfl⟩ | ⟨hc, hn, -, hend, hfits, hroom, rfl⟩ := execRtSeg_cases h
  · exact ⟨hs.params, hs.ctxCount, hs.gaps⟩
  · have hx := (hs.ctx hc.not_ge).accept s (src := s.a2.toNat) ⟨hn, hend, hfits, hroom⟩
    exact ⟨hs.params, by simpa using hs.ctxCount, State.forall_mem_setCtx hs.gaps hx⟩

theorem State.BytesOk.of_execRtSeg (hb : s.BytesOk) (hs : s.GapsOk) (h : execRtSeg c last s = .next t) :
    t.BytesOk := by
  obtain ⟨e, -, rfl⟩ | ⟨hc, hn, -, hend, hfits, hroom, rfl⟩ := execRtSeg_cases h
  · exact hb
  · have hmem : s.ctx c ∈ s.ctxs := State.ctx_mem (by rwa [hs.ctxCount])
    have hx := (hb _ hmem).accept (hs.ctx hc.not_ge) s (src := s.a2.toNat) ⟨hn, hend, hfits, hroom⟩
    exact State.forall_mem_setCtx hb hx

/-- The whole invariant is kept by `RT_SEG`. -/
theorem State.Inv.of_execRtSeg (hs : s.Inv) (h : execRtSeg c last s = .next t) : t.Inv :=
  have hexec : exec (.rtSeg c last) s = .next t := h
  ⟨hs.spaces.of_exec hexec, hs.gaps.of_execRtSeg h, hs.bytes.of_execRtSeg hs.gaps h⟩

/-- The operands of `RT_SEG` written by the host. -/
def State.withOperands (s : State) (off len src : Word) : State := { s with a0 := off, a1 := len, a2 := src }

theorem State.GapsOk.withOperands (hs : s.GapsOk) (off len src : Word) : (s.withOperands off len src).GapsOk :=
  ⟨hs.params, hs.ctxCount, hs.gaps⟩

/-- What the host's operands and `RT_SEG` on the context keep is kept by every list of offers. -/
theorem offerMany_keeps {P : State → Prop} (hargs : ∀ s off len src, P s → P (s.withOperands off len src))
    (hseg : ∀ s t last, P s → execRtSeg c last s = .next t → P t) {offers : List Offer}
    (hs : P s) (h : offerMany c offers s = some u) : P u := by
  induction offers generalizing s with
  | nil =>
    cases h
    exact hs
  | cons f fs ih =>
    simp only [offerMany] at h
    split at h
    · rename_i t ht
      exact ih (hseg _ _ _ (hargs _ _ _ _ hs) ht) h
    · cases h
    · cases h

/-- The block, with the parameters `p`, has the segment in context `c`. -/
structure State.Retains (p : Params) (c : Nat) (last : Bool) (o n : Nat) (s : State) : Prop where
  params : s.params = p
  gaps : s.GapsOk
  holds : (s.ctx c).Holds last o n

variable {p : Params} {o n : Nat}

/-- No `RT_SEG` on the context, refused or accepted, takes a segment out of it. -/
theorem State.Retains.of_execRtSeg {last' : Bool} (hs : s.Retains p c last o n) (hn : n ≠ 0)
    (hend : o + n ≤ Config.maxSdu) (h : execRtSeg c last' s = .next t) : t.Retains p c last o n := by
  obtain ⟨hparams, hgaps, hholds⟩ := hs
  refine ⟨?_, hgaps.of_execRtSeg h, ?_⟩
  · have hexec : exec (.rtSeg c last') s = .next t := h
    rw [(exec_effect hexec).params, hparams]
  · obtain ⟨e, -, rfl⟩ | ⟨hc, hn', -, hend', hfits, hroom, rfl⟩ := execRtSeg_cases h
    · exact hholds
    · have hctx := State.ctx_setCtx_same s (c := c)
        (s.accept (s.ctx c) last' s.a0.toNat s.a1.toNat s.a2.toNat) (by rwa [hgaps.ctxCount])
      change ((s.setCtx c _).ctx c).Holds last o n
      rw [hctx]
      exact hholds.accept (hgaps.ctx hc.not_ge) hn hend ⟨hn', hend', hfits, hroom⟩ s _

theorem State.retains_of_execRtSeg_ok (hs : s.GapsOk) (h : execRtSeg c last s = .next t) (hok : t.status = .ok) :
    t.Retains s.params c last s.a0.toNat s.a1.toNat := by
  obtain ⟨hc, hbuf, hadm⟩ := execRtSeg_ok h hok
  have hgaps := hs.of_execRtSeg h
  rw [execRtSeg_of_admits hc hbuf hadm] at h
  cases h
  refine ⟨rfl, hgaps, ?_⟩
  change ((s.setCtx c _).ctx c).Holds last _ _
  rw [State.ctx_setCtx_same s _ (by rwa [hs.ctxCount])]
  exact .of_admits (hs.ctx hc.not_ge) hadm s _

end Offers

/-- Settles O25: the context has the segment after it was accepted, and keeps it through the offers in between. -/
theorem resubmissionChangesNothing : Obligations.ResubmissionChangesNothing := by
  intro s t u c last between hs h hok hbetween
  obtain ⟨hc, hbuf, hadm⟩ := execRtSeg_ok h hok
  obtain ⟨hparams, hgaps, hholds⟩ : u.Retains s.params c last s.a0.toNat s.a1.toNat :=
    offerMany_keeps (fun _ off len src hr => ⟨hr.params, hr.gaps.withOperands off len src, hr.holds⟩)
      (fun _ _ _ hr => hr.of_execRtSeg hadm.nonempty hadm.inRange) (State.retains_of_execRtSeg_ok hs h hok) hbetween
  have hexec := hholds.execRtSeg_eq (s := u.withOperands s.a0 s.a1 s.a2) (hgaps.withOperands _ _ _)
    (by rwa [← hparams] at hc) (by rwa [← hparams] at hbuf) hadm.nonempty hadm.inRange
  refine ⟨_, hexec, rfl, rfl, ?_, rfl⟩
  change result (yesNo (u.ctx c).gaps.isEmpty) = 1 ↔ _
  cases (u.ctx c).gaps <;> simp [yesNo, result]

/-- A context without gaps knows the SDU's length. -/
theorem Ctx.GapInv.lastSeen_of_no_gaps {maxGaps : Nat} {x : Ctx} (hx : x.GapInv maxGaps) (hgaps : x.gaps = []) :
    x.lastSeen = true := by
  rw [← Bool.not_eq_false, hx.lastSeen_eq_false_iff, hgaps]
  simp

/-- Settles O26: a complete context has every segment that does not contradict its length. -/
theorem completeContextStaysComplete : Obligations.CompleteContextStaysComplete := by
  intro s t c last hs hgaps h hok
  obtain ⟨hc, hbuf, hn, hend, hfits, -⟩ := execRtSeg_ok h hok
  have hseen := (hs.ctx hc.not_ge).lastSeen_of_no_gaps hgaps
  have hholds : (s.ctx c).Holds last s.a0.toNat s.a1.toNat :=
    ⟨fun _ _ _ => by rw [hgaps]; rfl, fun _ => hseen, fun _ => (Ctx.conflicts_of_lastSeen hseen).1 hfits⟩
  obtain rfl := Host.Outcome.next.inj (h.symm.trans (hholds.execRtSeg_eq hs hc hbuf hn hend))
  rw [hgaps]
  exact ⟨rfl, rfl, rfl⟩

end Sys2Proof.Machine

/-! ### The other tracker commands -/

namespace Sys2Proof.Machine

section Readers

variable {s t : State} {x : Ctx} {c maxGaps : Nat}

/-! #### Complete contexts and their byte account -/

theorem Ctx.GapInv.received_of_no_gaps (hx : x.GapInv maxGaps) (hgaps : x.gaps = []) (p : Nat) :
    x.received p = true ↔ p < x.totLen := by
  rw [hx.received_iff, hgaps, Ctx.limit, if_pos (hx.lastSeen_of_no_gaps hgaps)]
  simp

theorem Ctx.ByteInv.byteCnt_le_high (hb : x.ByteInv) : x.byteCnt ≤ x.high := by
  simpa [hb.counted] using List.length_filter_le x.received (List.range x.high)

/-- A complete context has counted every byte of its SDU. -/
theorem Ctx.ByteInv.byteCnt_of_no_gaps (hb : x.ByteInv) (hx : x.GapInv maxGaps) (hgaps : x.gaps = []) :
    x.byteCnt = x.totLen := by
  have hhigh : x.high = x.totLen := if_pos (hx.lastSeen_of_no_gaps hgaps)
  have hall : ∀ p ∈ List.range x.totLen, x.received p = true :=
    fun p hp => (hx.received_of_no_gaps hgaps p).2 (List.mem_range.1 hp)
  rw [hb.counted, hhigh, List.filter_eq_self.2 hall, List.length_range]

/-- A complete context stores every byte of its SDU. -/
theorem Ctx.ByteInv.find?_isSome_of_no_gaps (hb : x.ByteInv) (hx : x.GapInv maxGaps) (hgaps : x.gaps = []) {p : Nat}
    (hp : p < x.totLen) : (x.data.find? p).isSome = true := by
  rw [hb.stored, hx.received_of_no_gaps hgaps]
  exact hp

theorem State.BytesOk.ctx (hb : s.BytesOk) (hs : s.GapsOk) (hc : c < s.params.nCtx) : (s.ctx c).ByteInv :=
  hb _ (State.ctx_mem (by rwa [hs.ctxCount]))

theorem State.ctx_freshen_same (h : c < s.ctxs.length) : (s.freshen c).ctx c = Ctx.fresh :=
  State.ctx_setCtx_same s Ctx.fresh h

/-! #### What the commands answer on each context -/

theorem execRtGet_of_gaps (hc : c < s.params.nCtx) (hgaps : (s.ctx c).gaps ≠ []) :
    execRtGet c s = .next { s with status := .eNotComplete } := by
  simp [execRtGet, hc.not_ge, hgaps]

theorem execRtGet_of_no_gaps (hc : c < s.params.nCtx) (hgaps : (s.ctx c).gaps = [])
    (hfit : (s.ctx c).totLen ≤ s.params.obufBytes) :
    execRtGet c s = .next { (s.writeObuf (s.dataFrom c 0 (s.ctx c).totLen)).freshen c with
      status := .ok, r0 := result (s.ctx c).totLen } := by
  simp [execRtGet, hc.not_ge, hgaps, hfit.not_gt]

theorem execRtDrop_of_lt (hc : c < s.params.nCtx) :
    execRtDrop c s = .next { s.freshen c with
      status := .ok, r0 := result (s.ctx c).segCnt, r1 := result (s.ctx c).byteCnt } :=
  if_neg hc.not_ge

theorem execRtList_of_lt (hc : c < s.params.nCtx) (hroom : (s.ctx c).gaps.length ≤ s.params.maxGaps) :
    execRtList c s = .next { s.writeGout ((s.ctx c).gaps.map Gap.pair) with
      status := .ok, r0 := result (s.ctx c).gaps.length } := by
  simp [execRtList, hc.not_ge, hroom.not_gt]

/-- `OBUF` after the first `n` bytes of a context are copied there. -/
theorem State.obufByte_writeObuf_dataFrom (s : State) (c n p : Nat) :
    (s.writeObuf (s.dataFrom c 0 n)).obufByte p = if p < n then s.dataByte c p else s.obufByte p := by
  simp only [State.obufByte_writeObuf, State.dataFrom_length]
  split_ifs with hp
  · have hget := State.dataFrom_getElem? s c 0 n p hp
    rw [Nat.zero_add] at hget
    exact List.getElem_eq_iff _ |>.2 hget
  · rfl

theorem State.dataByte_of_stored {p : Nat} (h : ((s.ctx c).data.find? p).isSome = true) :
    (s.ctx c).data.find? p = some (s.dataByte c p) := by
  obtain ⟨b, hb⟩ := Option.isSome_iff_exists.1 h
  simp [State.dataByte, hb]

/-- A gap of a context fits the two 16-bit values of its pair. -/
theorem Ctx.GapInv.pair_toNat (hx : x.GapInv maxGaps) {g : Gap} (hg : g ∈ x.gaps) :
    g.pair.start.toNat = g.start ∧ g.pair.stop.toNat = g.stop := by
  obtain ⟨hstart, hstop⟩ := hx.bounded g hg
  have hstop' : g.stop ≤ 65535 := by
    cases hopen : g.isOpen with
    | true => exact (Gap.isOpen_iff.1 hopen).le
    | false => exact (hstop hopen).trans (by decide)
  simp only [Config.maxSdu] at hstart
  simp only [Gap.pair, BitVec.toNat_ofNat]
  omega

end Readers

/-- Settles O28: a complete context stores every byte of its SDU, whose length is known, and is fresh afterwards. -/
theorem rtGetReadsOutTheSdu : Obligations.RtGetReadsOutTheSdu := by
  rintro s c ⟨-, hs, hb⟩
  refine ⟨fun hc => if_pos hc, execRtGet_of_gaps, fun hc hgaps => ?_⟩
  have hx := hs.ctx hc.not_ge
  have hlen : c < s.ctxs.length := by rwa [hs.ctxCount]
  obtain ⟨hpos, hle, -⟩ := hx.lengthKnown (hx.lastSeen_of_no_gaps hgaps)
  have hfit := hle.trans (Params.obufBytes_of_ok hs.params).1
  simp only [Config.maxSdu] at hle
  have hobuf := State.obufByte_writeObuf_dataFrom s c (s.ctx c).totLen
  have hfresh := State.ctx_freshen_same (s := s.writeObuf (s.dataFrom c 0 (s.ctx c).totLen)) hlen
  refine ⟨_, execRtGet_of_no_gaps hc hgaps hfit, rfl, hfresh, result_toNat (by omega), hpos, hle,
    fun p hp => ?_, fun p hp => ?_, execRtGet_of_gaps hc ?_⟩
  · rw [State.dataByte_of_stored ((hb.ctx hs hc).find?_isSome_of_no_gaps hx hgaps hp)]
    exact congrArg some ((hobuf p).trans (if_pos hp)).symm
  · exact (hobuf p).trans (if_neg hp.not_gt)
  · exact hfresh ▸ List.cons_ne_nil _ _

/-- Settles O29: the byte account bounds both counters and ties them to a complete and to a fresh context. -/
theorem rtDropDiscardsTheContext : Obligations.RtDropDiscardsTheContext := by
  rintro s c ⟨-, hs, hb⟩
  refine ⟨fun hc => if_pos hc, fun hc => ?_⟩
  have hx := hs.ctx hc.not_ge
  have hy := hb.ctx hs hc
  have hhigh := hy.byteCnt_le_high
  have hmax := hx.high_le_maxSdu
  have hsegs := hy.segmentsBounded
  simp only [Config.maxSdu] at hmax
  have hr1 : (result (s.ctx c).byteCnt).toNat = (s.ctx c).byteCnt := result_toNat (by omega)
  refine ⟨_, execRtDrop_of_lt hc, rfl, State.ctx_freshen_same (by rwa [hs.ctxCount]), result_toNat (by omega), hr1,
    fun hgaps => hr1.trans (hy.byteCnt_of_no_gaps hx hgaps), fun hfresh => ?_⟩
  rw [hfresh]
  exact ⟨rfl, rfl⟩

/-- Settles O30: the answer is `yesNo` of whether the list holds a gap. -/
theorem rtMissReportsGaps : Obligations.RtMissReportsGaps := by
  intro s c
  refine ⟨fun hc => if_pos hc, fun hc hgaps => ?_, fun hc hgaps => ?_⟩
  · simp [exec, execRtMiss, hc.not_ge, hgaps, yesNo, result]
  · simp [exec, execRtMiss, hc.not_ge, hgaps, yesNo, result]

/-- Settles O31: the list fits `GOUT`, and each of its gaps fits a pair. -/
theorem rtListReportsGaps : Obligations.RtListReportsGaps := by
  intro s c hs
  refine ⟨fun hc => if_pos hc, fun hc => ?_⟩
  have hx := hs.ctx hc.not_ge
  have hroom := hx.capacity
  have hgout := State.goutPair_writeGout s ((s.ctx c).gaps.map Gap.pair)
  have hcount : s.params.maxGaps ≤ 255 := by
    have hok := hs.params
    simp only [Params.ok, Bool.and_eq_true, decide_eq_true_eq] at hok
    omega
  refine ⟨_, execRtList_of_lt hc hroom, rfl, result_toNat (by omega), hroom, fun i g hg => ?_, fun i hi => ?_⟩
  · obtain ⟨hi, rfl⟩ := List.getElem?_eq_some_iff.1 hg
    have hpair := (hgout i).trans (dif_pos (by simpa using hi))
    rw [List.getElem_map] at hpair
    change ((s.writeGout _).goutPair i).start.toNat = _ ∧ ((s.writeGout _).goutPair i).stop.toNat = _
    rw [hpair]
    exact hx.pair_toNat (List.getElem_mem hi)
  · exact (hgout i).trans (dif_neg (by simpa using hi))

/-- Settles O32: each of the three answers says whether the gap list is empty. -/
theorem queriesAgreeOnCompletion : Obligations.QueriesAgreeOnCompletion := by
  intro s c hs hc
  obtain ⟨-, hmiss, hmiss'⟩ := rtMissReportsGaps s c
  obtain ⟨-, hlist⟩ := rtListReportsGaps s c hs.gaps
  obtain ⟨-, hget', hget⟩ := rtGetReadsOutTheSdu s c hs
  obtain ⟨u, hu, -, hr0, -⟩ := hlist hc
  have hcount : u.r0 = 0 ↔ (s.ctx c).gaps = [] := by
    rw [← BitVec.toNat_inj, hr0]
    exact List.length_eq_zero_iff
  by_cases hgaps : (s.ctx c).gaps = []
  · obtain ⟨v, hv, hvt, -⟩ := hget hc hgaps
    have hok : v.status = .ok := congrArg State.status hvt
    exact ⟨_, u, v, hmiss hc hgaps, hu, hv, iff_of_true rfl (hcount.2 hgaps), iff_of_true (hcount.2 hgaps) hok⟩
  · exact ⟨_, u, _, hmiss' hc hgaps, hu, hget' hc hgaps,
      iff_of_false (by decide : (1 : Word) ≠ 0) (mt hcount.1 hgaps),
      iff_of_false (mt hcount.1 hgaps) (by decide : Status.eNotComplete ≠ .ok)⟩

/-! #### Contexts a tracker command does not name -/

/-- Settles O18: a tracker command replaces at most the context it names. -/
theorem otherContextsUntouched : Obligations.OtherContextsUntouched := by
  intro s t c d last i hd hi h
  simp only [List.mem_cons, List.not_mem_nil, or_false] at hi
  obtain rfl | rfl | rfl | rfl | rfl := hi
  · obtain ⟨e, -, rfl⟩ | ⟨-, -, -, -, -, -, rfl⟩ := execRtSeg_cases h
    · rfl
    · exact State.ctx_setCtx_other s _ hd
  · obtain ⟨e, -, rfl⟩ | ⟨-, -, -, rfl⟩ := execRtGet_cases h
    · rfl
    · exact State.ctx_setCtx_other s _ hd
  · obtain ⟨e, -, rfl⟩ | ⟨-, rfl⟩ := execRtDrop_cases h
    · rfl
    · exact State.ctx_setCtx_other s _ hd
  · obtain ⟨e, -, rfl⟩ | ⟨-, rfl⟩ := execRtMiss_cases h <;> rfl
  · obtain ⟨e, -, rfl⟩ | ⟨-, -, rfl⟩ := execRtList_cases h <;> rfl

end Sys2Proof.Machine

/-! ### The slices of one SDU (41_reassembly_tracker.md R125 (c)) -/

namespace Sys2Proof.Machine

section Slices

variable {s t : State} {x : Ctx} {c len maxGaps : Nat} {f : Nat → Byte} {sl : Slice}
  {done : List Slice}

/-! #### A slice in `IBUF` -/

/-- The slice ends the SDU, so it is offered last-flagged. -/
def Slice.isLast (len : Nat) (sl : Slice) : Bool := decide (sl.off + sl.len = len)

theorem Slice.isLast_iff : sl.isLast len = true ↔ sl.off + sl.len = len := decide_eq_true_iff

theorem Slice.isLast_eq_false_iff : sl.isLast len = false ↔ sl.off + sl.len ≠ len := decide_eq_false_iff_not

theorem sliceBytes_length (f : Nat → Byte) (o n : Nat) : (sliceBytes f o n).length = n := by
  induction n generalizing o with
  | zero => rfl
  | succ n ih => simp [sliceBytes, ih]

theorem sliceBytes_getElem? (f : Nat → Byte) (o : Nat) {n j : Nat} (hj : j < n) :
    (sliceBytes f o n)[j]? = some (f (o + j)) := by
  induction n generalizing o j with
  | zero => omega
  | succ n ih =>
    cases j with
    | zero => rfl
    | succ j =>
      rw [sliceBytes, List.getElem?_cons_succ, ih (o + 1) (by omega), Nat.add_right_comm, Nat.add_assoc]

/-- The host has written the slice to `IBUF` and its operands to the argument registers. -/
def State.withSlice (f : Nat → Byte) (sl : Slice) (s : State) : State :=
  { s with
    ibuf := s.ibuf.setList 0 (sliceBytes f sl.off sl.len)
    a0 := result sl.off
    a1 := result sl.len
    a2 := 0 }

theorem offerSlice_eq (c : Nat) (f : Nat → Byte) (len : Nat) (sl : Slice) (s : State) :
    offerSlice c f len sl s = execRtSeg c (sl.isLast len) (s.withSlice f sl) := rfl

theorem State.ibufByte_withSlice {j : Nat} (hj : j < sl.len) : (s.withSlice f sl).ibufByte j = f (sl.off + j) := by
  have hfind : (s.withSlice f sl).ibuf.find? j = some (f (sl.off + j)) := by
    rw [State.withSlice, Memory.find?_setList, sliceBytes_length, if_pos (by omega), Nat.sub_zero,
      sliceBytes_getElem? f sl.off hj]
  rw [State.ibufByte, hfind, Option.getD_some]

theorem State.Inv.withSlice (hs : s.Inv) (f : Nat → Byte) (hfit : sl.len ≤ s.params.ibufBytes) :
    (s.withSlice f sl).Inv :=
  ⟨{ hs.spaces with ibuf := Memory.wf_setList _ _ (by rwa [sliceBytes_length, Nat.zero_add]) hs.spaces.ibuf },
    ⟨hs.gaps.params, hs.gaps.ctxCount, hs.gaps.gaps⟩, hs.bytes⟩

theorem Params.ibufBytes_of_ok {p : Params} (h : p.ok = true) : Config.maxSdu ≤ p.ibufBytes := by
  simp only [Params.ok, Bool.and_eq_true, decide_eq_true_eq] at h
  simp only [Config.maxSdu]
  omega

/-! #### A context that has received some of the slices -/

/-- The context has received the slices `done` of the SDU with bytes `f` and length `len`, and every byte it stores is the
SDU's. -/
structure Ctx.PartOf (f : Nat → Byte) (len : Nat) (done : List Slice) (x : Ctx) : Prop where
  starts : ∀ g ∈ x.gaps, g.start < len
  length : x.lastSeen = true → x.totLen = len
  filled : ∀ sl ∈ done, ∀ p, sl.off ≤ p → p < sl.off + sl.len → inGaps x.gaps p = false
  bytes : ∀ p b, x.data.find? p = some b → b = f p

namespace Ctx.PartOf

/-- A fresh context has received no slice. -/
theorem fresh (hlen : 0 < len) : Ctx.fresh.PartOf f len [] where
  starts := by simpa [Ctx.fresh] using hlen
  length := by simp [Ctx.fresh]
  filled := by simp
  bytes := by simp [Ctx.fresh]

/-- A slice, last-flagged exactly when it ends the SDU, does not contradict the context. -/
theorem fits (hx : x.PartOf f len done) (hend : sl.off + sl.len ≤ len) :
    x.conflicts (sl.isLast len) (sl.off + sl.len) = false := by
  cases hseen : x.lastSeen with
  | true =>
    rw [Ctx.conflicts_of_lastSeen hseen, hx.length hseen]
    exact ⟨hend, Slice.isLast_iff.1⟩
  | false =>
    rw [Ctx.conflicts_eq_false_iff, Contradicts]
    rintro (⟨h, -⟩ | ⟨h, -⟩ | ⟨-, hlast, g, hg, -, hlt⟩)
    · simp [hseen] at h
    · simp [hseen] at h
    · have hstart := hx.starts g hg
      rw [Slice.isLast_iff] at hlast
      omega

/-- With all slices received the context is complete: a gap would start at a position of the SDU that no slice holds. -/
theorem no_gaps (hx : x.PartOf f len done) (hgaps : x.GapInv maxGaps)
    (hcover : ∀ p, p < len → ∃ sl ∈ done, sl.off ≤ p ∧ p < sl.off + sl.len) : x.gaps = [] := by
  refine List.eq_nil_iff_forall_not_mem.2 fun g hg => ?_
  obtain ⟨sl, hsl, hoff, hend⟩ := hcover g.start (hx.starts g hg)
  exact not_in_gap (hx.filled sl hsl g.start hoff hend) hg ⟨le_rfl, hgaps.nonempty g hg⟩

/-- The length a slice fixes is the SDU's. -/
theorem length_accept (hx : x.PartOf f len done) (s : State) {src : Nat} :
    (s.accept x (sl.isLast len) sl.off sl.len src).lastSeen = true →
      (s.accept x (sl.isLast len) sl.off sl.len src).totLen = len := by
  intro hseen
  by_cases hfix : x.fixesLength (sl.isLast len) = true
  · rw [State.accept_totLen_of_fixesLength hfix]
    exact Slice.isLast_iff.1 (Ctx.fixesLength_iff.1 hfix).1
  · rw [State.accept_lastSeen, Ctx.lastSeen_or_of_not_fixesLength hfix] at hseen
    rw [State.accept_totLen_of_not_fixesLength hfix, hx.length hseen]

/-- A context that accepts one more slice has received that one too. -/
theorem accept (hx : x.PartOf f len done) (hgaps : x.GapInv maxGaps)
    (hadm : x.Admits maxGaps (sl.isLast len) sl.off sl.len) (hend : sl.off + sl.len ≤ len)
    (hsrc : ∀ j, j < sl.len → s.ibufByte j = f (sl.off + j)) :
    (s.accept x (sl.isLast len) sl.off sl.len 0).PartOf f len (done ++ [sl]) := by
  have hnew := hgaps.accept s (src := 0) hadm
  obtain ⟨hn, hmax, hfits, -⟩ := hadm
  constructor
  case starts =>
    intro k hk
    cases hseen : (s.accept x (sl.isLast len) sl.off sl.len 0).lastSeen with
    | true =>
      obtain ⟨-, -, hstops⟩ := hnew.lengthKnown hseen
      have hle := hstops k hk
      have hlt := hnew.nonempty k hk
      rw [hx.length_accept s hseen] at hle
      omega
    | false =>
      simp only [State.accept_lastSeen, Bool.or_eq_false_iff, Slice.isLast_eq_false_iff] at hseen
      obtain ⟨g, hg, hkg, -⟩ := Ctx.GapInv.of_mem_gapsAfter hk
      obtain ⟨-, -, -, hstart, -⟩ := piece_bounds hkg (hgaps.nonempty g hg)
      have hlt := hx.starts g hg
      omega
  case length => exact hx.length_accept s
  case filled =>
    intro sl' hsl' p hoff hp
    rw [State.accept_gaps, Bool.eq_false_iff, Ne, hgaps.inGaps_gapsAfter (by omega) hmax hfits]
    rintro ⟨hin, hout, -⟩
    obtain hsl' | rfl := List.mem_append.1 hsl' |>.imp_right List.mem_singleton.1
    · simp [hx.filled sl' hsl' p hoff hp] at hin
    · exact hout ⟨hoff, hp⟩
  case bytes =>
    intro p b hb
    rw [State.accept_data, find?_storeSegment] at hb
    split_ifs at hb with hp
    · obtain ⟨⟨hoff, hp⟩, -⟩ := hp
      rw [Nat.zero_add, hsrc _ (by omega), Nat.add_sub_cancel' hoff] at hb
      exact (Option.some.inj hb).symm
    · exact hx.bytes p b hb

end Ctx.PartOf

/-! #### Offering the slices -/

/-- The block has received the slices `done` in context `c`, and reported in `R1` whether they complete it. -/
structure State.Reassembling (c : Nat) (f : Nat → Byte) (len : Nat) (done : List Slice) (s : State) : Prop where
  inv : s.Inv
  ctxExists : c < s.params.nCtx
  part : (s.ctx c).PartOf f len done
  reported : done ≠ [] → s.r1 = result (yesNo (s.ctx c).gaps.isEmpty)

/-- A slice overflows the gap list or is accepted. -/
theorem offerSlice_cases (hgaps : s.GapsOk) (hc : c < s.params.nCtx) (hpart : (s.ctx c).PartOf f len done)
    (hn : 1 ≤ sl.len) (hend : sl.off + sl.len ≤ len) (hlen : len ≤ 9000) (h : offerSlice c f len sl s = .next t) :
    t.status = .eGapFull ∨
    ((s.ctx c).Admits s.params.maxGaps (sl.isLast len) sl.off sl.len ∧ ∃ v : Word,
      t = { (s.withSlice f sl).setCtx c ((s.withSlice f sl).accept (s.ctx c) (sl.isLast len) sl.off sl.len 0) with
        status := .ok
        r0 := v
        r1 := result (yesNo ((s.ctx c).gapsAfter (sl.isLast len) sl.off (sl.off + sl.len)).isEmpty) }) := by
  have hmax : sl.off + sl.len ≤ Config.maxSdu := hend.trans hlen
  have hbuf : sl.len ≤ s.params.ibufBytes :=
    (Nat.le_of_add_left_le hmax).trans (Params.ibufBytes_of_ok hgaps.params)
  have hfits := hpart.fits hend
  have ha0 : (s.withSlice f sl).a0.toNat = sl.off := result_toNat (by omega)
  have ha1 : (s.withSlice f sl).a1.toNat = sl.len := result_toNat (by omega)
  have ha2 : (s.withSlice f sl).a2.toNat = 0 := rfl
  have hctx : (s.withSlice f sl).ctx c = s.ctx c := rfl
  obtain ⟨-, -, -, -, hfull⟩ := rtSegErrorsInOrder (s.withSlice f sl) c (sl.isLast len)
  have haccept := execRtSeg_of_admits (s := s.withSlice f sl) (c := c) (last := sl.isLast len) hc
  simp only [ha0, ha1, ha2, hctx, Nat.zero_add] at hfull haccept
  by_cases hcap : ((s.ctx c).gapsAfter (sl.isLast len) sl.off (sl.off + sl.len)).length ≤ s.params.maxGaps
  · have hadm : (s.ctx c).Admits s.params.maxGaps (sl.isLast len) sl.off sl.len :=
      ⟨Nat.ne_of_gt hn, hmax, hfits, hcap⟩
    exact .inr ⟨hadm, _, Host.Outcome.next.inj (h.symm.trans (haccept hbuf hadm))⟩
  · have hexec := hfull hc (Nat.ne_of_gt hn) hbuf hmax (Ctx.conflicts_eq_false_iff.1 hfits) (not_le.1 hcap)
    obtain rfl := Host.Outcome.next.inj (h.symm.trans hexec)
    exact .inl rfl

/-- A slice that overflows no gap list is received. -/
theorem State.Reassembling.offerSlice (hs : s.Reassembling c f len done) (hn : 1 ≤ sl.len)
    (hend : sl.off + sl.len ≤ len) (hlen : len ≤ 9000) (h : offerSlice c f len sl s = .next t)
    (hroom : t.status ≠ .eGapFull) : t.Reassembling c f len (done ++ [sl]) := by
  obtain ⟨hinv, hc, hpart, -⟩ := hs
  have hbuf : sl.len ≤ s.params.ibufBytes :=
    (Nat.le_of_add_left_le (hend.trans hlen)).trans (Params.ibufBytes_of_ok hinv.gaps.params)
  have hnew := (hinv.withSlice f hbuf).of_execRtSeg h
  obtain hfull | ⟨hadm, v, rfl⟩ := offerSlice_cases hinv.gaps hc hpart hn hend hlen h
  · exact absurd hfull hroom
  have hctx := State.ctx_setCtx_same (s.withSlice f sl) (c := c)
    ((s.withSlice f sl).accept (s.ctx c) (sl.isLast len) sl.off sl.len 0)
    (hc.trans_eq hinv.gaps.ctxCount.symm)
  refine ⟨hnew, hc, ?_, fun _ => ?_⟩
  · change ((State.setCtx _ c _).ctx c).PartOf f len _
    rw [hctx]
    exact hpart.accept (hinv.gaps.ctx hc.not_ge) hadm hend fun j hj => State.ibufByte_withSlice hj
  · change _ = result (yesNo ((State.setCtx _ c _).ctx c).gaps.isEmpty)
    rw [hctx, State.accept_gaps]

/-- Slices none of which overflows the gap list are all received. -/
theorem State.Reassembling.offerAll {slices : List Slice} (hlen : len ≤ 9000) (hs : s.Reassembling c f len done)
    (hslices : ∀ sl ∈ slices, 1 ≤ sl.len ∧ sl.off + sl.len ≤ len) (h : offerAll c f len slices s = some t) :
    t.Reassembling c f len (done ++ slices) := by
  induction slices generalizing s done with
  | nil =>
    cases h
    rwa [List.append_nil]
  | cons sl rest ih =>
    obtain ⟨⟨hn, hend⟩, hrest⟩ := List.forall_mem_cons.1 hslices
    simp only [Machine.offerAll] at h
    split at h
    · rename_i u hu
      split_ifs at h with hfull
      have hall := ih (hs.offerSlice hn hend hlen hu hfull) hrest h
      rwa [List.append_assoc] at hall
    · cases h
    · cases h

end Slices

/-- Settles O27: every offer adds its slice to what the context has received, all slices leave no gap, and `RT_GET` copies
the bytes stored. -/
theorem anyOrderReassemblesTheSdu : Obligations.AnyOrderReassemblesTheSdu := by
  intro s t c len f slices hs hc hfresh hpos hlen hslices hcover h
  have hstart : s.Reassembling c f len [] := ⟨hs, hc, hfresh ▸ .fresh hpos, fun hne => absurd rfl hne⟩
  obtain ⟨hinv, hc', hpart, hreported⟩ := hstart.offerAll hlen hslices h
  rw [List.nil_append] at hpart hreported
  have hx := hinv.gaps.ctx hc'.not_ge
  have hgaps := hpart.no_gaps hx hcover
  have htot := hpart.length (hx.lastSeen_of_no_gaps hgaps)
  obtain ⟨sl, hsl, -⟩ := hcover 0 hpos
  obtain ⟨-, -, hget⟩ := rtGetReadsOutTheSdu t c hinv
  obtain ⟨u, hu, hut, hctx, hr0, -, -, hbytes, -, -⟩ := hget hc' hgaps
  rw [htot] at hr0 hbytes
  refine ⟨?_, u, hu, congrArg State.status hut, hr0, hctx, fun p hp => hpart.bytes p _ (hbytes p hp)⟩
  rw [hreported (List.ne_nil_of_mem hsl), hgaps]
  rfl

end Sys2Proof.Machine

/-! ### The data-PDU codec (42_data_pdu_codec.md) -/

namespace Sys2Proof.Machine

/-! #### Bits as numbers -/

theorem toNat_append_eq {m n : Nat} (x : BitVec m) (y : BitVec n) : (x ++ y).toNat = x.toNat * 2 ^ n + y.toNat := by
  rw [BitVec.toNat_append, ← Nat.shiftLeft_add_eq_or_of_lt y.isLt, Nat.shiftLeft_eq]

theorem toNat_extractLsb_eq {n : Nat} (x : BitVec n) (hi lo : Nat) :
    (x.extractLsb hi lo).toNat = x.toNat / 2 ^ lo % 2 ^ (hi - lo + 1) := by
  rw [BitVec.extractLsb_toNat, Nat.shiftRight_eq_div_pow]

theorem yesNo_eq_toNat (b : Bool) : yesNo b = b.toNat := by cases b <;> rfl

theorem yesNo_getLsbD {n : Nat} (x : BitVec n) (i : Nat) : yesNo (x.getLsbD i) = x.toNat / 2 ^ i % 2 := by
  rw [yesNo_eq_toNat, ← BitVec.testBit_toNat, Nat.toNat_testBit]

@[simp] theorem bit_toNat (b : Bool) : (bit b).toNat = yesNo b := by cases b <;> rfl

theorem be16_toNat (b0 b1 : Byte) : (be16 b0 b1).toNat = b0.toNat * 256 + b1.toNat := toNat_append_eq b0 b1

theorem bytes16_map_toNat (v : BitVec 16) : (bytes16 v).map BitVec.toNat = [v.toNat / 256, v.toNat % 256] := by
  have hv := v.isLt
  simp only [bytes16, List.map, toNat_extractLsb_eq, List.cons.injEq, and_true]
  omega

/-! #### The segmentation state (00_scope.md R17) -/

@[simp] theorem SegInfo.code_toNat (si : SegInfo) : si.code.toNat = siNumber si := by cases si <;> rfl

theorem siNumber_ofCode (c : BitVec 2) : siNumber (.ofCode c) = c.toNat := by
  revert c
  decide

theorem siNumber_le (si : SegInfo) : siNumber si ≤ 3 := by cases si <;> decide

theorem siNumber_injective : Function.Injective siNumber := by
  intro si si' h
  rw [← SegInfo.code_toNat, ← SegInfo.code_toNat] at h
  rw [← SegInfo_ofCode_code si, BitVec.eq_of_toNat_eq h, SegInfo_ofCode_code]

theorem siNumber_eq_zero {si : SegInfo} : siNumber si = 0 ↔ si = .whole := by cases si <;> decide

/-- The segmentation state as a result (42_data_pdu_codec.md R152). -/
theorem code_setWidth_toNat (si : SegInfo) : (si.code.setWidth 32).toNat = siNumber si := by cases si <;> rfl

/-! #### The header family of a legal pair (30_encoding.md R77) -/

section Legal

variable {mode : Mode} {k : KSel} {f : DataFormat}

theorem dataFormat_of_mem
    (hk : (mode, k, f) ∈ [(Mode.um, KSel.k6, DataFormat.um6), (Mode.um, KSel.k12, DataFormat.um12),
      (Mode.am, KSel.k12, DataFormat.am12), (Mode.am, KSel.k18, DataFormat.am18)]) : dataFormat mode k = some f := by
  obtain ⟨rfl, rfl, rfl⟩ | ⟨rfl, rfl, rfl⟩ | ⟨rfl, rfl, rfl⟩ | ⟨rfl, rfl, rfl⟩ := by simpa using hk
  all_goals rfl

theorem dataFormat_of_mem_bits {bits : Nat}
    (hk : (mode, k, f, bits) ∈ [(Mode.um, KSel.k6, DataFormat.um6, 6), (Mode.um, KSel.k12, DataFormat.um12, 12),
      (Mode.am, KSel.k12, DataFormat.am12, 12), (Mode.am, KSel.k18, DataFormat.am18, 18)]) :
    dataFormat mode k = some f ∧ f.snBits = bits := by
  obtain ⟨rfl, rfl, rfl, rfl⟩ | ⟨rfl, rfl, rfl, rfl⟩ | ⟨rfl, rfl, rfl, rfl⟩ | ⟨rfl, rfl, rfl, rfl⟩ := by
    simpa using hk
  all_goals exact ⟨rfl, rfl⟩

theorem exists_dataFormat_of_mem {bits : Nat} (hk : (mode, k, bits) ∈ [(Mode.um, KSel.k6, 6), (Mode.um, KSel.k12, 12),
    (Mode.am, KSel.k12, 12), (Mode.am, KSel.k18, 18)]) : ∃ f, dataFormat mode k = some f ∧ f.snBits = bits := by
  obtain ⟨rfl, rfl, rfl⟩ | ⟨rfl, rfl, rfl⟩ | ⟨rfl, rfl, rfl⟩ | ⟨rfl, rfl, rfl⟩ := by simpa using hk
  all_goals exact ⟨_, rfl, rfl⟩

theorem isAm_iff (hf : dataFormat mode k = some f) : f.isAm = true ↔ mode = .am := by
  cases mode <;> cases k <;> cases hf <;> decide

theorem isAm_eq_false_iff (hf : dataFormat mode k = some f) : f.isAm = false ↔ mode = .um := by
  cases mode <;> cases k <;> cases hf <;> decide

theorem carriesSn_iff (hf : dataFormat mode k = some f) (si : SegInfo) :
    carriesSn f si = true ↔ ¬(mode = .um ∧ si = .whole) := by
  have ham := isAm_iff hf
  cases mode <;> simp_all [carriesSn]

theorem carriesSn_um_iff (hum : f.isAm = false) (si : SegInfo) : carriesSn f si = true ↔ si ≠ .whole := by
  simp [carriesSn, hum]

theorem carriesSo_iff (si : SegInfo) : carriesSo si = true ↔ si = .last ∨ si = .middle := by simp [carriesSo]

end Legal

/-! #### ENC_DATA writes the header's numbers (42_data_pdu_codec.md R148) -/

section Encoder

variable {mode : Mode} {k : KSel} {f : DataFormat} {si : SegInfo} {poll : Bool} {s : State}

/-- The bytes the encoder builds are the numbers of the byte formulas. -/
theorem headerBytes_map_toNat {sn so : Word} (hsn : sn.toNat < 2 ^ f.snBits) (hso : so.toNat < 2 ^ 16) :
    (headerBytes f si poll sn so).map BitVec.toNat = headerFormula f si (yesNo poll) sn.toNat so.toNat := by
  simp only [headerBytes, headerFormula, List.map_append]
  congr 1
  · cases f <;> simp only [headerStart, DataFormat.snBits, apply_ite (List.map BitVec.toNat), List.map,
      toNat_append_eq, toNat_extractLsb_eq, SegInfo.code_toNat, bit_toNat, BitVec.toNat_ofNat] at hsn ⊢
    case um6 | um12 =>
      split
      · simp_all [siNumber]
      · simp only [List.cons.injEq, and_true]
        omega
    case am12 | am18 =>
      simp only [List.cons.injEq, and_true]
      omega
  · have hlow : (so.extractLsb 15 0).toNat = so.toNat := by simpa [toNat_extractLsb_eq] using hso
    simp only [apply_ite (List.map BitVec.toNat), bytes16_map_toNat, hlow, carriesSo_iff, List.map_nil]

theorem headerFormula_length (f : DataFormat) (si : SegInfo) (p sn so : Nat) :
    (headerFormula f si p sn so).length = hdrLen f si := by
  cases f <;> cases si <;> rfl

/-- The last two bytes of a header that carries the segment offset. -/
theorem headerFormula_so (f : DataFormat) {si : SegInfo} (p sn so : Nat) (h : carriesSo si = true) :
    (headerFormula f si p sn so)[hdrLen f si - 2]? = some (so / 256) ∧
      (headerFormula f si p sn so)[hdrLen f si - 1]? = some (so % 256) := by
  obtain rfl | rfl := (carriesSo_iff si).1 h <;> cases f <;> exact ⟨rfl, rfl⟩

theorem hdrLen_le_obufBytes {p : Params} (h : p.ok = true) (f : DataFormat) (si : SegInfo) :
    hdrLen f si ≤ p.obufBytes :=
  calc hdrLen f si ≤ 5 := (hdrLen_bounds f si).2
    _ ≤ Config.maxSdu := by decide
    _ ≤ p.obufBytes := (Params.obufBytes_of_ok h).1

theorem result_hdrLen_toNat (f : DataFormat) (si : SegInfo) : (result (hdrLen f si)).toNat = hdrLen f si :=
  result_toNat ((hdrLen_bounds f si).2.trans_lt (by decide))

/-- `ENC_DATA` on operands in their range. -/
theorem execEncData_of_fits (hf : dataFormat mode k = some f) (h0 : s.a0.toNat < 2 ^ f.snBits)
    (h1 : s.a1.toNat < 2 ^ 16) (hp : ¬(mode = .um ∧ poll = true)) (hroom : hdrLen f si ≤ s.params.obufBytes) :
    execEncData poll si mode k s = .next { s.writeObuf (headerBytes f si poll s.a0 s.a1) with
      status := .ok, r0 := result (hdrLen f si) } := by
  simp only [execEncData, hf, raise_eq, finish_eq]
  rw [if_neg (by simp only [not_or]; exact ⟨h0.not_ge, h1.not_ge, hp⟩), if_neg hroom.not_gt]

/-- The numbers of a header that stands in `OBUF`. -/
theorem obufByte_header_toNat (h0 : s.a0.toNat < 2 ^ f.snBits) (h1 : s.a1.toNat < 2 ^ 16) {j v : Nat}
    (hv : (headerFormula f si (yesNo poll) s.a0.toNat s.a1.toNat)[j]? = some v) :
    ((s.writeObuf (headerBytes f si poll s.a0 s.a1)).obufByte j).toNat = v := by
  rw [← headerBytes_map_toNat h0 h1, List.getElem?_map, Option.map_eq_some_iff] at hv
  obtain ⟨b, hb, rfl⟩ := hv
  obtain ⟨hj, rfl⟩ := List.getElem?_eq_some_iff.1 hb
  rw [State.obufByte_writeObuf, dif_pos hj]

end Encoder

/-- Settles O33: the header's bytes are the numbers of the formulas, and `OBUF` holds them. -/
theorem encDataWritesTheHeader : Obligations.EncDataWritesTheHeader := by
  intro s poll si mode k f bits hk hok h0 h1 hp
  obtain ⟨hf, rfl⟩ := dataFormat_of_mem_bits hk
  refine ⟨_, execEncData_of_fits hf h0 h1 hp (hdrLen_le_obufBytes hok f si), rfl, ?_, ?_, ?_⟩
  · rw [headerFormula_length]
    exact result_hdrLen_toNat f si
  · exact fun j v hv => obufByte_header_toNat h0 h1 hv
  · intro j hj
    have hj' : ¬j < (headerBytes f si poll s.a0 s.a1).length := by
      rw [headerBytes_length, ← result_hdrLen_toNat]
      exact hj.not_gt
    exact (State.obufByte_writeObuf s _ j).trans (dif_neg hj')

/-- Settles O34: on a legal pair the operands are the first test. -/
theorem encDataRejectsOperands : Obligations.EncDataRejectsOperands := by
  intro s poll si mode k bits hk hbad
  obtain ⟨f, hf, rfl⟩ := exists_dataFormat_of_mem hk
  simp only [exec, execEncData, hf]
  exact if_pos hbad

/-! #### DEC_DATA reads the header's numbers (42_data_pdu_codec.md R152) -/

section Decoder

variable {mode : Mode} {k : KSel} {f : DataFormat} {si : SegInfo} {s : State}

theorem Byte.getLsbD_seven (b : Byte) : b.getLsbD 7 = decide (128 ≤ b.toNat) := BitVec.msb_eq_decide b

theorem siNumber_headerSi (f : DataFormat) (b : Byte) :
    siNumber (headerSi f b) = if f.isAm then b.toNat / 16 % 4 else b.toNat / 64 := by
  have hb := b.isLt
  unfold headerSi
  split <;> rw [siNumber_ofCode, toNat_extractLsb_eq]
  all_goals omega

theorem yesNo_headerPoll (f : DataFormat) (b : Byte) :
    yesNo (headerPoll f b) = if f.isAm then b.toNat / 64 % 2 else 0 := by
  cases h : f.isAm
  · simp [headerPoll, h, yesNo]
  · simpa [headerPoll, h] using yesNo_getLsbD b 6

/-- The SN in the first bytes of a header that carries one (42_data_pdu_codec.md R144 to R146). -/
def snNumber (f : DataFormat) (b0 b1 b2 : Nat) : Nat :=
  match f with
  | .um6 => b0 % 64
  | .um12 => b0 % 16 * 256 + b1
  | .am12 => b0 % 16 * 256 + b1
  | .am18 => b0 % 4 * 65536 + b1 * 256 + b2

theorem headerSn_toNat (f : DataFormat) (si : SegInfo) (b0 b1 b2 : Byte) :
    (headerSn f si b0 b1 b2).toNat = if carriesSn f si then snNumber f b0.toNat b1.toNat b2.toNat else 0 := by
  have h1 := b1.isLt
  have h2 := b2.isLt
  unfold headerSn
  split
  · cases f <;> simp only [snNumber, BitVec.toNat_setWidth, toNat_append_eq, toNat_extractLsb_eq] <;> omega
  · rfl

theorem headerSn_lt (f : DataFormat) (si : SegInfo) (b0 b1 b2 : Byte) :
    (headerSn f si b0 b1 b2).toNat < 2 ^ f.snBits := by
  have h1 := b1.isLt
  have h2 := b2.isLt
  rw [headerSn_toNat]
  split
  · cases f <;> simp only [snNumber, DataFormat.snBits] <;> omega
  · exact Nat.two_pow_pos _

theorem headerSo_toNat (s : State) (f : DataFormat) (si : SegInfo) :
    (headerSo s f si).toNat = if carriesSo si then
      (s.ibufByte (hdrLen f si - 2)).toNat * 256 + (s.ibufByte (hdrLen f si - 1)).toNat else 0 := by
  unfold headerSo
  split
  · rw [BitVec.toNat_setWidth_of_le (by decide), be16_toNat]
  · rfl

theorem headerSo_lt (s : State) (f : DataFormat) (si : SegInfo) : (headerSo s f si).toNat < 2 ^ 16 := by
  rw [headerSo]
  split
  · rw [BitVec.toNat_setWidth_of_le (by decide)]
    exact BitVec.isLt _
  · decide

/-- `DEC_DATA` on a PDU inside `IBUF`: its tests on byte 0 and on the header's length, then the results. -/
theorem execDecData_of_pdu (hf : dataFormat mode k = some f) (hbuf : s.a0.toNat ≤ s.params.ibufBytes)
    (hne : s.a0.toNat ≠ 0) (hdata : f.isAm = true → 128 ≤ (s.ibufByte 0).toNat)
    (hsi : headerSi f (s.ibufByte 0) = si) :
    execDecData mode k s =
      if s.a0.toNat < hdrLen f si then .next { s with status := .eShortPdu }
      else .next { s with
        status := .ok
        r0 := si.code.setWidth 32
        r1 := result (yesNo (headerPoll f (s.ibufByte 0)))
        r2 := headerSn f si (s.ibufByte 0) (s.ibufByte 1) (s.ibufByte 2)
        r3 := headerSo s f si
        r4 := result (hdrLen f si)
        r5 := result (s.a0.toNat - hdrLen f si) } := by
  subst hsi
  have hbit : ¬(f.isAm && !(s.ibufByte 0).getLsbD 7) = true := by
    rw [Byte.getLsbD_seven]
    simpa using hdata
  simp only [execDecData, hf, raise_eq, finish_eq]
  rw [if_neg hbuf.not_gt, if_neg hne, if_neg hbit]

/-- Byte 0 in numbers says the segmentation state, and in AM that the PDU is a data PDU. -/
theorem headerSi_of_number (hf : dataFormat mode k = some f)
    (hum : mode = .um → siNumber si = (s.ibufByte 0).toNat / 64)
    (ham : mode = .am → 128 ≤ (s.ibufByte 0).toNat ∧ siNumber si = (s.ibufByte 0).toNat / 16 % 4) :
    (f.isAm = true → 128 ≤ (s.ibufByte 0).toNat) ∧ headerSi f (s.ibufByte 0) = si := by
  refine ⟨fun h => (ham ((isAm_iff hf).1 h)).1, siNumber_injective ?_⟩
  rw [siNumber_headerSi]
  cases h : f.isAm
  · exact (hum ((isAm_eq_false_iff hf).1 h)).symm
  · exact (ham ((isAm_iff hf).1 h)).2.symm

end Decoder

/-- Settles O35: each result is its field in numbers. -/
theorem decDataReadsTheHeader : Obligations.DecDataReadsTheHeader := by
  intro s mode k f si hk hbuf hum ham hlen
  have hf := dataFormat_of_mem hk
  obtain ⟨hdata, hsi⟩ := headerSi_of_number hf hum ham
  have hpos := (hdrLen_bounds f si).1
  refine ⟨_, (execDecData_of_pdu hf hbuf (by omega) hdata hsi).trans (if_neg hlen.not_gt), rfl,
    code_setWidth_toNat si, ?_, ?_, ?_, result_hdrLen_toNat f si, result_toNat (by omega)⟩
  · rw [result_yesNo_toNat, yesNo_headerPoll]
    simp only [isAm_iff hf]
  · rw [headerSn_toNat]
    simp only [carriesSn_iff hf, ite_not]
    cases f <;> rfl
  · rw [headerSo_toNat]
    simp only [carriesSo_iff]

/-- Settles O36: each clause fails one test and passes those before it. -/
theorem decDataErrorsInOrder : Obligations.DecDataErrorsInOrder := by
  intro s mode k f si hk
  have hf := dataFormat_of_mem hk
  refine ⟨fun hbuf => ?_, fun hbuf hzero => ?_, fun hbuf hne hmode hctl => ?_, fun hbuf hne hum ham hshort => ?_⟩
  · simp [exec, execDecData, hf, hbuf]
  · simp [exec, execDecData, hf, hzero]
  · have hbit : (s.ibufByte 0).getLsbD 7 = false := by rw [Byte.getLsbD_seven]; exact decide_eq_false hctl.not_ge
    simp only [exec, execDecData, hf, hbuf.not_gt, hne, (isAm_iff hf).2 hmode, hbit, raise_eq, if_false]
    rfl
  · obtain ⟨hdata, hsi⟩ := headerSi_of_number hf hum ham
    exact (execDecData_of_pdu hf hbuf hne hdata hsi).trans (if_pos hshort)

/-! #### A header that stands in `IBUF` (42_data_pdu_codec.md R154) -/

/-- `IBUF` starts with the header of the byte formulas. -/
def State.HasHeader (s : State) (f : DataFormat) (si : SegInfo) (p sn so : Nat) : Prop :=
  ∀ j v, (headerFormula f si p sn so)[j]? = some v → (s.ibufByte j).toNat = v

namespace State.HasHeader

variable {s : State} {f : DataFormat} {si : SegInfo} {p sn so : Nat} (h : s.HasHeader f si p sn so)
include h

theorem byte0_of_um (hf : f.isAm = false) (hsn : sn < 2 ^ f.snBits) : (s.ibufByte 0).toNat / 64 = siNumber si := by
  by_cases hw : si = .whole
  · have h0 : (headerFormula f si p sn so)[0]? = some 0 := by cases f <;> cases hf <;> simp [headerFormula, hw]
    rw [h 0 0 h0, hw]
    rfl
  · cases f <;> simp only [DataFormat.snBits] at hsn
    case um6 =>
      rw [h 0 (siNumber si * 64 + sn) (by simp [headerFormula, hw])]
      omega
    case um12 =>
      rw [h 0 (siNumber si * 64 + sn / 256) (by simp [headerFormula, hw])]
      omega
    case am12 | am18 => cases hf

theorem byte0_of_am (hf : f.isAm = true) (hsn : sn < 2 ^ f.snBits) :
    (s.ibufByte 0).toNat / 16 = 8 + p * 4 + siNumber si := by
  cases f <;> simp only [DataFormat.snBits] at hsn
  case um6 | um12 => cases hf
  case am12 | am18 =>
    rw [h 0 _ rfl]
    omega

theorem headerSi_eq (hsn : sn < 2 ^ f.snBits) : headerSi f (s.ibufByte 0) = si := by
  have hsi := siNumber_le si
  apply siNumber_injective
  rw [siNumber_headerSi]
  cases hf : f.isAm
  · exact h.byte0_of_um hf hsn
  · have hbyte := h.byte0_of_am hf hsn
    rw [if_pos rfl]
    omega

theorem yesNo_headerPoll_eq (hsn : sn < 2 ^ f.snBits) (hp : p ≤ 1) (hum : f.isAm = false → p = 0) :
    yesNo (headerPoll f (s.ibufByte 0)) = p := by
  have hsi := siNumber_le si
  rw [yesNo_headerPoll]
  cases hf : f.isAm
  · exact (hum hf).symm
  · have hbyte := h.byte0_of_am hf hsn
    rw [if_pos rfl]
    omega

theorem snNumber_eq (hc : carriesSn f si = true) (hsn : sn < 2 ^ f.snBits) :
    snNumber f (s.ibufByte 0).toNat (s.ibufByte 1).toNat (s.ibufByte 2).toNat = sn := by
  cases f <;> simp only [snNumber, DataFormat.snBits] at hsn ⊢
  case um6 =>
    have hw := (carriesSn_um_iff rfl si).1 hc
    rw [h 0 (siNumber si * 64 + sn) (by simp [headerFormula, hw])]
    omega
  case um12 =>
    have hw := (carriesSn_um_iff rfl si).1 hc
    rw [h 0 (siNumber si * 64 + sn / 256) (by simp [headerFormula, hw]), h 1 (sn % 256) (by simp [headerFormula, hw])]
    omega
  case am12 =>
    rw [h 0 _ rfl, h 1 _ rfl]
    omega
  case am18 =>
    rw [h 0 _ rfl, h 1 _ rfl, h 2 _ rfl]
    omega

theorem headerSn_toNat_eq (hsn : sn < 2 ^ f.snBits) :
    (headerSn f si (s.ibufByte 0) (s.ibufByte 1) (s.ibufByte 2)).toNat = if carriesSn f si then sn else 0 := by
  rw [headerSn_toNat]
  exact ite_congr rfl (fun hc => h.snNumber_eq hc hsn) fun _ => rfl

theorem headerSo_toNat_eq : (headerSo s f si).toNat = if carriesSo si then so else 0 := by
  rw [headerSo_toNat]
  refine ite_congr rfl (fun hc => ?_) fun _ => rfl
  obtain ⟨hhi, hlo⟩ := headerFormula_so f p sn so hc
  rw [h _ _ hhi, h _ _ hlo]
  omega

end State.HasHeader

/-- Settles O37: the copied bytes are a header in `IBUF`, and each field is read from its numbers. -/
theorem dataHeaderRoundTrip : Obligations.DataHeaderRoundTrip := by
  intro s t u poll si mode k n henc hok hlen hbuf hcopy
  obtain ⟨e, he, rfl⟩ | ⟨f, hf, h0, h1, hp, -, rfl⟩ := execEncData_cases henc
  · exact absurd hok he
  have hr0 := result_hdrLen_toNat f si
  have hhdr : u.HasHeader f si (yesNo poll) s.a0.toNat s.a1.toNat := fun j v hv => by
    have hj := (List.getElem?_eq_some_iff.1 hv).1
    rw [headerFormula_length, ← hr0] at hj
    rw [hcopy j hj]
    exact obufByte_header_toNat h0 h1 hv
  have hlen' : u.a0.toNat = hdrLen f si + n := hlen.trans (congrArg (· + n) hr0)
  have hpos := (hdrLen_bounds f si).1
  have hum : f.isAm = false → yesNo poll = 0 := fun ham =>
    if_neg fun hpoll => hp ⟨(isAm_eq_false_iff hf).1 ham, hpoll⟩
  have hdata : f.isAm = true → 128 ≤ (u.ibufByte 0).toNat := fun ham => by
    have hbyte := hhdr.byte0_of_am ham h0
    omega
  refine ⟨_, (execDecData_of_pdu hf hbuf (by omega) hdata (hhdr.headerSi_eq h0)).trans (if_neg (by omega)), rfl,
    code_setWidth_toNat si, ?_, BitVec.eq_of_toNat_eq ?_, BitVec.eq_of_toNat_eq ?_, rfl, ?_⟩
  · rw [result_yesNo_toNat]
    exact hhdr.yesNo_headerPoll_eq h0 (yesNo_le poll) hum
  · rw [hhdr.headerSn_toNat_eq h0, apply_ite BitVec.toNat]
    simp only [carriesSn_iff hf, ite_not]
    rfl
  · rw [hhdr.headerSo_toNat_eq, apply_ite BitVec.toNat]
    simp only [carriesSo_iff]
    rfl
  · rw [hlen', Nat.add_sub_cancel_left]
    exact result_toNat (by omega)

/-! #### The fields read from a header, encoded again (42_data_pdu_codec.md R154, converse) -/

/-- The bytes of a header before the segment offset (42_data_pdu_codec.md R144 to R146). -/
def startLen : DataFormat → SegInfo → Nat
  | .um6, _ => 1
  | .um12, si => if si = .whole then 1 else 2
  | .am12, _ => 2
  | .am18, _ => 3

theorem hdrLen_eq (f : DataFormat) (si : SegInfo) :
    hdrLen f si = startLen f si + if carriesSo si then 2 else 0 := by
  cases f <;> cases si <;> rfl

theorem startLen_le_hdrLen (f : DataFormat) (si : SegInfo) : startLen f si ≤ hdrLen f si :=
  (Nat.le_add_right _ _).trans (hdrLen_eq f si).ge

/-- What each mask of byte 0 keeps. -/
theorem Byte.and_mask_toNat (b : Byte) :
    (b &&& 0xFF#8).toNat = b.toNat ∧ (b &&& 0xC0#8).toNat = b.toNat / 64 * 64 ∧
      (b &&& 0xCF#8).toNat = b.toNat / 64 * 64 + b.toNat % 16 ∧
      (b &&& 0xF3#8).toNat = b.toNat / 16 * 16 + b.toNat % 4 := by
  revert b
  decide

theorem and_headerMask_of_pos (b : Byte) (f : DataFormat) (si : SegInfo) {j : Nat} (hj : 0 < j) :
    (b &&& headerMask f si j).toNat = b.toNat := by
  have hmask : headerMask f si j = 0xFF#8 := if_pos hj.ne'
  rw [hmask]
  exact (Byte.and_mask_toNat b).1

section Reencode

variable {s : State} {f : DataFormat} {si : SegInfo}

theorem headerSn_toNat_of_carriesSn (b0 b1 b2 : Byte) (hc : carriesSn f si = true) :
    (headerSn f si b0 b1 b2).toNat = snNumber f b0.toNat b1.toNat b2.toNat :=
  (headerSn_toNat f si b0 b1 b2).trans (if_pos hc)

/-- The formula of byte 0 on the fields read from a header gives the byte back but for its reserved bits. -/
theorem headerFormula_byte0 {b0 : Byte} (b1 b2 : Byte) (hsi : headerSi f b0 = si)
    (hdata : f.isAm = true → 128 ≤ b0.toNat) (so : Nat) :
    (headerFormula f si (yesNo (headerPoll f b0)) (headerSn f si b0 b1 b2).toNat so)[0]? =
      some (b0 &&& headerMask f si 0).toNat := by
  have hnum := siNumber_headerSi f b0
  have hp := yesNo_headerPoll f b0
  have hsn := headerSn_toNat_of_carriesSn (f := f) (si := si) b0 b1 b2
  have hlt := And.intro b1.isLt b2.isLt
  obtain ⟨hff, hc0, hcf, hf3⟩ := Byte.and_mask_toNat b0
  rw [hsi] at hnum
  generalize yesNo (headerPoll f b0) = p at hp ⊢
  generalize (headerSn f si b0 b1 b2).toNat = sn at hsn ⊢
  cases f
  case um6 | um12 =>
    replace hnum : siNumber si = b0.toNat / 64 := hnum
    by_cases hw : si = .whole
    · have hzero := siNumber_eq_zero.2 hw
      simp only [headerFormula, headerMask, if_pos hw, ne_eq, not_true, if_false, hc0, ← hnum, hzero]
      rfl
    · replace hsn := hsn ((carriesSn_um_iff rfl si).2 hw)
      simp only [snNumber] at hsn
      simp only [headerFormula, headerMask, if_neg hw, ne_eq, not_true, if_false, hff, hcf]
      refine congrArg some (?_ : _ = _)
      omega
  case am12 | am18 =>
    replace hnum : siNumber si = b0.toNat / 16 % 4 := hnum
    replace hp : p = b0.toNat / 64 % 2 := hp
    replace hdata := hdata rfl
    replace hsn := hsn rfl
    simp only [snNumber] at hsn
    simp only [headerMask, ne_eq, not_true, if_false, hff, hf3]
    refine congrArg some (?_ : _ = _)
    omega

/-- The formulas of the other bytes before the segment offset give the bytes back. -/
theorem headerFormula_later_byte (p so : Nat) {j : Nat} (hpos : 0 < j) (hj : j < startLen f si) :
    (headerFormula f si p (headerSn f si (s.ibufByte 0) (s.ibufByte 1) (s.ibufByte 2)).toNat so)[j]? =
      some (s.ibufByte j).toNat := by
  have hsn := headerSn_toNat_of_carriesSn (f := f) (si := si) (s.ibufByte 0) (s.ibufByte 1) (s.ibufByte 2)
  have hlt := And.intro (s.ibufByte 1).isLt (s.ibufByte 2).isLt
  generalize (headerSn f si (s.ibufByte 0) (s.ibufByte 1) (s.ibufByte 2)).toNat = sn at hsn ⊢
  cases f with
  | um6 => exact absurd hj (Nat.not_lt.2 hpos)
  | um12 =>
    have hw : si ≠ .whole := fun hw => by
      rw [startLen, if_pos hw] at hj
      omega
    replace hsn : sn = (s.ibufByte 0).toNat % 16 * 256 + (s.ibufByte 1).toNat :=
      hsn ((carriesSn_um_iff rfl si).2 hw)
    rw [startLen, if_neg hw] at hj
    obtain rfl : j = 1 := by omega
    simp only [headerFormula, if_neg hw]
    refine congrArg some (?_ : _ = _)
    omega
  | am12 =>
    replace hsn : sn = (s.ibufByte 0).toNat % 16 * 256 + (s.ibufByte 1).toNat := hsn rfl
    rw [startLen] at hj
    obtain rfl : j = 1 := by omega
    refine congrArg some (?_ : _ = _)
    omega
  | am18 =>
    replace hsn : sn = (s.ibufByte 0).toNat % 4 * 65536 + (s.ibufByte 1).toNat * 256 + (s.ibufByte 2).toNat := hsn rfl
    rw [startLen] at hj
    obtain rfl | rfl : j = 1 ∨ j = 2 := by omega
    all_goals
      refine congrArg some (?_ : _ = _)
      omega

/-- The byte formulas of the fields read from a header give the whole header, reserved bits 0. -/
theorem headerFormula_of_read (hsi : headerSi f (s.ibufByte 0) = si)
    (hdata : f.isAm = true → 128 ≤ (s.ibufByte 0).toNat) {j : Nat} (hj : j < hdrLen f si) :
    (headerFormula f si (yesNo (headerPoll f (s.ibufByte 0)))
      (headerSn f si (s.ibufByte 0) (s.ibufByte 1) (s.ibufByte 2)).toNat (headerSo s f si).toNat)[j]? =
      some (s.ibufByte j &&& headerMask f si j).toNat := by
  obtain rfl | hpos := Nat.eq_zero_or_pos j
  · exact headerFormula_byte0 _ _ hsi hdata _
  rw [and_headerMask_of_pos _ _ _ hpos]
  by_cases hstart : j < startLen f si
  · exact headerFormula_later_byte _ _ hpos hstart
  have hlen := hdrLen_eq f si
  cases hc : carriesSo si
  · rw [hc, if_neg Bool.false_ne_true] at hlen
    omega
  rw [hc, if_pos rfl] at hlen
  have hlo := (s.ibufByte (hdrLen f si - 1)).isLt
  obtain ⟨hhi, hlow⟩ := headerFormula_so f (yesNo (headerPoll f (s.ibufByte 0)))
    (headerSn f si (s.ibufByte 0) (s.ibufByte 1) (s.ibufByte 2)).toNat (headerSo s f si).toNat hc
  rw [headerSo_toNat, if_pos hc] at hhi hlow ⊢
  obtain rfl | rfl : j = hdrLen f si - 2 ∨ j = hdrLen f si - 1 := by omega
  · rw [hhi, Option.some_inj]
    omega
  · rw [hlow, Option.some_inj]
    omega

end Reencode

/-- Settles O38: the fields are in the encoder's range, and their formulas give the header's bytes back. -/
theorem dataHeaderReencodes : Obligations.DataHeaderReencodes := by
  intro s t u si mode k f hk hdec hok hr0 hparams ha0 ha1
  have hf := dataFormat_of_mem hk
  obtain ⟨e, he, rfl⟩ | ⟨f', si', hf', hsi', -, hbit, -, rfl⟩ := execDecData_cases hdec
  · exact absurd hok he
  obtain rfl : f = f' := Option.some_inj.1 (hf.symm.trans hf')
  obtain rfl : si' = si := siNumber_injective ((code_setWidth_toNat si').symm.trans hr0)
  have hdata : f.isAm = true → 128 ≤ (s.ibufByte 0).toNat := fun ham => by
    simpa only [Byte.getLsbD_seven, decide_eq_true_eq] using hbit ham
  have hpoll : decide (result (yesNo (headerPoll f (s.ibufByte 0))) = 1) = headerPoll f (s.ibufByte 0) := by
    cases headerPoll f (s.ibufByte 0) <;> rfl
  have h0 : u.a0.toNat < 2 ^ f.snBits := by rw [ha0]; exact headerSn_lt ..
  have h1 : u.a1.toNat < 2 ^ 16 := by rw [ha1]; exact headerSo_lt ..
  have hum : ¬(mode = .um ∧ headerPoll f (s.ibufByte 0) = true) := by
    rintro ⟨hmode, hp⟩
    simp [headerPoll, (isAm_eq_false_iff hf).2 hmode] at hp
  simp only [hpoll]
  refine ⟨_, execEncData_of_fits hf h0 h1 hum (hdrLen_le_obufBytes hparams f si'), rfl, rfl, fun j hj => ?_⟩
  replace hj : j < hdrLen f si' := by rwa [← result_hdrLen_toNat]
  refine BitVec.eq_of_toNat_eq (obufByte_header_toNat h0 h1 ?_)
  rw [ha0, ha1]
  exact headerFormula_of_read hsi'.symm hdata hj

end Sys2Proof.Machine

/-! ### What the decoders read of `IBUF` (42_data_pdu_codec.md R152 (g), 43_status_pdu_codec.md R184) -/

namespace Sys2Proof.Machine

/-- The state with other contents in `IBUF`. -/
def State.withIbuf (s : State) (m : Memory Byte) : State := { s with ibuf := m }

@[simp] theorem State.withIbuf_a0 (s : State) (m : Memory Byte) : (s.withIbuf m).a0 = s.a0 := rfl
@[simp] theorem State.withIbuf_params (s : State) (m : Memory Byte) : (s.withIbuf m).params = s.params := rfl

section ReadsOnlyThePdu

variable {s : State} {m : Memory Byte} {pduLen : Nat}
  (hpdu : ∀ j, j < pduLen → (s.withIbuf m).ibufByte j = s.ibufByte j)
include hpdu

/-! #### Data-PDU headers -/

theorem headerSn_withIbuf (f : DataFormat) (si : SegInfo) (hlen : hdrLen f si ≤ pduLen) :
    headerSn f si ((s.withIbuf m).ibufByte 0) ((s.withIbuf m).ibufByte 1) ((s.withIbuf m).ibufByte 2) =
      headerSn f si (s.ibufByte 0) (s.ibufByte 1) (s.ibufByte 2) := by
  have hstart : startLen f si ≤ pduLen := (startLen_le_hdrLen f si).trans hlen
  refine ite_congr rfl (fun hc => ?_) fun _ => rfl
  cases f with
  | um6 => simp only [hpdu 0 hstart]
  | um12 =>
    have hw := (carriesSn_um_iff rfl si).1 hc
    replace hstart : 2 ≤ pduLen := by simpa only [startLen, if_neg hw] using hstart
    simp only [hpdu 0 (by omega), hpdu 1 (by omega)]
  | am12 =>
    replace hstart : 2 ≤ pduLen := hstart
    simp only [hpdu 0 (by omega), hpdu 1 (by omega)]
  | am18 =>
    replace hstart : 3 ≤ pduLen := hstart
    simp only [hpdu 0 (by omega), hpdu 1 (by omega), hpdu 2 (by omega)]

theorem headerSo_withIbuf (f : DataFormat) (si : SegInfo) (hlen : hdrLen f si ≤ pduLen) :
    headerSo (s.withIbuf m) f si = headerSo s f si := by
  have hpos := (hdrLen_bounds f si).1
  simp only [headerSo, hpdu (hdrLen f si - 2) (by omega), hpdu (hdrLen f si - 1) (by omega)]

/-! #### Status PDUs -/

theorem entryHead_withIbuf (f : StatusFormat) {pos : Nat} (hlen : pos + f.base ≤ pduLen) :
    entryHead (s.withIbuf m) f pos = entryHead s f pos := by
  cases f with
  | sn12 =>
    replace hlen : pos + 2 ≤ pduLen := hlen
    simp only [entryHead, hpdu pos (by omega), hpdu (pos + 1) (by omega)]
  | sn18 =>
    replace hlen : pos + 3 ≤ pduLen := hlen
    simp only [entryHead, hpdu pos (by omega), hpdu (pos + 1) (by omega), hpdu (pos + 2) (by omega)]

theorem readEntry_withIbuf (f : StatusFormat) (pos : Nat) :
    readEntry (s.withIbuf m) f pduLen pos = readEntry s f pduLen pos := by
  refine ite_congr rfl (fun _ => rfl) fun hbase => ?_
  rw [entryHead_withIbuf hpdu f (not_lt.1 hbase)]
  obtain ⟨nsn, e1, e2, e3⟩ := entryHead s f pos
  refine ite_congr rfl (fun _ => rfl) fun hso => ite_congr rfl (fun _ => rfl) fun hrange => ?_
  have hsize : e2 = true → pos + f.base + 4 ≤ pduLen := fun he => by simpa [he, yesNo] using hso
  have hoff : ∀ i, i < 4 → e2 = true →
      (s.withIbuf m).ibufByte (pos + f.base + i) = s.ibufByte (pos + f.base + i) := fun i hi he =>
    hpdu _ (by have := hsize he; omega)
  have hlast : e3 = true → (s.withIbuf m).ibufByte (pos + f.base + 4 * yesNo e2) =
      s.ibufByte (pos + f.base + 4 * yesNo e2) := fun he =>
    hpdu _ (by simpa [he, yesNo] using hrange)
  refine congrArg Except.ok (Prod.ext ?_ rfl)
  simp only [NackEntry.mk.injEq, true_and]
  exact ⟨ite_congr rfl (fun he => congrArg₂ be16 (hoff 0 (by decide) he) (hoff 1 (by decide) he)) fun _ => rfl,
    ite_congr rfl (fun he => congrArg₂ be16 (hoff 2 (by decide) he) (hoff 3 (by decide) he)) fun _ => rfl,
    ite_congr rfl hlast fun _ => rfl⟩

theorem readEntries_withIbuf (f : StatusFormat) (room pos : Nat) (e1 : Bool) :
    readEntries (s.withIbuf m) f pduLen room pos e1 = readEntries s f pduLen room pos e1 := by
  induction room generalizing pos e1 with
  | zero => cases e1 <;> rfl
  | succ room ih =>
    cases e1 with
    | false => rfl
    | true => simp only [readEntries, ih, readEntry_withIbuf hpdu]

end ReadsOnlyThePdu

/-! #### The two decoders -/

section Decoders

variable {s : State} {m : Memory Byte} (hpdu : ∀ j, j < s.a0.toNat → (s.withIbuf m).ibufByte j = s.ibufByte j)
include hpdu

theorem execDecData_withIbuf (mode : Mode) (k : KSel) :
    execDecData mode k (s.withIbuf m) = mapNext (·.withIbuf m) (execDecData mode k s) := by
  simp only [execDecData]
  cases dataFormat mode k with
  | none => rfl
  | some f =>
    simp only [mapNext_ite]
    refine ite_congr rfl (fun _ => rfl) fun _ => ite_congr rfl (fun _ => rfl) fun hne => ?_
    have h0 := hpdu 0 (Nat.pos_of_ne_zero hne)
    simp only [h0]
    refine ite_congr rfl (fun _ => rfl) fun _ => ite_congr rfl (fun _ => rfl) fun hlen => ?_
    have hsn := headerSn_withIbuf hpdu f (headerSi f (s.ibufByte 0)) (not_lt.1 hlen)
    rw [h0] at hsn
    rw [hsn, headerSo_withIbuf hpdu _ _ (not_lt.1 hlen)]
    rfl

theorem execDecStatus_withIbuf (k : KSel) :
    execDecStatus k (s.withIbuf m) = mapNext (·.withIbuf m) (execDecStatus k s) := by
  simp only [execDecStatus]
  cases statusFormat k with
  | none => rfl
  | some f =>
    simp only [mapNext_ite]
    refine ite_congr rfl (fun _ => rfl) fun _ => ite_congr rfl (fun _ => rfl) fun hne => ?_
    simp only [hpdu 0 (Nat.pos_of_ne_zero hne)]
    refine ite_congr rfl (fun _ => rfl) fun _ => ite_congr rfl (fun _ => rfl) fun _ =>
      ite_congr rfl (fun _ => rfl) fun hlen => ?_
    have hfixed : 3 ≤ s.a0.toNat := not_lt.1 hlen
    have hloop := readEntries_withIbuf hpdu f s.params.nNack fixedPart (fixedE1 f (s.ibufByte 2))
    rw [hpdu 1 (by omega), hpdu 2 (by omega), State.withIbuf_a0, State.withIbuf_params, hloop]
    cases readEntries s f s.a0.toNat s.params.nNack fixedPart (fixedE1 f (s.ibufByte 2)) with
    | error e => rfl
    | ok r => rfl

end Decoders

/-- Settles O50: each decoder's tests and results agree on the two states, byte by byte of the PDU. -/
theorem decodersReadOnlyThePdu : Obligations.DecodersReadOnlyThePdu := by
  intro s t m i hi hpdu h
  have hmap : exec i (s.withIbuf m) = mapNext (·.withIbuf m) (exec i s) := by
    cases i with
    | decData mode k => exact execDecData_withIbuf hpdu mode k
    | decStatus k => exact execDecStatus_withIbuf hpdu k
    | _ => simp [Instr.opcode] at hi
  exact hmap.trans (congrArg (mapNext _) h)

end Sys2Proof.Machine

/-! ### The status-PDU codec (43_status_pdu_codec.md): the bytes of a PDU -/

namespace Sys2Proof.Machine

/-! #### The legal widths (30_encoding.md R77) -/

section Legal

variable {k : KSel} {f : StatusFormat} {bits base : Nat}

theorem statusFormat_of_mem (hk : (k, f) ∈ [(KSel.k12, StatusFormat.sn12), (KSel.k18, StatusFormat.sn18)]) :
    statusFormat k = some f := by
  obtain ⟨rfl, rfl⟩ | ⟨rfl, rfl⟩ := by simpa using hk
  all_goals rfl

theorem exists_statusFormat_of_mem (hk : k ∈ [KSel.k12, KSel.k18]) : ∃ f, statusFormat k = some f := by
  obtain rfl | rfl := by simpa using hk
  all_goals exact ⟨_, rfl⟩

theorem statusFormat_of_mem_bits
    (hk : (k, f, bits) ∈ [(KSel.k12, StatusFormat.sn12, 12), (KSel.k18, StatusFormat.sn18, 18)]) :
    statusFormat k = some f ∧ f.snBits = bits := by
  obtain ⟨rfl, rfl, rfl⟩ | ⟨rfl, rfl, rfl⟩ := by simpa using hk
  all_goals exact ⟨rfl, rfl⟩

theorem exists_statusFormat_of_mem_bits (hk : (k, bits) ∈ [(KSel.k12, 12), (KSel.k18, 18)]) :
    ∃ f, statusFormat k = some f ∧ f.snBits = bits := by
  obtain ⟨rfl, rfl⟩ | ⟨rfl, rfl⟩ := by simpa using hk
  all_goals exact ⟨_, rfl, rfl⟩

theorem exists_statusFormat_of_mem_base (hk : (k, base) ∈ [(KSel.k12, 2), (KSel.k18, 3)]) :
    ∃ f, statusFormat k = some f ∧ f.base = base := by
  obtain ⟨rfl, rfl⟩ | ⟨rfl, rfl⟩ := by simpa using hk
  all_goals exact ⟨_, rfl, rfl⟩

theorem statusFormat_of_mem_bits_base
    (hk : (k, f, bits, base) ∈ [(KSel.k12, StatusFormat.sn12, 12, 2), (KSel.k18, StatusFormat.sn18, 18, 3)]) :
    statusFormat k = some f ∧ f.snBits = bits ∧ f.base = base := by
  obtain ⟨rfl, rfl, rfl, rfl⟩ | ⟨rfl, rfl, rfl, rfl⟩ := by simpa using hk
  all_goals exact ⟨rfl, rfl, rfl⟩

end Legal

/-! #### The bytes the encoder builds, in numbers (43_status_pdu_codec.md R172, R173, R175) -/

section Numbers

variable (f : StatusFormat)

theorem fixedBytes_map_toNat {ack : Word} (e1 : Bool) (h : ack.toNat < 2 ^ f.snBits) :
    (fixedBytes f ack e1).map BitVec.toNat = fixedFormula f ack.toNat (yesNo e1) := by
  cases f <;> simp only [StatusFormat.snBits] at h <;>
    simp only [fixedBytes, fixedFormula, List.map, toNat_append_eq, toNat_extractLsb_eq, bit_toNat,
      BitVec.toNat_ofNat, List.cons.injEq, and_true] <;> omega

theorem entryBytes_map_toNat {t : NackEntry} (e1 : Bool) (h : t.nackSn.toNat < 2 ^ f.snBits) :
    (entryBytes f e1 t).map BitVec.toNat = entryFormula f (yesNo e1) t := by
  simp only [entryBytes, entryFormula, List.map_append, apply_ite (List.map BitVec.toNat), bytes16_map_toNat,
    List.map_nil, List.map_cons, List.cons_append, List.nil_append]
  congr 2
  cases f <;> simp only [StatusFormat.snBits] at h <;>
    simp only [entryStart, List.map, toNat_append_eq, toNat_extractLsb_eq, bit_toNat, BitVec.toNat_ofNat,
      List.cons.injEq, and_true] <;> omega

theorem entriesFormula_cons (t : NackEntry) (ts : List NackEntry) :
    entriesFormula f (t :: ts) = entryFormula f (yesNo !ts.isEmpty) t ++ entriesFormula f ts := by
  cases ts with
  | nil => exact (List.append_nil _).symm
  | cons u ts => rfl

theorem entriesBytes_map_toNat {ts : List NackEntry} (h : ∀ t ∈ ts, t.nackSn.toNat < 2 ^ f.snBits) :
    (entriesBytes f ts).map BitVec.toNat = entriesFormula f ts := by
  induction ts with
  | nil => rfl
  | cons t ts ih =>
    rw [List.forall_mem_cons] at h
    rw [entriesFormula_cons, entriesBytes, List.map_append, entryBytes_map_toNat f _ h.1, ih h.2]

theorem statusBytes_map_toNat {ack : Word} {ts : List NackEntry} (hack : ack.toNat < 2 ^ f.snBits)
    (hts : ∀ t ∈ ts, t.nackSn.toNat < 2 ^ f.snBits) :
    (statusBytes f ack ts).map BitVec.toNat =
      fixedFormula f ack.toNat (yesNo !ts.isEmpty) ++ entriesFormula f ts := by
  rw [statusBytes, List.map_append, fixedBytes_map_toNat f _ hack, entriesBytes_map_toNat f hts]

/-- Entries that each announce another one (43_status_pdu_codec.md R175). -/
theorem chainBytes_map_toNat {ts : List NackEntry} (h : ∀ t ∈ ts, t.nackSn.toNat < 2 ^ f.snBits) :
    (ts.flatMap (entryBytes f true)).map BitVec.toNat = chainFormula f ts := by
  induction ts with
  | nil => rfl
  | cons t ts ih =>
    rw [List.forall_mem_cons] at h
    rw [List.flatMap_cons, List.map_append, entryBytes_map_toNat f true h.1, ih h.2]
    rfl

end Numbers

/-! #### The bits that are not reserved (43_status_pdu_codec.md R172, R173) -/

/-- The mask of a PDU's fixed part. -/
def fixedMask : StatusFormat → List Byte
  | .sn12 => [0xFF#8, 0xFF#8, 0x80#8]
  | .sn18 => [0xFF#8, 0xFF#8, 0xFE#8]

/-- The mask of an entry's fixed part. -/
def startMask : StatusFormat → List Byte
  | .sn12 => [0xFF#8, 0xFE#8]
  | .sn18 => [0xFF#8, 0xFF#8, 0xF8#8]

theorem statusMask_eq (f : StatusFormat) (ts : List NackEntry) :
    statusMask f ts = fixedMask f ++ ts.flatMap (entryMask f) := by cases f <;> rfl

theorem entryMask_eq (f : StatusFormat) (t : NackEntry) :
    entryMask f t = startMask f ++ List.replicate (4 * yesNo t.e2 + yesNo t.e3) 0xFF#8 := by cases f <;> rfl

@[simp] theorem fixedMask_length (f : StatusFormat) : (fixedMask f).length = fixedPart := by cases f <;> rfl

@[simp] theorem startMask_length (f : StatusFormat) : (startMask f).length = f.base := by cases f <;> rfl

@[simp] theorem entryStart_length (f : StatusFormat) (e1 : Bool) (t : NackEntry) :
    (entryStart f e1 t).length = f.base := by cases f <;> rfl

theorem esize_eq (f : StatusFormat) (t : NackEntry) : esize f t = f.base + (4 * yesNo t.e2 + yesNo t.e3) :=
  Nat.add_assoc ..

@[simp] theorem entryMask_length (f : StatusFormat) (t : NackEntry) : (entryMask f t).length = esize f t := by
  simp [entryMask_eq, esize_eq]

theorem entriesMask_length (f : StatusFormat) (ts : List NackEntry) :
    (ts.flatMap (entryMask f)).length = entriesSize f ts := by
  induction ts with
  | nil => rfl
  | cons t ts ih => rw [List.flatMap_cons, List.length_append, ih, entryMask_length, entriesSize]

theorem statusMask_length (f : StatusFormat) (ts : List NackEntry) :
    (statusMask f ts).length = fixedPart + entriesSize f ts := by
  rw [statusMask_eq, List.length_append, fixedMask_length, entriesMask_length]

/-! #### `IBUF` under a mask -/

/-- The bytes of `IBUF` from `pos` with the bits outside the masks set to 0. -/
def State.ibufUnder (s : State) : Nat → List Byte → List Byte
  | _, [] => []
  | pos, m :: ms => (s.ibufByte pos &&& m) :: s.ibufUnder (pos + 1) ms

section Under

variable (s : State) (pos : Nat) (ms ns : List Byte)

@[simp] theorem State.ibufUnder_length : (s.ibufUnder pos ms).length = ms.length := by
  induction ms generalizing pos with
  | nil => rfl
  | cons m ms ih => exact congrArg (· + 1) (ih _)

theorem State.ibufUnder_append :
    s.ibufUnder pos (ms ++ ns) = s.ibufUnder pos ms ++ s.ibufUnder (pos + ms.length) ns := by
  induction ms generalizing pos with
  | nil => rfl
  | cons m ms ih =>
    simp only [List.cons_append, State.ibufUnder, ih, List.length_cons]
    congr 3
    omega

theorem State.ibufUnder_getElem? (j : Nat) :
    (s.ibufUnder pos ms)[j]? = ms[j]?.map (s.ibufByte (pos + j) &&& ·) := by
  induction ms generalizing pos j with
  | nil => rfl
  | cons m ms ih =>
    cases j with
    | zero => rfl
    | succ j => simp only [State.ibufUnder, List.getElem?_cons_succ, ih, Nat.add_right_comm, Nat.add_assoc]

variable {s pos ms ns}

theorem State.ibufUnder_append_eq {bs cs : List Byte} (h : bs.length = ms.length) :
    s.ibufUnder pos (ms ++ ns) = bs ++ cs ↔
      s.ibufUnder pos ms = bs ∧ s.ibufUnder (pos + ms.length) ns = cs := by
  rw [State.ibufUnder_append]
  exact ⟨fun heq => List.append_inj heq ((s.ibufUnder_length pos ms).trans h.symm),
    fun ⟨hl, hr⟩ => congrArg₂ _ hl hr⟩

/-- Numbers that `IBUF` holds in the bits of the masks are the bytes under the masks. -/
theorem State.ibufUnder_eq_of_holds {bs : List Byte} (h : s.ibufHolds (bs.map BitVec.toNat) ms)
    (hlen : bs.length = ms.length) : s.ibufUnder 0 ms = bs := by
  refine List.ext_getElem ((s.ibufUnder_length 0 ms).trans hlen.symm) fun j hj hj' => ?_
  have hm : ms[j]? = some ms[j] := List.getElem?_eq_getElem (hj'.trans_eq hlen)
  have hget := s.ibufUnder_getElem? 0 ms j
  rw [hm, List.getElem?_eq_getElem hj, Nat.zero_add] at hget
  rw [Option.some.inj hget]
  exact BitVec.eq_of_toNat_eq (h j _ _ (by simp [hj']) hm)

end Under

/-! #### What the decoder reads, in numbers -/

/-- What each mask of a status PDU keeps of a byte. -/
theorem Byte.and_statusMask_toNat (b : Byte) :
    (b &&& 0xFF#8).toNat = b.toNat ∧ (b &&& 0x80#8).toNat = b.toNat / 128 * 128 ∧
      (b &&& 0xFE#8).toNat = b.toNat / 2 * 2 ∧ (b &&& 0xF8#8).toNat = b.toNat / 8 * 8 := by
  revert b
  decide

theorem yesNo_inj {b c : Bool} : yesNo b = yesNo c ↔ b = c := by cases b <;> cases c <;> decide

/-- The ACK SN of a fixed part in numbers (43_status_pdu_codec.md R172, R173). -/
theorem fixedAck_toNat (f : StatusFormat) (b0 b1 b2 : Byte) :
    (fixedAck f b0 b1 b2).toNat = (match f with
      | .sn12 => b0.toNat % 16 * 256 + b1.toNat
      | .sn18 => b0.toNat % 16 * 16384 + b1.toNat * 64 + b2.toNat / 4) := by
  have h1 := b1.isLt
  have h2 := b2.isLt
  cases f <;> simp only [fixedAck, BitVec.toNat_setWidth, toNat_append_eq, toNat_extractLsb_eq] <;> omega

section Heads

variable {s : State} {f : StatusFormat} {pos : Nat}

/-- The SN of the entry at `pos` in numbers (43_status_pdu_codec.md R172, R173). -/
theorem entryHead_sn_toNat (s : State) (f : StatusFormat) (pos : Nat) :
    (entryHead s f pos).1.toNat = (match f with
      | .sn12 => (s.ibufByte pos).toNat * 16 + (s.ibufByte (pos + 1)).toNat / 16
      | .sn18 => (s.ibufByte pos).toNat * 1024 + (s.ibufByte (pos + 1)).toNat * 4 +
          (s.ibufByte (pos + 2)).toNat / 64) := by
  have h0 := (s.ibufByte pos).isLt
  have h1 := (s.ibufByte (pos + 1)).isLt
  have h2 := (s.ibufByte (pos + 2)).isLt
  cases f with
  | sn12 =>
    simp only [entryHead, BitVec.toNat_setWidth, toNat_append_eq, toNat_extractLsb_eq]
    omega
  | sn18 =>
    refine (toNat_append_eq (s.ibufByte pos ++ s.ibufByte (pos + 1)) _).trans ?_
    rw [toNat_append_eq, toNat_extractLsb_eq]
    dsimp only
    omega

/-- A fixed part under its mask is a control PDU's of type 0 whose fields are what the decoder reads. -/
theorem fixedBytes_eq_iff {ack : Word} {e1 : Bool} (hack : ack.toNat < 2 ^ f.snBits) :
    s.ibufUnder 0 (fixedMask f) = fixedBytes f ack e1 ↔
      (s.ibufByte 0).toNat < 16 ∧ fixedAck f (s.ibufByte 0) (s.ibufByte 1) (s.ibufByte 2) = ack ∧
        fixedE1 f (s.ibufByte 2) = e1 := by
  have h0 := (s.ibufByte 0).isLt
  have h1 := (s.ibufByte 1).isLt
  have h2 := (s.ibufByte 2).isLt
  have he1 := yesNo_le e1
  rw [← BitVec.toNat_inj, fixedAck_toNat]
  cases f <;> simp only [StatusFormat.snBits] at hack <;>
    simp only [fixedMask, fixedBytes, State.ibufUnder, List.cons.injEq, and_true, BitVec.toNat_eq,
      Byte.and_statusMask_toNat, toNat_append_eq, toNat_extractLsb_eq, bit_toNat, BitVec.toNat_ofNat,
      fixedE1, ← yesNo_inj, yesNo_getLsbD, Nat.zero_add, one_add_one_eq_two] <;>
    omega

/-- An entry's fixed part under its mask is that of the fields the decoder reads. -/
theorem entryStart_eq_iff {t : NackEntry} {e1 : Bool} :
    t.nackSn.toNat < 2 ^ f.snBits ∧ s.ibufUnder pos (startMask f) = entryStart f e1 t ↔
      entryHead s f pos = (t.nackSn, e1, t.e2, t.e3) := by
  have h0 := (s.ibufByte pos).isLt
  have h1 := (s.ibufByte (pos + 1)).isLt
  have h2 := (s.ibufByte (pos + 2)).isLt
  have he1 := yesNo_le e1
  have he2 := yesNo_le t.e2
  have he3 := yesNo_le t.e3
  have hsn := t.nackSn.isLt
  have hpos : pos + 1 + 1 = pos + 2 := rfl
  rw [Prod.ext_iff, ← BitVec.toNat_inj, entryHead_sn_toNat]
  cases f <;>
    simp only [StatusFormat.snBits, startMask, entryStart, State.ibufUnder, List.cons.injEq, and_true,
      BitVec.toNat_eq, Byte.and_statusMask_toNat, toNat_append_eq, toNat_extractLsb_eq, bit_toNat,
      BitVec.toNat_ofNat, entryHead, Prod.mk.injEq, ← yesNo_inj, yesNo_getLsbD, hpos] <;>
    omega

end Heads

/-! #### The entry at a position (43_status_pdu_codec.md R184) -/

theorem be16_eq_iff {b0 b1 : Byte} {v : BitVec 16} :
    be16 b0 b1 = v ↔ b0 = v.extractLsb 15 8 ∧ b1 = v.extractLsb 7 0 := by
  have h1 := b1.isLt
  have hv := v.isLt
  rw [← BitVec.toNat_inj, be16_toNat]
  simp only [BitVec.toNat_eq, toNat_extractLsb_eq]
  omega

theorem Byte.and_ff (b : Byte) : b &&& 0xFF#8 = b := BitVec.and_allOnes

/-- The entry whose fixed part was read before `pos`: a field it does not carry is 0 (43_status_pdu_codec.md R184). -/
def State.entryAt (s : State) (pos : Nat) (sn : BitVec 18) (e2 e3 : Bool) : NackEntry :=
  { nackSn := sn
    e2 := e2
    e3 := e3
    soStart := if e2 then be16 (s.ibufByte pos) (s.ibufByte (pos + 1)) else 0
    soEnd := if e2 then be16 (s.ibufByte (pos + 2)) (s.ibufByte (pos + 3)) else 0
    range := if e3 then s.ibufByte (pos + 4 * yesNo e2) else 0 }

section Entry

variable {s : State} {f : StatusFormat} {pduLen pos : Nat} {t : NackEntry} {e1 : Bool}

/-- The bytes behind the fixed part of an entry are its own exactly when they hold the fields it carries. -/
theorem entryPayload_eq_iff :
    s.ibufUnder pos (List.replicate (4 * yesNo t.e2 + yesNo t.e3) 0xFF#8) =
      (if t.e2 then bytes16 t.soStart ++ bytes16 t.soEnd else []) ++ (if t.e3 then [t.range] else []) ↔
    s.entryAt pos t.nackSn t.e2 t.e3 = t.carried := by
  obtain ⟨sn, e2, e3, ss, se, rg⟩ := t
  cases e2 <;> cases e3 <;>
    simp [State.ibufUnder, State.entryAt, NackEntry.carried, yesNo, Byte.and_ff, List.replicate, bytes16, be16_eq_iff,
      and_assoc, Nat.add_assoc]

/-- One pass of the loop on the fields of an entry's fixed part: a PDU that ends inside the entry is short. -/
theorem readEntry_of_entryHead (h : entryHead s f pos = (t.nackSn, e1, t.e2, t.e3)) :
    readEntry s f pduLen pos = if pduLen < pos + esize f t then .error .eShortPdu
      else .ok (s.entryAt (pos + f.base) t.nackSn t.e2 t.e3, e1, pos + esize f t) := by
  obtain ⟨sn, e2, e3, ss, se, rg⟩ := t
  have hsize : pos + esize f ⟨sn, e2, e3, ss, se, rg⟩ = pos + f.base + 4 * yesNo e2 + yesNo e3 := by
    simp only [esize]
    omega
  rw [hsize]
  simp only [readEntry, h]
  by_cases hshort : pduLen < pos + f.base + 4 * yesNo e2 + yesNo e3
  · rw [if_pos hshort, ite_eq_left_iff]
    intro hbase
    cases e2 <;> cases e3 <;> simp [yesNo] at hshort ⊢ <;> omega
  · have hlen := yesNo_le e2
    rw [if_neg hshort, if_neg (by omega), if_neg (by simp; omega), if_neg (by simp; omega)]
    rfl

/-- Under its mask an entry has the bytes of the fields the decoder reads. -/
theorem entryBytes_eq_iff :
    t.nackSn.toNat < 2 ^ f.snBits ∧ s.ibufUnder pos (entryMask f t) = entryBytes f e1 t ↔
      entryHead s f pos = (t.nackSn, e1, t.e2, t.e3) ∧
        s.entryAt (pos + f.base) t.nackSn t.e2 t.e3 = t.carried := by
  rw [entryMask_eq, entryBytes, List.append_assoc, State.ibufUnder_append_eq (by simp), startMask_length,
    entryPayload_eq_iff, ← and_assoc, entryStart_eq_iff]

/-- One pass of the loop on the bytes of an entry. -/
theorem readEntry_of_bytes (hsn : t.nackSn.toNat < 2 ^ f.snBits)
    (h : s.ibufUnder pos (entryMask f t) = entryBytes f e1 t) :
    readEntry s f pduLen pos = if pduLen < pos + esize f t then .error .eShortPdu
      else .ok (t.carried, e1, pos + esize f t) := by
  obtain ⟨hhead, hpayload⟩ := entryBytes_eq_iff.1 ⟨hsn, h⟩
  rw [readEntry_of_entryHead hhead, hpayload]

theorem State.entryAt_carried (s : State) (pos : Nat) (sn : BitVec 18) (e2 e3 : Bool) :
    (s.entryAt pos sn e2 e3).carried = s.entryAt pos sn e2 e3 := by cases e2 <;> cases e3 <;> rfl

/-- An entry that was read has its bytes there. -/
theorem bytes_of_readEntry {next : Nat} (h : readEntry s f pduLen pos = .ok (t, e1, next)) :
    t.nackSn.toNat < 2 ^ f.snBits ∧ s.ibufUnder pos (entryMask f t) = entryBytes f e1 t := by
  obtain ⟨⟨sn, e1', e2, e3⟩, hhead⟩ : ∃ x, entryHead s f pos = x := ⟨_, rfl⟩
  have hread := readEntry_of_entryHead (t := s.entryAt (pos + f.base) sn e2 e3) (pduLen := pduLen) hhead
  rw [h] at hread
  split at hread
  · cases hread
  · simp only [Except.ok.injEq, Prod.mk.injEq] at hread
    obtain ⟨rfl, rfl, -⟩ := hread
    exact entryBytes_eq_iff.2 ⟨hhead, (s.entryAt_carried ..).symm⟩

end Entry

/-! #### The loop of the decoder (43_status_pdu_codec.md R184) -/

section Loop

variable {s : State} {f : StatusFormat} {pduLen : Nat}

/-- The loop reads back the entries whose bytes it meets. -/
theorem readEntries_of_bytes {ts : List NackEntry} {room pos : Nat} (hsn : ∀ t ∈ ts, t.nackSn.toNat < 2 ^ f.snBits)
    (hroom : ts.length ≤ room) (h : s.ibufUnder pos (ts.flatMap (entryMask f)) = entriesBytes f ts)
    (hlen : pos + entriesSize f ts ≤ pduLen) :
    readEntries s f pduLen room pos (!ts.isEmpty) = .ok (ts.map NackEntry.carried, pos + entriesSize f ts) := by
  induction ts generalizing room pos with
  | nil => cases room <;> rfl
  | cons t ts ih =>
    obtain ⟨room, rfl⟩ := Nat.exists_eq_add_of_le' hroom
    rw [List.forall_mem_cons] at hsn
    rw [List.flatMap_cons, entriesBytes, State.ibufUnder_append_eq (by simp [entryBytes_length]),
      entryMask_length] at h
    rw [entriesSize, ← Nat.add_assoc] at hlen ⊢
    have hrest := ih (room := ts.length + room) hsn.2 (Nat.le_add_right _ _) h.2 hlen
    have hfits : ¬pduLen < pos + esize f t := by omega
    simp only [List.length_cons, Nat.add_comm room, Nat.add_right_comm _ 1, List.isEmpty_cons, Bool.not_false,
      readEntries, readEntry_of_bytes hsn.1 h.1, if_neg hfits, hrest, List.map_cons]

theorem readEntries_of_readEntry_error {room pos : Nat} {e : Status} (h : readEntry s f pduLen pos = .error e) :
    readEntries s f pduLen (room + 1) pos true = .error e := by rw [readEntries, h]

/-- After entries that each announce another one the loop fails as it does behind them. -/
theorem readEntries_of_chain {ts : List NackEntry} {room pos : Nat} {e : Status}
    (hsn : ∀ t ∈ ts, t.nackSn.toNat < 2 ^ f.snBits)
    (h : s.ibufUnder pos (ts.flatMap (entryMask f)) = ts.flatMap (entryBytes f true))
    (hlen : pos + entriesSize f ts ≤ pduLen)
    (herr : readEntries s f pduLen room (pos + entriesSize f ts) true = .error e) :
    readEntries s f pduLen (ts.length + room) pos true = .error e := by
  induction ts generalizing pos with
  | nil => simpa [entriesSize] using herr
  | cons t ts ih =>
    rw [List.forall_mem_cons] at hsn
    rw [List.flatMap_cons, List.flatMap_cons, State.ibufUnder_append_eq (by simp [entryBytes_length]),
      entryMask_length] at h
    rw [entriesSize, ← Nat.add_assoc] at hlen herr
    have hfits : ¬pduLen < pos + esize f t := by omega
    simp only [List.length_cons, Nat.add_right_comm _ 1, readEntries, readEntry_of_bytes hsn.1 h.1, if_neg hfits,
      ih hsn.2 h.2 hlen herr]

/-- Entries that were read have their bytes there. -/
theorem bytes_of_readEntries {ts : List NackEntry} {room pos last : Nat} {e1 : Bool}
    (h : readEntries s f pduLen room pos e1 = .ok (ts, last)) :
    (∀ t ∈ ts, t.nackSn.toNat < 2 ^ f.snBits) ∧ e1 = !ts.isEmpty ∧
      s.ibufUnder pos (ts.flatMap (entryMask f)) = entriesBytes f ts := by
  induction room generalizing pos e1 ts with
  | zero =>
    cases e1 <;> simp only [readEntries, Except.ok.injEq, Prod.mk.injEq, reduceCtorEq] at h
    obtain ⟨rfl, -⟩ := h
    exact ⟨by simp, rfl, rfl⟩
  | succ room ih =>
    cases e1 with
    | false =>
      simp only [readEntries, Except.ok.injEq, Prod.mk.injEq] at h
      obtain ⟨rfl, -⟩ := h
      exact ⟨by simp, rfl, rfl⟩
    | true =>
      simp only [readEntries] at h
      split at h
      · cases h
      rename_i t e1' next hread
      split at h
      · cases h
      rename_i ts' last' hrest
      simp only [Except.ok.injEq, Prod.mk.injEq] at h
      obtain ⟨rfl, rfl⟩ := h
      obtain ⟨hts, rfl, hbytes⟩ := ih hrest
      obtain ⟨hsn, hentry⟩ := bytes_of_readEntry hread
      refine ⟨List.forall_mem_cons.2 ⟨hsn, hts⟩, rfl, ?_⟩
      rw [List.flatMap_cons, entriesBytes, State.ibufUnder_append_eq (by simp [entryBytes_length]),
        entryMask_length, ← (readEntry_ok hread).1]
      exact ⟨hentry, hbytes⟩

end Loop

/-! #### DEC_STATUS -/

theorem Byte.extractLsb_six_four_eq_zero_iff (b : Byte) : b.extractLsb 6 4 = 0b000#3 ↔ b.toNat / 16 % 8 = 0 := by
  rw [← BitVec.toNat_inj, toNat_extractLsb_eq]
  rfl

/-- What `DEC_STATUS` leaves when it reads these entries from a PDU that ends before `pos`. -/
def State.withDecoded (s : State) (ack : Word) (ts : List NackEntry) (pos : Nat) : State :=
  { s.writeNtab ts with status := .ok, r0 := ack, r1 := result ts.length, r2 := result pos }

/-- How `DEC_STATUS` ends after its loop. -/
def State.afterLoop (s : State) (ack : Word) : Except Status (List NackEntry × Nat) → Out
  | .error e => .next { s with status := e }
  | .ok (ts, pos) => .next (s.withDecoded ack ts pos)

section Decoder

variable {s : State} {k : KSel} {f : StatusFormat} (hf : statusFormat k = some f)
include hf

/-- `DEC_STATUS` at a legal width: its tests in numbers, then the loop (43_status_pdu_codec.md R184). -/
theorem execDecStatus_eq :
    execDecStatus k s =
      if s.params.ibufBytes < s.a0.toNat then .next { s with status := .eBufRange }
      else if s.a0.toNat = 0 then .next { s with status := .eShortPdu }
      else if 128 ≤ (s.ibufByte 0).toNat then .next { s with status := .eNotStatus }
      else if 16 ≤ (s.ibufByte 0).toNat then .next { s with status := .eBadCpt }
      else if s.a0.toNat < 3 then .next { s with status := .eShortPdu }
      else s.afterLoop (fixedAck f (s.ibufByte 0) (s.ibufByte 1) (s.ibufByte 2))
        (readEntries s f s.a0.toNat s.params.nNack 3 (fixedE1 f (s.ibufByte 2))) := by
  simp only [execDecStatus, hf, Byte.getLsbD_seven, decide_eq_true_eq, ne_eq, Byte.extractLsb_six_four_eq_zero_iff]
  refine ite_congr rfl (fun _ => rfl) fun _ => ite_congr rfl (fun _ => rfl) fun _ => ite_congr rfl (fun _ => rfl)
    fun _ => ite_congr (propext (by omega)) (fun _ => rfl) fun _ => ite_congr rfl (fun _ => rfl) fun _ => ?_
  rw [fixedPart]
  cases readEntries s f s.a0.toNat s.params.nNack 3 (fixedE1 f (s.ibufByte 2)) <;> rfl

/-- On a control PDU of type 0 the loop decides. -/
theorem execDecStatus_of_control (hbuf : s.a0.toNat ≤ s.params.ibufBytes) (hlen : 3 ≤ s.a0.toNat)
    (hctl : (s.ibufByte 0).toNat < 16) {r : Except Status (List NackEntry × Nat)}
    (h : readEntries s f s.a0.toNat s.params.nNack 3 (fixedE1 f (s.ibufByte 2)) = r) :
    execDecStatus k s = s.afterLoop (fixedAck f (s.ibufByte 0) (s.ibufByte 1) (s.ibufByte 2)) r := by
  rw [execDecStatus_eq hf, if_neg hbuf.not_gt, if_neg (by omega), if_neg (by omega), if_neg hctl.not_ge,
    if_neg hlen.not_gt, h]

variable {ack : Word} {ts : List NackEntry}

/-- The decoder reads back the status PDU that `IBUF` starts with. -/
theorem execDecStatus_of_bytes (hack : ack.toNat < 2 ^ f.snBits) (hsn : ∀ t ∈ ts, t.nackSn.toNat < 2 ^ f.snBits)
    (hroom : ts.length ≤ s.params.nNack) (h : s.ibufUnder 0 (statusMask f ts) = statusBytes f ack ts)
    (hlen : 3 + entriesSize f ts ≤ s.a0.toNat) (hbuf : s.a0.toNat ≤ s.params.ibufBytes) :
    execDecStatus k s = .next (s.withDecoded ack (ts.map NackEntry.carried) (3 + entriesSize f ts)) := by
  rw [statusMask_eq, statusBytes, State.ibufUnder_append_eq (by simp [fixedBytes_length]),
    fixedBytes_eq_iff hack] at h
  obtain ⟨⟨hctl, hread, he1⟩, hentries⟩ := h
  rw [fixedMask_length, Nat.zero_add] at hentries
  have hloop := readEntries_of_bytes hsn hroom hentries hlen
  rw [← he1] at hloop
  rw [execDecStatus_of_control hf hbuf (by omega) hctl hloop, hread]
  rfl

/-- The decoder fails on entries that each announce another one as its loop does behind them. -/
theorem execDecStatus_of_chain {e : Status} (hack : ack.toNat < 2 ^ f.snBits)
    (hsn : ∀ t ∈ ts, t.nackSn.toNat < 2 ^ f.snBits)
    (h : s.ibufUnder 0 (statusMask f ts) = fixedBytes f ack true ++ ts.flatMap (entryBytes f true))
    (hlen : 3 + entriesSize f ts ≤ s.a0.toNat) (hbuf : s.a0.toNat ≤ s.params.ibufBytes) {room : Nat}
    (hroom : ts.length + room = s.params.nNack)
    (herr : readEntries s f s.a0.toNat room (3 + entriesSize f ts) true = .error e) :
    execDecStatus k s = .next { s with status := e } := by
  rw [statusMask_eq, State.ibufUnder_append_eq (by simp [fixedBytes_length]), fixedBytes_eq_iff hack] at h
  obtain ⟨⟨hctl, hread, he1⟩, hentries⟩ := h
  rw [fixedMask_length, Nat.zero_add] at hentries
  have hloop := readEntries_of_chain hsn hentries hlen herr
  rw [← he1, hroom] at hloop
  exact execDecStatus_of_control hf hbuf (by omega) hctl hloop

end Decoder

section Decoded

variable (s : State) (ack : Word) (ts : List NackEntry) (pos : Nat)

theorem ntabEntry_withDecoded_of_lt {i : Nat} {e : NackEntry} (h : ts[i]? = some e) :
    (s.withDecoded ack ts pos).ntabEntry i = e := by
  obtain ⟨hi, rfl⟩ := List.getElem?_eq_some_iff.1 h
  exact (State.ntabEntry_writeNtab s ts i).trans (dif_pos hi)

theorem ntabEntry_withDecoded_of_ge {i : Nat} (h : ts.length ≤ i) :
    (s.withDecoded ack ts pos).ntabEntry i = s.ntabEntry i :=
  (State.ntabEntry_writeNtab s ts i).trans (dif_neg h.not_gt)

theorem length_le_entriesSize (f : StatusFormat) : ts.length ≤ entriesSize f ts := by
  induction ts with
  | nil => exact Nat.le_refl _
  | cons t ts ih =>
    have hsize := (esize_bounds f t).1
    rw [entriesSize, List.length_cons]
    omega

end Decoded

theorem statusMask_concat (f : StatusFormat) (ts : List NackEntry) (t : NackEntry) :
    statusMask f (ts ++ [t]) = statusMask f ts ++ entryMask f t := by
  rw [statusMask_eq, statusMask_eq, List.flatMap_append, List.flatMap_singleton, List.append_assoc]

theorem chainBytes_length (f : StatusFormat) (ts : List NackEntry) :
    (ts.flatMap (entryBytes f true)).length = entriesSize f ts := by
  induction ts with
  | nil => rfl
  | cons t ts ih => rw [List.flatMap_cons, List.length_append, ih, entryBytes_length, entriesSize]

/-- Settles O46: each clause fails one test and passes those before it. -/
theorem decStatusErrorsInOrder : Obligations.DecStatusErrorsInOrder := by
  intro s k hk
  obtain ⟨f, hf⟩ := exists_statusFormat_of_mem hk
  simp only [exec, execDecStatus_eq hf]
  refine ⟨fun hbuf => if_pos hbuf, fun hbuf hzero => ?_, fun hbuf hne hdata => ?_, fun hbuf hne hlow hhigh => ?_,
    fun hbuf hne hctl hshort => ?_⟩
  · rw [if_neg hbuf.not_gt, if_pos hzero]
  · rw [if_neg hbuf.not_gt, if_neg hne, if_pos hdata]
  · rw [if_neg hbuf.not_gt, if_neg hne, if_neg hhigh.not_ge, if_pos hlow]
  · rw [if_neg hbuf.not_gt, if_neg hne, if_neg (by omega), if_neg hctl.not_ge, if_pos hshort]

/-- Settles O47: the loop decides, and its entries end inside the PDU. -/
theorem decStatusDeliversWholeLists : Obligations.DecStatusDeliversWholeLists := by
  intro s k f hk hbuf hlen hctl
  have hf := statusFormat_of_mem hk
  refine ⟨fun e he => execDecStatus_of_control hf hbuf hlen hctl he, fun ts pos hread => ?_⟩
  obtain ⟨hroom, hpos, hend⟩ := readEntries_ok hread
  have hcount := length_le_entriesSize ts f
  have ha0 := s.a0.isLt
  replace hend := hend hlen
  exact ⟨_, execDecStatus_of_control hf hbuf hlen hctl hread, rfl, fixedAck_toNat .., result_toNat (by omega), hroom,
    result_toNat (by omega), hend, fun i e he => ntabEntry_withDecoded_of_lt s _ ts pos he,
    fun i hi => ntabEntry_withDecoded_of_ge s _ ts pos hi⟩

/-- An SN on the ring is the value of a register. -/
theorem exists_word_of_lt (f : StatusFormat) {sn : Nat} (h : sn < 2 ^ f.snBits) : ∃ w : Word, w.toNat = sn :=
  ⟨BitVec.ofNat 32 sn, Nat.mod_eq_of_lt (h.trans_le (by cases f <;> decide))⟩

theorem yesNo_not_isEmpty (ts : List NackEntry) : (yesNo !ts.isEmpty) = if ts = [] then 0 else 1 := by
  cases ts <;> rfl

theorem statusFormula_length (f : StatusFormat) {ack : Word} {ts : List NackEntry} {pdu : List Nat}
    (h : (statusBytes f ack ts).map BitVec.toNat = pdu) : pdu.length = 3 + entriesSize f ts := by
  rw [← h, List.length_map, statusBytes_length, fixedPart]

/-- Settles O48: the layout's numbers are the encoder's bytes, which the decoder reads back. -/
theorem decStatusReadsTheLayout : Obligations.DecStatusReadsTheLayout := by
  intro s k f bits ack ts pdu hk hack hsn hroom hpdu hholds hlen hbuf
  obtain ⟨hf, rfl⟩ := statusFormat_of_mem_bits hk
  obtain ⟨w, rfl⟩ := exists_word_of_lt f hack
  replace hpdu : (statusBytes f w ts).map BitVec.toNat = pdu := by
    rw [hpdu, statusBytes_map_toNat f hack hsn, yesNo_not_isEmpty]
  have hsize := statusFormula_length f hpdu
  rw [← hpdu] at hholds
  have hbytes := State.ibufUnder_eq_of_holds hholds (by rw [statusBytes_length, statusMask_length])
  have hcount := length_le_entriesSize ts f
  have ha0 := s.a0.isLt
  rw [hsize] at hlen ⊢
  refine ⟨_, execDecStatus_of_bytes hf hack hsn hroom hbytes hlen hbuf, rfl, rfl, ?_, result_toNat (by omega),
    fun i e he => ntabEntry_withDecoded_of_lt s _ _ _ (by rw [List.getElem?_map, he]; rfl),
    fun i hi => ntabEntry_withDecoded_of_ge s _ _ _ (by rwa [List.length_map])⟩
  rw [← ts.length_map (f := NackEntry.carried)] at hcount ⊢
  exact result_toNat (by omega)

/-- Settles O49: the loop reaches the place behind the entries and fails there. -/
theorem decStatusLoopErrors : Obligations.DecStatusLoopErrors := by
  intro s k f bits base ack ts pdu hk hack hsn hpdu hholds hlen hbuf
  obtain ⟨hf, rfl, rfl⟩ := statusFormat_of_mem_bits_base hk
  obtain ⟨w, rfl⟩ := exists_word_of_lt f hack
  replace hpdu : pdu = (fixedBytes f w true ++ ts.flatMap (entryBytes f true)).map BitVec.toNat := by
    rw [hpdu, List.map_append, fixedBytes_map_toNat f true hack, chainBytes_map_toNat f hsn]
    rfl
  have hlength : (fixedBytes f w true ++ ts.flatMap (entryBytes f true)).length = (statusMask f ts).length := by
    rw [List.length_append, fixedBytes_length, chainBytes_length, statusMask_length]
  have hsize : pdu.length = 3 + entriesSize f ts := by
    rw [hpdu, List.length_map, hlength, statusMask_length, fixedPart]
  subst hpdu
  have hbytes := State.ibufUnder_eq_of_holds hholds hlength
  rw [hsize] at hlen ⊢
  have hfail {e : Status} {room : Nat} := execDecStatus_of_chain (e := e) (room := room) hf hack hsn hbytes hlen hbuf
  refine ⟨fun hfull => hfail (room := 0) hfull rfl, fun hroom hshort => ?_, fun e1 e hroom he1 hesn hnext hshort => ?_⟩
  · obtain ⟨room, hroom⟩ := Nat.exists_eq_add_of_lt hroom
    exact hfail hroom.symm (readEntries_of_readEntry_error (if_pos hshort))
  · obtain ⟨room, hroom⟩ := Nat.exists_eq_add_of_lt hroom
    obtain ⟨b, rfl⟩ : ∃ b, yesNo b = e1 := ⟨decide (e1 = 1), by interval_cases e1 <;> rfl⟩
    rw [← entryBytes_map_toNat f b hesn] at hnext hshort
    rw [List.length_map, entryBytes_length] at hshort
    rw [← List.map_append, statusMask_concat] at hnext
    have hentry := State.ibufUnder_eq_of_holds hnext (by
      rw [List.length_append, hlength, entryBytes_length, List.length_append, entryMask_length])
    rw [State.ibufUnder_append_eq hlength, statusMask_length, Nat.zero_add] at hentry
    refine hfail hroom.symm (readEntries_of_readEntry_error ?_)
    exact (readEntry_of_bytes hesn hentry.2).trans (if_pos hshort)

/-! #### ENC_STATUS -/

theorem State.ntabFrom_zero_eq_map (s : State) (n : Nat) : s.ntabFrom 0 n = (List.range n).map s.ntabEntry := by
  refine List.ext_getElem? fun j => ?_
  by_cases hj : j < n
  · rw [State.ntabFrom_getElem? s 0 n j hj]
    simp [hj]
  · simp [hj]

theorem State.take_ntabFrom (s : State) {m n : Nat} (h : m ≤ n) : (s.ntabFrom 0 n).take m = s.ntabFrom 0 m := by
  rw [s.ntabFrom_zero_eq_map, s.ntabFrom_zero_eq_map, ← List.map_take, List.take_range, min_eq_left h]

theorem State.drop_ntabFrom (s : State) {m n : Nat} (h : m < n) :
    (s.ntabFrom 0 n).drop m = s.ntabEntry m :: (s.ntabFrom 0 n).drop (m + 1) := by
  rw [List.drop_eq_getElem_cons (h.trans_eq (s.ntabFrom_length 0 n).symm)]
  simp [s.ntabFrom_zero_eq_map]

theorem State.ntabFrom_succ (s : State) (n : Nat) : s.ntabFrom 0 (n + 1) = s.ntabFrom 0 n ++ [s.ntabEntry n] := by
  simp [s.ntabFrom_zero_eq_map, List.range_succ]

theorem State.forall_mem_ntabFrom {s : State} {n : Nat} {P : NackEntry → Prop} :
    (∀ t ∈ s.ntabFrom 0 n, P t) ↔ ∀ i, i < n → P (s.ntabEntry i) := by
  simp [s.ntabFrom_zero_eq_map]

theorem entriesSize_append (f : StatusFormat) (ts us : List NackEntry) :
    entriesSize f (ts ++ us) = entriesSize f ts + entriesSize f us := by
  induction ts with
  | nil => exact (Nat.zero_add _).symm
  | cons t ts ih => rw [List.cons_append, entriesSize, ih, entriesSize, Nat.add_assoc]

theorem entriesSize_ntabFrom (f : StatusFormat) (s : State) (n : Nat) :
    entriesSize f (s.ntabFrom 0 n) = ((List.range n).map fun j => esize f (s.ntabEntry j)).sum := by
  induction n with
  | zero => rfl
  | succ n ih =>
    rw [s.ntabFrom_succ, entriesSize_append, ih, List.range_succ, List.map_append, List.sum_append]
    rfl

theorem entriesSize_ntabFrom_mono (f : StatusFormat) (s : State) {m n : Nat} (h : m ≤ n) :
    entriesSize f (s.ntabFrom 0 m) ≤ entriesSize f (s.ntabFrom 0 n) := by
  obtain ⟨d, rfl⟩ := Nat.exists_eq_add_of_le h
  induction d with
  | zero => exact Nat.le_refl _
  | succ d ih =>
    refine (ih (Nat.le_add_right m d)).trans ?_
    rw [← Nat.add_assoc, s.ntabFrom_succ, entriesSize_append]
    exact Nat.le_add_right _ _

/-- The entries `ENC_STATUS` emits (43_status_pdu_codec.md R179). -/
def State.emitted (s : State) (f : StatusFormat) : List NackEntry :=
  takeFitting f s.a2.toNat fixedPart (s.ntabFrom 0 s.a1.toNat)

/-- The ACK SN it writes (43_status_pdu_codec.md R180). -/
def State.ackWritten (s : State) (f : StatusFormat) : Word :=
  ackOut s.a0 ((s.ntabFrom 0 s.a1.toNat).drop (s.emitted f).length)

/-- Operands `ENC_STATUS` accepts (43_status_pdu_codec.md R178, R181, R182), and a PDU that `OBUF` has room for. -/
structure State.CanEncode (s : State) (f : StatusFormat) : Prop where
  ack : s.a0.toNat < 2 ^ f.snBits
  count : s.a1.toNat ≤ s.params.nNack
  entries : ∀ i, i < s.a1.toNat → (s.ntabEntry i).nackSn.toNat < 2 ^ f.snBits ∧
    ¬((s.ntabEntry i).e3 = true ∧ (s.ntabEntry i).range = 0)
  budget : 3 ≤ s.a2.toNat
  room : 3 + entriesSize f (s.emitted f) ≤ s.params.obufBytes

/-- What `ENC_STATUS` leaves when it accepts its operands. -/
def State.withEncoded (s : State) (f : StatusFormat) : State :=
  { s.writeObuf (statusBytes f (s.ackWritten f) (s.emitted f)) with
    status := .ok
    r0 := result (3 + entriesSize f (s.emitted f))
    r1 := result (s.emitted f).length
    r2 := s.ackWritten f
    r3 := result (yesNo (decide ((s.emitted f).length < s.a1.toNat))) }

theorem any_badEntry_iff (s : State) (f : StatusFormat) (n : Nat) :
    (s.ntabFrom 0 n).any (badEntry f) = true ↔ ∃ i, i < n ∧ (2 ^ f.snBits ≤ (s.ntabEntry i).nackSn.toNat ∨
      ((s.ntabEntry i).e3 = true ∧ (s.ntabEntry i).range = 0)) := by
  simp [s.ntabFrom_zero_eq_map, badEntry]

section Encoder

variable {s t : State} {k : KSel} {f : StatusFormat}

/-- `ENC_STATUS` at a legal width: its tests, then the PDU (43_status_pdu_codec.md R178). -/
theorem execEncStatus_eq (hf : statusFormat k = some f) :
    execEncStatus k s =
      if 2 ^ f.snBits ≤ s.a0.toNat ∨ s.params.nNack < s.a1.toNat then .next { s with status := .eBadArg }
      else if (s.ntabFrom 0 s.a1.toNat).any (badEntry f) then .next { s with status := .eBadArg }
      else if s.a2.toNat < 3 then .next { s with status := .eBudget }
      else if s.params.obufBytes < 3 + entriesSize f (s.emitted f) then .fault (.outsideSpace .obuf)
      else .next (s.withEncoded f) := by
  have hleft : (!((s.ntabFrom 0 s.a1.toNat).drop (s.emitted f).length).isEmpty) =
      decide ((s.emitted f).length < s.a1.toNat) := by
    rw [Bool.eq_iff_iff, Bool.not_eq_true', ← Bool.not_eq_true, List.isEmpty_iff, List.drop_eq_nil_iff, not_le,
      s.ntabFrom_length, decide_eq_true_eq]
  simp only [execEncStatus, hf, State.withEncoded, ← hleft]
  rfl

theorem execEncStatus_of_canEncode (hf : statusFormat k = some f) (h : s.CanEncode f) :
    execEncStatus k s = .next (s.withEncoded f) := by
  obtain ⟨hack, hcount, hentries, hbudget, hroom⟩ := h
  have hgood : ¬(s.ntabFrom 0 s.a1.toNat).any (badEntry f) = true := by
    rw [any_badEntry_iff]
    rintro ⟨i, hi, hbad⟩
    exact hbad.elim (hentries i hi).1.not_ge (hentries i hi).2
  rw [execEncStatus_eq hf, if_neg (by omega), if_neg hgood, if_neg hbudget.not_gt, if_neg hroom.not_gt]

/-- An `ENC_STATUS` that ends without an error has accepted its operands. -/
theorem execEncStatus_ok (h : execEncStatus k s = .next t) (hok : t.status = .ok) :
    ∃ f, statusFormat k = some f ∧ s.CanEncode f ∧ t = s.withEncoded f := by
  obtain ⟨e, he, rfl⟩ | ⟨f, _, _, hf, rfl, rfl, hack, hcount, hgood, hbudget, hroom, -⟩ := execEncStatus_cases h
  · exact absurd hok he
  have hs : s.CanEncode f := ⟨hack, hcount, fun i hi => by
    have hi' := (any_badEntry_iff s f s.a1.toNat).not.1 (by rw [hgood]; decide)
    simp only [not_exists, not_and, not_or, not_le] at hi'
    exact ⟨(hi' i hi).1, not_and.2 (hi' i hi).2⟩, hbudget, hroom⟩
  exact ⟨f, hf, hs, Host.Outcome.next.inj (h.symm.trans (execEncStatus_of_canEncode hf hs))⟩

theorem execEncStatus_ok_of_format (hf : statusFormat k = some f) (h : execEncStatus k s = .next t)
    (hok : t.status = .ok) : s.CanEncode f ∧ t = s.withEncoded f := by
  obtain ⟨f', hf', hs, rfl⟩ := execEncStatus_ok h hok
  obtain rfl : f = f' := Option.some_inj.1 (hf.symm.trans hf')
  exact ⟨hs, rfl⟩

theorem emitted_length_le (s : State) (f : StatusFormat) : (s.emitted f).length ≤ s.a1.toNat :=
  (takeFitting_length_le ..).trans_eq (s.ntabFrom_length 0 _)

theorem emitted_eq (s : State) (f : StatusFormat) : s.emitted f = s.ntabFrom 0 (s.emitted f).length :=
  (takeFitting_eq_take ..).trans (s.take_ntabFrom (emitted_length_le s f))

theorem entriesSize_emitted (s : State) (f : StatusFormat) :
    entriesSize f (s.emitted f) = entriesSize f (s.ntabFrom 0 (s.emitted f).length) :=
  congrArg (entriesSize f) (emitted_eq s f)

theorem emitted_fits (h : 3 ≤ s.a2.toNat) : 3 + entriesSize f (s.emitted f) ≤ s.a2.toNat := takeFitting_fits f _ h

/-- The budget rule (43_status_pdu_codec.md R179). -/
theorem lt_emitted_length_iff (hbudget : 3 ≤ s.a2.toNat) {i : Nat} (hi : i < s.a1.toNat) :
    i < (s.emitted f).length ↔ 3 + entriesSize f (s.ntabFrom 0 (i + 1)) ≤ s.a2.toNat := by
  have hsize := entriesSize_emitted s f
  constructor
  · intro hlt
    have hfits := emitted_fits (f := f) hbudget
    have hmono := entriesSize_ntabFrom_mono f s (m := i + 1) hlt
    omega
  · refine fun hle => not_le.1 fun hge => ?_
    have hstop : s.a2.toNat < 3 + entriesSize f (s.emitted f) + esize f (s.ntabEntry (s.emitted f).length) :=
      takeFitting_stops f _ (s.drop_ntabFrom (hge.trans_lt hi))
    have hmono := entriesSize_ntabFrom_mono f s (m := (s.emitted f).length + 1) (Nat.succ_le_succ hge)
    rw [Nat.succ_eq_add_one, s.ntabFrom_succ, entriesSize_append, ← hsize] at hmono
    simp only [entriesSize] at hmono
    omega

end Encoder

section Results

variable {s : State} {f : StatusFormat}

theorem ackWritten_eq (s : State) (f : StatusFormat) :
    s.ackWritten f = if (s.emitted f).length = s.a1.toNat then s.a0
      else (s.ntabEntry (s.emitted f).length).nackSn.setWidth 32 := by
  have hle := emitted_length_le s f
  rw [State.ackWritten]
  split
  · rw [List.drop_of_length_le (by rw [s.ntabFrom_length]; omega)]
    rfl
  · rw [s.drop_ntabFrom (by omega)]
    rfl

theorem ackWritten_toNat (s : State) (f : StatusFormat) :
    (s.ackWritten f).toNat = if (s.emitted f).length = s.a1.toNat then s.a0.toNat
      else (s.ntabEntry (s.emitted f).length).nackSn.toNat := by
  rw [ackWritten_eq, apply_ite BitVec.toNat, BitVec.toNat_setWidth_of_le (by decide)]

/-- The ACK SN and the entries of the PDU written are in their range. -/
theorem State.CanEncode.sn_lt (h : s.CanEncode f) :
    (s.ackWritten f).toNat < 2 ^ f.snBits ∧ ∀ t ∈ s.emitted f, t.nackSn.toNat < 2 ^ f.snBits := by
  have hle := emitted_length_le s f
  refine ⟨?_, fun t ht => ?_⟩
  · rw [ackWritten_toNat]
    split
    · exact h.ack
    · exact (h.entries _ (by omega)).1
  · rw [emitted_eq] at ht
    exact State.forall_mem_ntabFrom (P := fun t => t.nackSn.toNat < 2 ^ f.snBits).2
      (fun i hi => (h.entries i (hi.trans_le hle)).1) t ht

variable (s f)

theorem withEncoded_r0_toNat (h : 3 ≤ s.a2.toNat) :
    (s.withEncoded f).r0.toNat = 3 + entriesSize f (s.emitted f) :=
  result_toNat ((emitted_fits h).trans_lt s.a2.isLt)

theorem withEncoded_r1_toNat : (s.withEncoded f).r1.toNat = (s.emitted f).length :=
  result_toNat ((emitted_length_le s f).trans_lt s.a1.isLt)

theorem withEncoded_r3_toNat :
    (s.withEncoded f).r3.toNat = if (s.emitted f).length = s.a1.toNat then 0 else 1 := by
  have hle := emitted_length_le s f
  refine (result_yesNo_toNat _).trans ?_
  simp only [yesNo, decide_eq_true_eq]
  split_ifs <;> omega

/-- `OBUF` holds the PDU, and behind it what it held before. -/
theorem obufByte_withEncoded (j : Nat) :
    (s.withEncoded f).obufByte j = if h : j < (statusBytes f (s.ackWritten f) (s.emitted f)).length
      then (statusBytes f (s.ackWritten f) (s.emitted f))[j] else s.obufByte j :=
  State.obufByte_writeObuf ..

variable {s f}

theorem obufByte_withEncoded_of_getElem? {j : Nat} {b : Byte}
    (h : (statusBytes f (s.ackWritten f) (s.emitted f))[j]? = some b) : (s.withEncoded f).obufByte j = b := by
  obtain ⟨hj, rfl⟩ := List.getElem?_eq_some_iff.1 h
  rw [obufByte_withEncoded, dif_pos hj]

/-- The numbers of the PDU that stands in `OBUF`. -/
theorem obufByte_withEncoded_toNat (h : s.CanEncode f) {j v : Nat}
    (hv : (fixedFormula f (s.ackWritten f).toNat (yesNo !(s.emitted f).isEmpty) ++
      entriesFormula f (s.emitted f))[j]? = some v) : ((s.withEncoded f).obufByte j).toNat = v := by
  obtain ⟨hack, hsn⟩ := h.sn_lt
  rw [← statusBytes_map_toNat f hack hsn, List.getElem?_map, Option.map_eq_some_iff] at hv
  obtain ⟨b, hb, rfl⟩ := hv
  rw [obufByte_withEncoded_of_getElem? hb]

/-- `OBUF` holds a status PDU of `N_NACK` entries. -/
theorem emitted_size_le_obufBytes (hparams : s.params.ok = true) (hcount : s.a1.toNat ≤ s.params.nNack) :
    3 + entriesSize f (s.emitted f) ≤ s.params.obufBytes := by
  have hsize := entriesSize_le f (s.emitted f)
  have hle := emitted_length_le s f
  have hobuf : 3 + 8 * s.params.nNack ≤ s.params.obufBytes := (Params.obufBytes_of_ok hparams).2
  omega

end Results

/-- Settles O39: each clause fails one test and passes those before it. -/
theorem encStatusErrorsInOrder : Obligations.EncStatusErrorsInOrder := by
  intro s k bits hk
  obtain ⟨f, hf, rfl⟩ := exists_statusFormat_of_mem_bits hk
  simp only [exec, execEncStatus_eq hf, any_badEntry_iff]
  refine ⟨fun hargs => if_pos hargs, fun hack hcount hbad => ?_, fun hack hcount hgood hbudget => ?_⟩
  · rw [if_neg (by omega), if_pos hbad]
  · rw [if_neg (by omega), if_neg ?_, if_pos hbudget]
    rintro ⟨i, hi, hbad⟩
    exact hbad.elim (hgood i hi).1.not_ge (hgood i hi).2

/-- Settles O40: the bytes written are the numbers of the layout. -/
theorem encStatusBuildsThePdu : Obligations.EncStatusBuildsThePdu := by
  intro s k f bits hk hparams hack hcount hentries hbudget
  obtain ⟨hf, rfl⟩ := statusFormat_of_mem_bits hk
  have hs : s.CanEncode f := ⟨hack, hcount, hentries, hbudget,
    emitted_size_le_obufBytes hparams hcount⟩
  have hr0 := withEncoded_r0_toNat s f hbudget
  have hlength := statusFormula_length f (statusBytes_map_toNat f hs.sn_lt.1 hs.sn_lt.2)
  refine ⟨_, (s.emitted f).length, _, execEncStatus_of_canEncode hf hs, rfl, rfl, ?_⟩
  have he1 : (if (s.emitted f).length = 0 then 0 else 1) = yesNo !(s.emitted f).isEmpty := by
    simp only [yesNo_not_isEmpty, List.length_eq_zero_iff]
  rw [he1, ← emitted_eq]
  refine ⟨hr0.trans hlength.symm, hr0.trans_le (emitted_fits hbudget), withEncoded_r1_toNat s f, emitted_length_le s f,
    ackWritten_toNat s f, withEncoded_r3_toNat s f, fun j v hv => obufByte_withEncoded_toNat hs hv, fun j hj => ?_⟩
  rw [obufByte_withEncoded, dif_neg]
  rw [statusBytes_length]
  exact (hr0.symm.trans_le hj).not_gt

/-- Settles O41: the entries emitted are a first part of the table, cut where the budget rule says. -/
theorem budgetBoundaryIncludesEquality : Obligations.BudgetBoundaryIncludesEquality := by
  intro s t k base hk hexec hok
  obtain ⟨f, hf, rfl⟩ := exists_statusFormat_of_mem_base hk
  obtain ⟨hs, rfl⟩ := execEncStatus_ok_of_format hf hexec hok
  rw [withEncoded_r1_toNat, withEncoded_r0_toNat s f hs.budget, entriesSize_emitted, entriesSize_ntabFrom]
  refine ⟨emitted_length_le s f, rfl, fun i hi => ?_⟩
  rw [lt_emitted_length_iff hs.budget hi, entriesSize_ntabFrom]
  rfl

/-- Settles O42: the ACK SN written, and the fixed part's bytes read as a number. -/
theorem truncationLowersTheAckSn : Obligations.TruncationLowersTheAckSn := by
  intro s t k f hk hexec hok
  obtain ⟨hs, rfl⟩ := execEncStatus_ok_of_format (statusFormat_of_mem hk) hexec hok
  have hle := emitted_length_le s f
  have hr2 : (s.withEncoded f).r2 = s.ackWritten f := rfl
  rw [withEncoded_r1_toNat, withEncoded_r3_toNat, hr2]
  refine ⟨fun hlt => ?_, fun hge => ?_, ?_⟩
  · rw [if_neg hlt.ne, ackWritten_toNat, if_neg hlt.ne]
    exact ⟨rfl, rfl⟩
  · have heq := hle.antisymm hge
    rw [if_pos heq, ackWritten_eq, if_pos heq]
    exact ⟨rfl, rfl⟩
  · have hack := hs.sn_lt.1
    cases f with
    | sn12 =>
      change _ < 2 ^ 12 at hack
      simp only [obufByte_withEncoded_toNat hs (j := 0) rfl, obufByte_withEncoded_toNat hs (j := 1) rfl]
      omega
    | sn18 =>
      change _ < 2 ^ 18 at hack
      have he1 := yesNo_le !(s.emitted .sn18).isEmpty
      simp only [obufByte_withEncoded_toNat hs (j := 0) rfl, obufByte_withEncoded_toNat hs (j := 1) rfl,
        obufByte_withEncoded_toNat hs (j := 2) rfl]
      omega

/-! #### What was encoded, decoded again (43_status_pdu_codec.md R185) -/

/-- Bytes in `IBUF` under their masks. -/
theorem State.ibufUnder_eq_zipWith {s : State} {pos : Nat} {bs ms : List Byte} (hlen : bs.length = ms.length)
    (h : ∀ j b, bs[j]? = some b → s.ibufByte (pos + j) = b) : s.ibufUnder pos ms = List.zipWith (· &&& ·) bs ms := by
  refine List.ext_getElem? fun j => ?_
  rw [s.ibufUnder_getElem?, List.getElem?_zipWith]
  by_cases hj : j < bs.length
  · have hb : bs[j]? = some bs[j] := List.getElem?_eq_getElem hj
    have hm : ms[j]? = some (ms[j]'(hlen ▸ hj)) := List.getElem?_eq_getElem _
    rw [hb, hm, Option.map_some, h j _ hb]
  · rw [List.getElem?_eq_none (not_lt.1 hj), List.getElem?_eq_none (hlen ▸ not_lt.1 hj)]
    rfl

/-- Each mask keeps what is written above the reserved bits. -/
theorem append_zero_and_statusMask :
    (∀ x : BitVec 1, (x ++ 0#7 : Byte) &&& 0x80#8 = x ++ 0#7) ∧
      (∀ x : BitVec 5, (x ++ 0#3 : Byte) &&& 0xF8#8 = x ++ 0#3) ∧
      ∀ x : BitVec 7, (x ++ 0#1 : Byte) &&& 0xFE#8 = x ++ 0#1 := by decide

section Reserved

variable (f : StatusFormat)

theorem fixedBytes_and_mask (ack : Word) (e1 : Bool) :
    List.zipWith (· &&& ·) (fixedBytes f ack e1) (fixedMask f) = fixedBytes f ack e1 := by
  obtain ⟨h80, -, hfe⟩ := append_zero_and_statusMask
  cases f <;> simp only [fixedBytes, fixedMask, List.zipWith, Byte.and_ff, List.cons.injEq, true_and, and_true]
  · exact h80 _
  · exact hfe _

theorem entryStart_and_mask (e1 : Bool) (t : NackEntry) :
    List.zipWith (· &&& ·) (entryStart f e1 t) (startMask f) = entryStart f e1 t := by
  obtain ⟨-, hf8, hfe⟩ := append_zero_and_statusMask
  cases f <;> simp only [entryStart, startMask, List.zipWith, Byte.and_ff, List.cons.injEq, true_and, and_true]
  · exact hfe _
  · exact hf8 _

theorem zipWith_and_ff (bs : List Byte) : List.zipWith (· &&& ·) bs (List.replicate bs.length 0xFF#8) = bs := by
  induction bs with
  | nil => rfl
  | cons b bs ih => rw [List.length_cons, List.replicate_succ, List.zipWith_cons_cons, ih, Byte.and_ff]

theorem entryBytes_and_mask (e1 : Bool) (t : NackEntry) :
    List.zipWith (· &&& ·) (entryBytes f e1 t) (entryMask f t) = entryBytes f e1 t := by
  have hlen := entryBytes_length f e1 t
  rw [esize_eq, entryBytes, List.append_assoc, List.length_append, entryStart_length, Nat.add_left_cancel_iff] at hlen
  rw [entryBytes, entryMask_eq, ← hlen, List.append_assoc, List.zipWith_append (by simp), entryStart_and_mask,
    zipWith_and_ff]

theorem entriesBytes_and_mask (ts : List NackEntry) :
    List.zipWith (· &&& ·) (entriesBytes f ts) (ts.flatMap (entryMask f)) = entriesBytes f ts := by
  induction ts with
  | nil => rfl
  | cons t ts ih =>
    rw [entriesBytes, List.flatMap_cons, List.zipWith_append (by simp [entryBytes_length]), entryBytes_and_mask, ih]

/-- The encoder writes the reserved bits 0. -/
theorem statusBytes_and_mask (ack : Word) (ts : List NackEntry) :
    List.zipWith (· &&& ·) (statusBytes f ack ts) (statusMask f ts) = statusBytes f ack ts := by
  rw [statusBytes, statusMask_eq, List.zipWith_append (by simp [fixedBytes_length]), fixedBytes_and_mask,
    entriesBytes_and_mask]

end Reserved

/-- Settles O43: the copied bytes are the PDU's under its mask, and the decoder reads them back. -/
theorem statusPduRoundTrip : Obligations.StatusPduRoundTrip := by
  intro s t u k hexec hok hlen hbuf hroom hcopy
  obtain ⟨f, hf, hs, rfl⟩ := execEncStatus_ok hexec hok
  obtain ⟨hack, hsn⟩ := hs.sn_lt
  have hr0 := withEncoded_r0_toNat s f hs.budget
  have hr1 := withEncoded_r1_toNat s f
  have hlen' : u.a0.toNat = 3 + entriesSize f (s.emitted f) := (congrArg BitVec.toNat hlen).trans hr0
  have hbytes : u.ibufUnder 0 (statusMask f (s.emitted f)) = statusBytes f (s.ackWritten f) (s.emitted f) := by
    refine (State.ibufUnder_eq_zipWith (by rw [statusBytes_length, statusMask_length]) fun j b hb => ?_).trans
      (statusBytes_and_mask f _ _)
    have hj := (List.getElem?_eq_some_iff.1 hb).1
    rw [statusBytes_length] at hj
    rw [Nat.zero_add, hcopy j (hj.trans_eq hr0.symm), obufByte_withEncoded_of_getElem? hb]
  refine ⟨_, execDecStatus_of_bytes hf hack hsn (hr1.symm.trans_le hroom) hbytes hlen'.ge (by rw [hlen]; exact hbuf),
    rfl, rfl, congrArg result (List.length_map _), rfl, fun i hi => ntabEntry_withDecoded_of_lt u _ _ _ ?_⟩
  rw [hr1] at hi
  rw [emitted_eq, List.getElem?_map, s.ntabFrom_getElem? 0 _ i hi, Nat.zero_add]
  rfl

/-! #### What was decoded, encoded again (43_status_pdu_codec.md R185, converse) -/

theorem fixedAck_lt (f : StatusFormat) (b0 b1 b2 : Byte) : (fixedAck f b0 b1 b2).toNat < 2 ^ f.snBits := by
  have h1 := b1.isLt
  have h2 := b2.isLt
  rw [fixedAck_toNat]
  cases f <;> simp only [StatusFormat.snBits] <;> omega

/-- A `DEC_STATUS` that ends without an error has read the status PDU that `IBUF` starts with. -/
theorem execDecStatus_ok {s t : State} {k : KSel} (h : execDecStatus k s = .next t) (hok : t.status = .ok) :
    ∃ f ack ts, statusFormat k = some f ∧ ack.toNat < 2 ^ f.snBits ∧ (∀ t ∈ ts, t.nackSn.toNat < 2 ^ f.snBits) ∧
      s.ibufUnder 0 (statusMask f ts) = statusBytes f ack ts ∧ 3 + entriesSize f ts ≤ s.a0.toNat ∧
      t = s.withDecoded ack ts (3 + entriesSize f ts) := by
  obtain ⟨e, he, rfl⟩ | ⟨f, ts, pos, hf, -, hlen, hbit, hcpt, hread, rfl⟩ := execDecStatus_cases h
  · exact absurd hok he
  obtain ⟨hsn, he1, hbytes⟩ := bytes_of_readEntries hread
  obtain ⟨-, rfl, hend⟩ := readEntries_ok hread
  have hack := fixedAck_lt f (s.ibufByte 0) (s.ibufByte 1) (s.ibufByte 2)
  rw [Byte.getLsbD_seven, decide_eq_false_iff_not] at hbit
  rw [Byte.extractLsb_six_four_eq_zero_iff] at hcpt
  have hctl : (s.ibufByte 0).toNat < 16 := by omega
  refine ⟨f, _, ts, hf, hack, hsn, ?_, hend hlen, rfl⟩
  rw [statusMask_eq, statusBytes, State.ibufUnder_append_eq (by simp [fixedBytes_length]), fixedMask_length,
    fixedBytes_eq_iff hack]
  exact ⟨⟨hctl, rfl, he1⟩, by rwa [Nat.zero_add]⟩

/-- With room for the whole table nothing is left out. -/
theorem emitted_eq_ntabFrom {s : State} {f : StatusFormat} (hbudget : 3 ≤ s.a2.toNat)
    (h : 3 + entriesSize f (s.ntabFrom 0 s.a1.toNat) ≤ s.a2.toNat) : s.emitted f = s.ntabFrom 0 s.a1.toNat := by
  have hle := emitted_length_le s f
  have hlen : (s.emitted f).length = s.a1.toNat := by
    refine hle.antisymm (not_lt.1 fun hlt => ?_)
    have hmono := entriesSize_ntabFrom_mono f s (m := (s.emitted f).length + 1) hlt
    exact lt_irrefl _ ((lt_emitted_length_iff hbudget hlt).2 (by omega))
  rw [emitted_eq, hlen]

theorem ntabFrom_withDecoded (s : State) (ack : Word) (ts : List NackEntry) (pos : Nat) :
    (s.withDecoded ack ts pos).ntabFrom 0 ts.length = ts := by
  refine List.ext_getElem (State.ntabFrom_length ..) fun i _ hi => ?_
  simp only [State.ntabFrom_zero_eq_map, List.getElem_map, List.getElem_range]
  exact ntabEntry_withDecoded_of_lt s ack ts pos (List.getElem?_eq_getElem hi)

theorem State.ntabFrom_congr {s t : State} {n : Nat} (h : ∀ i, i < n → s.ntabEntry i = t.ntabEntry i) :
    s.ntabFrom 0 n = t.ntabFrom 0 n := by
  rw [s.ntabFrom_zero_eq_map, t.ntabFrom_zero_eq_map]
  exact List.map_congr_left fun i hi => h i (List.mem_range.1 hi)

/-- A table in the encoder's range whose PDU is as long as the budget is encoded whole. -/
theorem canEncode_whole {u : State} {f : StatusFormat} {ts : List NackEntry} (hts : u.ntabFrom 0 u.a1.toNat = ts)
    (hparams : u.params.ok = true) (hack : u.a0.toNat < 2 ^ f.snBits) (hcount : u.a1.toNat ≤ u.params.nNack)
    (hgood : ∀ t ∈ ts, t.nackSn.toNat < 2 ^ f.snBits ∧ ¬(t.e3 = true ∧ t.range = 0))
    (hbudget : u.a2.toNat = 3 + entriesSize f ts) :
    u.CanEncode f ∧ u.emitted f = ts ∧ (u.emitted f).length = u.a1.toNat ∧ u.ackWritten f = u.a0 := by
  subst hts
  have hthree : 3 ≤ u.a2.toNat := by omega
  have hem := emitted_eq_ntabFrom hthree hbudget.ge
  have hall : (u.emitted f).length = u.a1.toNat := (congrArg List.length hem).trans (u.ntabFrom_length 0 _)
  exact ⟨⟨hack, hcount, State.forall_mem_ntabFrom.1 hgood, hthree, emitted_size_le_obufBytes hparams hcount⟩, hem, hall,
    (ackWritten_eq u f).trans (if_pos hall)⟩

/-- Settles O44: the entries decoded are in the encoder's range and fit the budget, and their bytes are the PDU's. -/
theorem statusPduReencodes : Obligations.StatusPduReencodes := by
  intro s t u k f hk hexec hok hparams ha0 ha1 ha2 hroom hentries
  have hf := statusFormat_of_mem hk
  obtain ⟨f', ack, ts, hf', hack, hsn, hbytes, hlen, rfl⟩ := execDecStatus_ok hexec hok
  obtain rfl : f = f' := Option.some_inj.1 (hf.symm.trans hf')
  have hcount := length_le_entriesSize ts f
  have ha0lt := s.a0.isLt
  have hr1 : (s.withDecoded ack ts (3 + entriesSize f ts)).r1.toNat = ts.length := result_toNat (by omega)
  have hr2 : (s.withDecoded ack ts (3 + entriesSize f ts)).r2.toNat = 3 + entriesSize f ts := result_toNat (by omega)
  rw [hr1] at hroom hentries ⊢
  rw [← ha1] at hr1
  rw [← ha2] at hr2
  have hrange := State.forall_mem_ntabFrom (P := fun e => ¬(e.e3 = true ∧ e.range = 0)).2 fun i hi => (hentries i hi).2
  rw [ntabFrom_withDecoded] at hrange
  have hts : u.ntabFrom 0 u.a1.toNat = ts := by
    rw [hr1, State.ntabFrom_congr fun i hi => (hentries i hi).1, ntabFrom_withDecoded]
  obtain ⟨hu, hem, hall, hackw⟩ := canEncode_whole hts hparams (ha0 ▸ hack) (hr1.trans_le hroom)
    (fun e he => ⟨hsn e he, hrange e he⟩) hr2
  refine ⟨_, execEncStatus_of_canEncode hf hu, rfl, ?_, ?_, hackw.trans ha0, ?_, ?_, fun j m hm => ?_⟩
  · exact congrArg (fun us => result (3 + entriesSize f us)) hem
  · exact congrArg (fun us => result us.length) hem
  · exact BitVec.eq_of_toNat_eq ((withEncoded_r3_toNat u f).trans (if_pos hall))
  · rw [ntabFrom_withDecoded, statusMask_length, withEncoded_r0_toNat u f hu.budget, hem, fixedPart]
  · rw [ntabFrom_withDecoded] at hm
    refine obufByte_withEncoded_of_getElem? ?_
    have hack' : u.a0 = ack := ha0
    rw [hackw, hack', hem, ← hbytes, s.ibufUnder_getElem?, hm, Nat.zero_add]
    rfl

/-! #### Larger budgets (43_status_pdu_codec.md R186) -/

section Extended

variable (f : StatusFormat)

/-- The `E1` of an entry is one bit of the last byte of its fixed part. -/
theorem entryBytes_true_eq_modify (t : NackEntry) :
    entryBytes f true t = (entryBytes f false t).modify (f.base - 1) (· ||| e1Mask f) := by
  have h12 : ∀ (x : BitVec 4) (y z : BitVec 1),
      (x ++ bit true ++ y ++ z ++ 0#1 : Byte) = (x ++ bit false ++ y ++ z ++ 0#1) ||| 0x08#8 := by decide
  have h18 : ∀ (x : BitVec 2) (y z : BitVec 1),
      (x ++ bit true ++ y ++ z ++ 0#3 : Byte) = (x ++ bit false ++ y ++ z ++ 0#3) ||| 0x20#8 := by decide
  cases f with
  | sn12 => exact congrArg (t.nackSn.extractLsb 11 4 :: · :: _) (h12 ..)
  | sn18 => exact congrArg (t.nackSn.extractLsb 17 10 :: t.nackSn.extractLsb 9 2 :: · :: _) (h18 ..)

theorem base_pos : 0 < f.base := by cases f <;> decide

theorem entryBytes_true_getElem? (t : NackEntry) (i : Nat) :
    (entryBytes f true t)[i]? =
      (entryBytes f false t)[i]?.map fun b => if i + 1 = f.base then b ||| e1Mask f else b := by
  have hbase := base_pos f
  have hplace : f.base - 1 = i ↔ i + 1 = f.base := by omega
  simp only [entryBytes_true_eq_modify, List.getElem?_modify, hplace]
  rfl

theorem entriesBytes_append (ts : List NackEntry) {us : List NackEntry} (h : us ≠ []) :
    entriesBytes f (ts ++ us) = ts.flatMap (entryBytes f true) ++ entriesBytes f us := by
  induction ts with
  | nil => rfl
  | cons t ts ih =>
    have hne : (ts ++ us).isEmpty = false := by simp [h]
    rw [List.cons_append, entriesBytes, ih, hne, List.flatMap_cons, List.append_assoc]
    rfl

/-- With more entries behind them, entries have the same bytes but for the `E1` of the last of them. -/
theorem entriesBytes_extended_getElem? (ts : List NackEntry) (t : NackEntry) {us : List NackEntry} (h : us ≠ [])
    {i : Nat} (hi : i < entriesSize f (ts ++ [t])) :
    (entriesBytes f (ts ++ [t] ++ us))[i]? = (entriesBytes f (ts ++ [t]))[i]?.map fun b =>
      if i + 1 = entriesSize f ts + f.base then b ||| e1Mask f else b := by
  have hbase := base_pos f
  have hchain := chainBytes_length f ts
  rw [entriesSize_append, entriesSize, entriesSize, Nat.add_zero] at hi
  rw [List.append_assoc, entriesBytes_append f ts (by simp), entriesBytes_append f ts (by simp)]
  by_cases hlt : i < entriesSize f ts
  · rw [List.getElem?_append_left (by omega), List.getElem?_append_left (by omega)]
    simp only [show ¬i + 1 = entriesSize f ts + f.base by omega, if_false, Option.map_id']
  · have hentry : entriesBytes f ([t] ++ us) = entryBytes f true t ++ entriesBytes f us :=
      (entriesBytes_append f [t] h).trans (by simp)
    have hlast : entriesBytes f [t] = entryBytes f false t := List.append_nil _
    have hplace : i - entriesSize f ts + 1 = f.base ↔ i + 1 = entriesSize f ts + f.base := by omega
    rw [List.getElem?_append_right (by omega), List.getElem?_append_right (by omega), hchain, hentry, hlast,
      List.getElem?_append_left (by rw [entryBytes_length]; omega), entryBytes_true_getElem?]
    simp only [hplace]

theorem statusBytes_getElem? (ack : Word) (ts : List NackEntry) {j : Nat} (h : 3 ≤ j) :
    (statusBytes f ack ts)[j]? = (entriesBytes f ts)[j - 3]? := by
  have hlen := fixedBytes_length f ack !ts.isEmpty
  rw [fixedPart] at hlen
  rw [statusBytes, List.getElem?_append_right (hlen.trans_le h), hlen]

end Extended

/-- The state with another budget for `ENC_STATUS`. -/
def State.withBudget (s : State) (budget : Word) : State := { s with a2 := budget }

section Budgets

variable {s : State} {f : StatusFormat} {budget : Word}

theorem ntabFrom_withBudget (s : State) (budget : Word) (n : Nat) :
    (s.withBudget budget).ntabFrom 0 n = s.ntabFrom 0 n := State.ntabFrom_congr fun _ _ => rfl

/-- A larger budget emits at least as many entries. -/
theorem emitted_length_le_withBudget (hbudget : 3 ≤ s.a2.toNat) (hle : s.a2.toNat ≤ budget.toNat) :
    (s.emitted f).length ≤ ((s.withBudget budget).emitted f).length := by
  refine not_lt.1 fun hlt => ?_
  have hcount := hlt.trans_le (emitted_length_le s f)
  have hfits := ((lt_emitted_length_iff hbudget hcount).1 hlt).trans hle
  rw [← ntabFrom_withBudget s budget] at hfits
  exact lt_irrefl _ ((lt_emitted_length_iff (s := s.withBudget budget) (hbudget.trans hle) hcount).2 hfits)

/-- The state after `ENC_STATUS` depends on the budget only through the number of entries emitted. -/
theorem withEncoded_withBudget (h : (s.emitted f).length = ((s.withBudget budget).emitted f).length) :
    (s.withBudget budget).withEncoded f = (s.withEncoded f).withBudget budget := by
  have hem : (s.withBudget budget).emitted f = s.emitted f := by
    rw [emitted_eq, ← h, ntabFrom_withBudget, ← emitted_eq]
  have hack : (s.withBudget budget).ackWritten f = s.ackWritten f := by
    rw [ackWritten_eq, ackWritten_eq, hem]
    rfl
  simp only [State.withEncoded, hem, hack]
  rfl

/-- A budget that emits more entries emits those of the smaller one first. -/
theorem exists_emitted_withBudget (h : (s.emitted f).length < ((s.withBudget budget).emitted f).length) :
    ∃ us, us ≠ [] ∧ (s.withBudget budget).emitted f = s.emitted f ++ us := by
  have htake : ((s.withBudget budget).emitted f).take (s.emitted f).length = s.emitted f := by
    rw [emitted_eq (s.withBudget budget), ntabFrom_withBudget, s.take_ntabFrom h.le, ← emitted_eq]
  refine ⟨((s.withBudget budget).emitted f).drop (s.emitted f).length, ?_, ?_⟩
  · rw [ne_eq, List.drop_eq_nil_iff]
    exact h.not_ge
  · exact (List.take_append_drop _ _).symm.trans (congrArg (· ++ _) htake)

/-- The bytes of the entries that fit the smaller budget, under the larger one. -/
theorem obufByte_withBudget_withEncoded {us : List NackEntry} (hus : us ≠ [])
    (hem : (s.withBudget budget).emitted f = s.emitted f ++ us) {j : Nat} {e : NackEntry} (h3 : 3 ≤ j)
    (hj : j < 3 + entriesSize f (s.emitted f)) (he : e = s.ntabEntry ((s.emitted f).length - 1)) :
    ((s.withBudget budget).withEncoded f).obufByte j =
      if j + 1 + 4 * yesNo e.e2 + yesNo e.e3 = 3 + entriesSize f (s.emitted f)
      then (s.withEncoded f).obufByte j ||| e1Mask f else (s.withEncoded f).obufByte j := by
  obtain ⟨n, hn⟩ : ∃ n, (s.emitted f).length = n + 1 := by
    refine Nat.exists_eq_succ_of_ne_zero fun hzero => ?_
    rw [List.length_eq_zero_iff.1 hzero, entriesSize] at hj
    omega
  have hlast : s.emitted f = s.ntabFrom 0 n ++ [e] := by
    rw [he, hn, Nat.add_sub_cancel, ← s.ntabFrom_succ, ← hn, ← emitted_eq]
  have hsize : entriesSize f (s.emitted f) = entriesSize f (s.ntabFrom 0 n) + esize f e := by
    rw [hlast, entriesSize_append]
    rfl
  have hplace : j - 3 + 1 = entriesSize f (s.ntabFrom 0 n) + f.base ↔
      j + 1 + 4 * yesNo e.e2 + yesNo e.e3 = 3 + entriesSize f (s.emitted f) := by
    rw [hsize, esize_eq]
    omega
  obtain ⟨b, hb⟩ : ∃ b, (entriesBytes f (s.emitted f))[j - 3]? = some b :=
    ⟨_, List.getElem?_eq_getElem (by rw [entriesBytes_length]; omega)⟩
  have ht : (s.withEncoded f).obufByte j = b :=
    obufByte_withEncoded_of_getElem? ((statusBytes_getElem? f _ _ h3).trans hb)
  rw [ht]
  refine obufByte_withEncoded_of_getElem? ((statusBytes_getElem? f _ _ h3).trans ?_)
  rw [hlast] at hb
  rw [hem, hlast, entriesBytes_extended_getElem? f _ e hus (by rw [← hlast]; omega), hb]
  simp only [hplace, Option.map_some, ← hlast]

end Budgets

/-- Settles O45: the smaller budget's entries are a first part of the larger one's. -/
theorem largerBudgetsExtendThePdu : Obligations.LargerBudgetsExtendThePdu := by
  intro s t u k f budget hk hle hexec hok hexec' hok'
  have hf := statusFormat_of_mem hk
  obtain ⟨hs, rfl⟩ := execEncStatus_ok_of_format hf hexec hok
  obtain ⟨hs', rfl⟩ := execEncStatus_ok_of_format (s := s.withBudget budget) hf hexec' hok'
  have hr1 := withEncoded_r1_toNat s f
  have hr1' := withEncoded_r1_toNat (s.withBudget budget) f
  have hr0 := withEncoded_r0_toNat s f hs.budget
  have hr0' := withEncoded_r0_toNat (s.withBudget budget) f hs'.budget
  rw [← BitVec.toNat_inj, hr1, hr1', hr0, hr0']
  refine ⟨emitted_length_le_withBudget hs.budget hle, withEncoded_withBudget, fun hlt => ?_⟩
  obtain ⟨us, hus, hem⟩ := exists_emitted_withBudget hlt
  refine ⟨?_, fun j e h3 hj he => obufByte_withBudget_withEncoded hus hem h3 hj he⟩
  have hcount := length_le_entriesSize us f
  have hpos := List.length_pos_iff.2 hus
  rw [hem, entriesSize_append]
  omega

end Sys2Proof.Machine

/-! ### Errors, in general (60_exceptions.md) -/

namespace Sys2Proof

/-! #### Words that match no row (60_exceptions.md R202) -/

/-- A bit the row's match column sets is set in every word of the row. -/
theorem Opcode.getLsbD_of_matchesWord {r : Opcode} {w : Word} {j : Nat} (h : r.matchesWord w = true)
    (hj : r.pattern.getLsbD j = true) : w.getLsbD j = true := by
  rw [← Opcode.matchesWord_iff.mp h, BitVec.getLsbD_and, Bool.and_eq_true] at hj
  exact hj.1

/-- A word of a row is zero at the masked places where the match column is zero. -/
theorem Opcode.unused_bits_of_matchesWord {r : Opcode} {w : Word} (h : r.matchesWord w = true) :
    w &&& r.mask &&& ~~~r.pattern = 0#32 := by
  rw [Opcode.matchesWord_iff.mp h]
  exact BitVec.and_not_self _

/-- The `OP` of a word names the only row the word can match. -/
theorem Opcode.eq_of_matchesWord_of_op {r r' : Opcode} {w : Word} (h : r'.matchesWord w = true)
    (hop : opField w = r.op) : r' = r :=
  Opcode.eq_of_op_eq ((Opcode.opField_of_matchesWord h).symm.trans hop)

end Sys2Proof

namespace Sys2Proof.Machine

theorem command_of_no_match {w : Word} (h : ∀ r : Opcode, r.matchesWord w ≠ true) (s : State) :
    command w s = raise .eIllegal s := by
  simp only [command, decode_of_no_match h]

/-- Settles O6: a word that matches a row has the row's `OP`, its zeros under the mask and its set bits. -/
theorem illegalWordsRaise : Obligations.IllegalWordsRaise := by
  unfold Obligations.IllegalWordsRaise
  simp only [ne_eq, ← Opcode.matchesWord_iff]
  refine ⟨fun s w rest hmoves hnone => ?_, rfl, fun w hop r hr => ?_, fun w r hop hbits r' hr' => ?_,
    fun w hop hmode r hr => ?_⟩
  · rw [step_of_moves hmoves]
    exact command_of_no_match hnone _
  · exact hop r (Opcode.opField_of_matchesWord hr)
  · obtain rfl := Opcode.eq_of_matchesWord_of_op hr' hop
    exact hbits (Opcode.unused_bits_of_matchesWord hr')
  · have hset : r.pattern.getLsbD 2 = true := by
      obtain hop | hop := hop
      · obtain rfl : r = .encStatus := Opcode.eq_of_matchesWord_of_op hr hop
        decide
      · obtain rfl : r = .decStatus := Opcode.eq_of_matchesWord_of_op hr hop
        decide
    exact Bool.eq_false_iff.mp hmode (Opcode.getLsbD_of_matchesWord hr hset)

/-! #### What an error leaves alone (60_exceptions.md R218) -/

/-- Of two ways to end, one the raise of an error and the other with `STATUS` `OK`, an error is the first. -/
theorem eq_withStatus_of_raise_or {s t : State} {P : Prop} (h : (∃ e, e ≠ .ok ∧ t = { s with status := e }) ∨ P)
    (hok : P → t.status = .ok) (herr : t.status ≠ .ok) : t = { s with status := t.status } := by
  obtain ⟨e, -, rfl⟩ | hp := h
  · rfl
  · exact absurd (hok hp) herr

theorem eq_withStatus_of_snAnswers {s t : State} (h : snAnswers s t) (herr : t.status ≠ .ok) :
    t = { s with status := t.status } :=
  eq_withStatus_of_raise_or h (by rintro ⟨v, rfl⟩; rfl) herr

/-- Every command ends with `STATUS` `OK` or has changed nothing else. -/
theorem exec_error {i : Instr} {s t : State} (h : exec i s = .next t) (herr : t.status ≠ .ok) :
    t = { s with status := t.status } := by
  cases i with
  | snAdd k => exact eq_withStatus_of_snAnswers (execSnAdd_cases h) herr
  | snDist k => exact eq_withStatus_of_snAnswers (execSnDist_cases h) herr
  | snCmp k => exact eq_withStatus_of_snAnswers (execSnCmp_cases h) herr
  | snInwin k => exact eq_withStatus_of_snAnswers (execSnInwin_cases h) herr
  | rtSeg c last =>
    exact eq_withStatus_of_raise_or (execRtSeg_cases h) (by rintro ⟨-, -, -, -, -, -, rfl⟩; rfl) herr
  | rtGet c => exact eq_withStatus_of_raise_or (execRtGet_cases h) (by rintro ⟨-, -, -, rfl⟩; rfl) herr
  | rtDrop c => exact eq_withStatus_of_raise_or (execRtDrop_cases h) (by rintro ⟨-, rfl⟩; rfl) herr
  | rtMiss c => exact eq_withStatus_of_raise_or (execRtMiss_cases h) (by rintro ⟨-, rfl⟩; rfl) herr
  | rtList c => exact eq_withStatus_of_raise_or (execRtList_cases h) (by rintro ⟨-, -, rfl⟩; rfl) herr
  | encData p si m k =>
    exact eq_withStatus_of_raise_or (execEncData_cases h) (by rintro ⟨f, -, -, -, -, -, rfl⟩; rfl) herr
  | decData m k =>
    exact eq_withStatus_of_raise_or (execDecData_cases h) (by rintro ⟨f, si, -, -, -, -, -, rfl⟩; rfl) herr
  | encStatus k =>
    refine eq_withStatus_of_raise_or (execEncStatus_cases h) ?_ herr
    rintro ⟨f, entries, emitted, -, -, -, -, -, -, -, -, rfl⟩
    rfl
  | decStatus k =>
    refine eq_withStatus_of_raise_or (execDecStatus_cases h) ?_ herr
    rintro ⟨f, ts, pos, -, -, -, -, -, -, rfl⟩
    rfl

/-- Settles O15: a word runs the command it encodes, or matches no row and raises `E_ILLEGAL`. -/
theorem errorsChangeOnlyStatus : Obligations.ErrorsChangeOnlyStatus := by
  refine ⟨fun i s t => exec_error, fun w s t h herr => ?_⟩
  unfold command at h
  split at h
  · exact exec_error h herr
  · cases h
    rfl

/-! #### The first test of a command (60_exceptions.md R203, R204) -/

/-- The command selects an SN width outside its legal set (30_encoding.md R77). -/
def widthIllegal : Instr → Bool
  | .snAdd k | .snDist k | .snCmp k | .snInwin k => (snBits k).isNone
  | .encData _ _ m k | .decData m k => (dataFormat m k).isNone
  | .encStatus k | .decStatus k => (statusFormat k).isNone
  | .rtSeg _ _ | .rtGet _ | .rtDrop _ | .rtMiss _ | .rtList _ => false

theorem withRing_of_no_width {k : KSel} (hk : snBits k = none) (s : State) (body : Nat → Out) :
    withRing k s body = raise .eBadSnbits s := by
  simp only [withRing, hk]

/-- The width is the first test of every command that has one. -/
theorem exec_of_widthIllegal {i : Instr} (h : widthIllegal i = true) (s : State) :
    exec i s = raise .eBadSnbits s := by
  cases i with
  | snAdd k => simp only [exec, execSnAdd, withRing_of_no_width (Option.isNone_iff_eq_none.mp h)]
  | snDist k => simp only [exec, execSnDist, withRing_of_no_width (Option.isNone_iff_eq_none.mp h)]
  | snCmp k => simp only [exec, execSnCmp, withRing_of_no_width (Option.isNone_iff_eq_none.mp h)]
  | snInwin k => simp only [exec, execSnInwin, withRing_of_no_width (Option.isNone_iff_eq_none.mp h)]
  | encData p si m k => simp only [exec, execEncData, Option.isNone_iff_eq_none.mp h]
  | decData m k => simp only [exec, execDecData, Option.isNone_iff_eq_none.mp h]
  | encStatus k => simp only [exec, execEncStatus, Option.isNone_iff_eq_none.mp h]
  | decStatus k => simp only [exec, execDecStatus, Option.isNone_iff_eq_none.mp h]
  | rtSeg | rtGet | rtDrop | rtMiss | rtList => cases h

/-- Settles O13: each of the listed commands selects an illegal width. -/
theorem badWidthsRaise : Obligations.BadWidthsRaise := by
  refine ⟨rfl, fun s i poll si hi => exec_of_widthIllegal ?_ s⟩
  revert i
  exact List.forall_iff_forall_mem.mp ⟨rfl, rfl, rfl, rfl, rfl, rfl, rfl, rfl, rfl, rfl, rfl, rfl, rfl, rfl, rfl, rfl⟩

/-- Settles O14: the context index is the first test of every tracker command. -/
theorem badContextsRaise : Obligations.BadContextsRaise := by
  refine ⟨rfl, fun s c last i hc hi => ?_⟩
  revert i
  exact List.forall_iff_forall_mem.mp ⟨if_pos hc, if_pos hc, if_pos hc, if_pos hc, if_pos hc⟩

/-! #### The status codes (60_exceptions.md R201) -/

/-- The statuses in the order of their codes. -/
def statuses : List Status :=
  [.ok, .eIllegal, .eBadSnbits, .eBadCtx, .eBadArg, .eBufRange, .eShortPdu, .eNotData, .eNotStatus, .eBadCpt,
    .eNackOvf, .eBudget, .eSegRange, .eSegInconsistent, .eGapFull, .eNotComplete]

theorem mem_statuses (e : Status) : e ∈ statuses := by cases e <;> decide

theorem statuses_map_code : statuses.map (fun e => e.code.toNat) = List.range 16 := by decide

/-- The codes in their order are all different, and the list leaves no status out. -/
theorem Status.code_injective : Function.Injective Status.code := fun e e' h =>
  List.inj_on_of_nodup_map (statuses_map_code ▸ List.nodup_range) (mem_statuses e) (mem_statuses e')
    (congrArg BitVec.toNat h)

theorem extractLsb_setWidth_byte (b : Byte) :
    (b.setWidth 32).extractLsb 7 0 = b ∧ (b.setWidth 32).extractLsb 31 8 = 0#24 := by
  constructor
  · ext i hi
    grind
  · ext i hi
    grind

/-- Settles O51: the codes count up from 0, and the word read is the code with zeros above. -/
theorem statusCodesAreDistinct : Obligations.StatusCodesAreDistinct :=
  ⟨statuses_map_code, fun _ _ h => Status.code_injective h, fun s => ⟨rfl, extractLsb_setWidth_byte s.status.code⟩⟩

end Sys2Proof.Machine
